-- ==== Sys2Proof/Word.lean ====
section
/-! DEFINITION. The word of the block and a complex bin. -/

namespace Sys2Proof

/-- A command, response or state word: 32 bits, bit 31 most significant (R8). A value of the working
number type `F` is the word that carries it (R9, R110). -/
abbrev Word := BitVec 32

/-- A pair `(re, im)` over the number type `F` (R9, R23). -/
structure CplxOf (F : Type) where
  re : F
  im : F
  deriving DecidableEq, Repr

/-- One complex bin of the hardware (R23). -/
abbrev Cplx := CplxOf Word

/-- The word of `+0.0` (R116). -/
abbrev posZero : Word := 0x00000000#32

/-- The bin `(+0.0, +0.0)` (R233). -/
abbrev Cplx.zero : Cplx := ⟨posZero, posZero⟩

end Sys2Proof
end

