-- ==== Sys2Proof/Config.lean ====
section
/-! DEFINITION. What the hardware is (R2), what a build fixes (R5, R6), and the free values: constants without
a body, of which nothing can be proved but what the definitions that use them enforce. -/

namespace Sys2Proof

/-- What identifies the modelled hardware (R2). -/
structure Identity where
  block : String
  repository : String
  documentKind : String
  /-- None where the document states none. -/
  documentRevision : Option String
  commandSetVersion : Nat
  deriving DecidableEq, Repr

/-- "The identity a model should record" (R2). -/
def identity : Identity where
  block := "streaming_fft_magnitude_spectrum"
  repository := "anshulkhandekar/Audio-Visualizer"
  documentKind := "repo_spec"
  documentRevision := none
  commandSetVersion := 1

/-- The parameters of one build (R5, R6): never changed by a command. They are carried in `State` so that
every claim is about every build (log 1). -/
structure Build where
  /-- `W`, the analyzer window length (R5). -/
  w : Nat
  /-- `L`, the taps per filter (R5). -/
  l : Nat
  /-- The word that gives `SINC_EPS` (R6): `Build.sincEps` is what it is read as (log 2). -/
  sincWord : Word
  /-- The word that gives `NORM_EPS` (R6): `Build.normEps` is what it is read as (log 2). -/
  normWord : Word
  deriving DecidableEq, Repr

/-- `NB = W/2 + 1` bins per spectral frame (R5). -/
def Build.nb (b : Build) : Nat := b.w / 2 + 1

/-- `C = (L-1)/2`, the centre tap index (R5). -/
def Build.c (b : Build) : Nat := (b.l - 1) / 2

/-- The constraints of R5: `W` even, `2 <= W < 2^24`; `L` odd, `3 <= L < 2^24`. A build outside them is
outside the spec (V13). -/
def Build.ok (b : Build) : Bool :=
  b.w % 2 == 0 && decide (2 ≤ b.w) && decide (b.w < 2 ^ 24) &&
    (b.l % 2 == 1 && decide (3 ≤ b.l) && decide (b.l < 2 ^ 24))

/-- The operations whose NaN results are free draws (R112). -/
inductive FloatOp where
  | add | sub | mul | div | sqrt
  deriving DecidableEq, Repr

/-- The unit whose arithmetic draws a NaN. -/
inductive DrawUnit where
  | sa | cg | fb
  deriving DecidableEq, Repr

/-- The name of one NaN draw: the unit, the count of that unit's computations so far, and the place inside
the computation (`lane`, `idx`). Two different draws are unrelated (log 3). -/
structure Draw where
  unit : DrawUnit
  cmd : Nat
  lane : Nat
  idx : Nat
  deriving DecidableEq, Repr

/-- V1: sign, quiet bit and payload of a NaN result. FREE VALUE (log 3). -/
opaque Config.nanBits : Draw → FloatOp → Word → Word → Word

/-- V2: what the build's sine answers (R117). FREE VALUE (log 5). -/
opaque Config.sinBits : Word → Word

/-- V2: what the build's cosine answers (R117). FREE VALUE (log 5). -/
opaque Config.cosBits : Word → Word

/-- V3, V4: the real part of bin `k` of the build's forward transform (R126). FREE VALUE (log 6). -/
opaque Config.dftRe : List Word → Nat → Word

/-- V3, V4: the imaginary part of bin `k` of the build's forward transform (R126). FREE VALUE (log 6). -/
opaque Config.dftIm : List Word → Nat → Word

/-- V3, V4: sample `n` of the build's inverse transform (R126). FREE VALUE (log 6). -/
opaque Config.idftSample : List Cplx → Nat → Word

/-- V5: the word that gives the `SINC_EPS` of the default build (R6 gives no value). FREE VALUE (log 2). -/
opaque Config.sincWord : Word

/-- The build with the document's defaults `W = 1024`, `L = 257` (R5), the default `NORM_EPS = +0.0` (R6)
and an open `SINC_EPS` (log 2). -/
def Build.default : Build := ⟨1024, 257, Config.sincWord, posZero⟩

end Sys2Proof
end

