-- ==== Sys2Proof/Machine/Binary32.lean ====
section
/-! DEFINITION. The arithmetic of the working format, IEEE 754 binary32 (R110 to R116, R119): operands become
integers, the exact result is computed, and it is rounded once, to nearest with ties to even. -/

namespace Sys2Proof.Machine.F32

/-- The sign bit `w[31]` (R110). -/
def sign (w : Word) : Bool := w.msb

/-- Bits 30:0: exponent and fraction. Two numbers of one sign compare as these do. -/
def mag (w : Word) : Nat := w.toNat % 2 ^ 31

/-- The biased exponent `w[30:23]` (R110). -/
def expo (w : Word) : Nat := mag w / 2 ^ 23

/-- The fraction `w[22:0]` (R110). -/
def frac (w : Word) : Nat := mag w % 2 ^ 23

/-- A NaN: `e = 255, f != 0` (R110). -/
def isNaN (w : Word) : Bool := decide (0x7F800000 < mag w)

/-- An infinity: `e = 255, f = 0` (R110). -/
def isInf (w : Word) : Bool := mag w == 0x7F800000

/-- A zero of either sign (R110). -/
def isZero (w : Word) : Bool := mag w == 0

/-- A finite number: `e <= 254` (R110). -/
def isFinite (w : Word) : Bool := decide (mag w < 0x7F800000)

/-- The magnitude of a finite number in units of `2^-149`, the smallest subnormal: an integer (R110). -/
def units (w : Word) : Nat :=
  if expo w = 0 then frac w else (2 ^ 23 + frac w) * 2 ^ (expo w - 1)

/-- The number 1 in units of `2^-149`. -/
def scale : Nat := 2 ^ 149

/-- The value of a finite number in units of `2^-149` (R110). -/
def value (w : Word) : Int := if sign w then -(units w : Int) else (units w : Int)

/-- The word with the given sign and bits 30:0. -/
def pack (neg : Bool) (m : Nat) : Word := BitVec.ofNat 32 ((if neg then 2 ^ 31 else 0) + m)

/-- An infinity. -/
def inf (neg : Bool) : Word := pack neg 0x7F800000

/-- `num/den` rounded to the nearest integer, ties to even (R111). -/
def nearestEven (num den : Nat) : Nat :=
  let q := num / den
  let r := num % den
  if 2 * r < den then q
  else if den < 2 * r then q + 1
  else if q % 2 = 0 then q else q + 1

/-- The binary32 number nearest to `num/den` units of `2^-149`, ties to even, with the given sign; beyond
the largest finite number an infinity (R111), subnormal where it is small (R119). With `k` the number of
binades above the subnormal one, the significand is `num/den / 2^k` rounded, and a carry out of it
moves to the next exponent by itself. -/
def round (neg : Bool) (num den : Nat) : Word :=
  let k := Nat.log2 (num / den) - 23
  pack neg (min (2 ^ 23 * k + nearestEven num (den * 2 ^ k)) 0x7F800000)

/-! Each operation answers `none` where the result is a NaN: which NaN is not fixed (R112). -/

/-- The exact sum of two non-NaN numbers, rounded (R111). -/
def sumOf (a b : Word) : Option Word :=
  if isInf a then
    if isInf b && sign a != sign b then none else some a
  else if isInf b then some b
  else
    let z := value a + value b
    some (if z = 0 then pack (sign a && sign b) 0 else round (decide (z < 0)) z.natAbs 1)

/-- `fneg(a)` inverts bit 31, also of a NaN (R114). -/
def neg (a : Word) : Word := a ^^^ 0x80000000#32

/-- `fabs(a)` clears bit 31, also of a NaN (R114). -/
def abs (a : Word) : Word := a &&& 0x7FFFFFFF#32

/-- `fadd` (R111). -/
def add? (a b : Word) : Option Word := if isNaN a || isNaN b then none else sumOf a b

/-- `fsub` (R111): the exact difference is the sum with the negated operand. -/
def sub? (a b : Word) : Option Word := if isNaN a || isNaN b then none else sumOf a (neg b)

/-- `fmul` (R111). -/
def mul? (a b : Word) : Option Word :=
  if isNaN a || isNaN b then none
  else
    let s := sign a != sign b
    if isInf a || isInf b then
      if isZero a || isZero b then none else some (inf s)
    else some (round s (units a * units b) scale)

/-- `fdiv` (R111). -/
def div? (a b : Word) : Option Word :=
  if isNaN a || isNaN b then none
  else
    let s := sign a != sign b
    if isInf a then
      if isInf b then none else some (inf s)
    else if isInf b then some (pack s 0)
    else if isZero b then
      if isZero a then none else some (inf s)
    else some (round s (scale * units a) (units b))

/-- The largest `r` with `r * r <= v`, built from `r` by the bits below `i`. -/
def sqrtBits (v : Nat) : Nat → Nat → Nat
  | 0, r => r
  | i + 1, r => sqrtBits v i (if (r + 2 ^ i) * (r + 2 ^ i) ≤ v then r + 2 ^ i else r)

/-- The integer square root of a `v < 2^426`, the largest radicand of a finite number. -/
def natSqrt (v : Nat) : Nat := sqrtBits v 213 0

/-- `fsqrt` (R111). In units of `2^-149` the root of `u` units is the root of the integer `2^149 * u`. Its
integer part has more bits than a significand, so one half added for a root that is not an integer
rounds as the exact root does. -/
def sqrt? (a : Word) : Option Word :=
  if isNaN a then none
  else if isZero a then some a
  else if sign a then none
  else if isInf a then some a
  else
    let v := scale * units a
    let q := natSqrt v
    some (round false (2 * q + if q * q = v then 0 else 1) 2)

/-! ### Comparisons (R113) -/

/-- A number's place in the order of the numbers: both zeros at 0, infinities at the ends. -/
def key (w : Word) : Int := if sign w then -(mag w : Int) else (mag w : Int)

/-- `flt(a, b)`: `a < b`, false on a NaN (R113). -/
def lt (a b : Word) : Bool := !isNaN a && !isNaN b && decide (key a < key b)

/-- `fle(a, b)`: `a <= b`, false on a NaN (R113). -/
def le (a b : Word) : Bool := !isNaN a && !isNaN b && decide (key a ≤ key b)

/-- `fgt(a, b)` (R113). -/
def gt (a b : Word) : Bool := lt b a

/-- `fge(a, b)` (R113). -/
def ge (a b : Word) : Bool := le b a

/-! ### Conversions (R115) and constants (R116) -/

/-- `u2f(n)`: the nearest binary32 number, exact for `n < 2^24` (R115). -/
def ofNat (n : Nat) : Word := round false (scale * n) 1

/-- `i2f(n)`: exact for `abs(n) < 2^24` (R115). -/
def ofInt (n : Int) : Word := round (decide (n < 0)) (scale * n.natAbs) 1

def pi : Word := 0x40490FDB#32
def two : Word := 0x40000000#32
def one : Word := 0x3F800000#32
def k042 : Word := 0x3ED70A3D#32
def k05 : Word := 0x3F000000#32
def k008 : Word := 0x3DA3D70A#32

/-! ### The NaN that an operation gives (R112) -/

/-- A NaN word: the free word where that is a NaN, so every NaN word can come; else the suggested
`0x7FC00000` (R6). -/
def asNaN (free : Word) : Word := if isNaN free then free else 0x7FC00000#32

/-- The result of an operation: its number, or a NaN drawn freely (R112, log 3). -/
def orDraw (d : Draw) (op : FloatOp) (a b : Word) (r : Option Word) : Word :=
  match r with
  | some w => w
  | none => asNaN (Config.nanBits d op a b)

end Sys2Proof.Machine.F32
end

