-- ==== Sys2Proof/Machine/Arith.lean ====
section
/-! DEFINITION. The operations the rules are written against (R9), so that one text of a rule reads with
`F` = binary32, the hardware, and with `F` = the reals, the ideal instance (Safety/Ideal.lean). Then the
binary32 reading, with the build's sine, cosine and transforms (R117, R126). -/

namespace Sys2Proof.Machine

/-- The operations on `F` that R9 lists, and the constants of R116. -/
structure Arith (F : Type) where
  add : F → F → F
  sub : F → F → F
  mul : F → F → F
  div : F → F → F
  sqrt : F → F
  sin : F → F
  cos : F → F
  abs : F → F
  neg : F → F
  /-- `flt` (R113). -/
  lt : F → F → Bool
  /-- `fle` (R113). -/
  le : F → F → Bool
  /-- `fgt` (R113). -/
  gt : F → F → Bool
  /-- `fge` (R113). -/
  ge : F → F → Bool
  /-- `u2f` (R115). -/
  ofNat : Nat → F
  /-- `i2f` (R115). -/
  ofInt : Int → F
  zero : F
  one : F
  two : F
  pi : F
  k042 : F
  k05 : F
  k008 : F

/-- The reading of the operations at each place of a computation: `lane` names the step of the rule, `idx`
the element. Only the NaN draws of binary32 depend on the place (R112). -/
abbrev ArithAt (F : Type) := Nat → Nat → Arith F

/-- What a build's sine or cosine answers for `a` (R117): the free word `r` within the properties the spec
grants. `TRIG_RANGE`: for a finite `a` the result lies in `[-1, 1]` (a word outside is read as `+0.0`,
so that every function into `[-1, 1]` is still possible). A NaN for a NaN or infinite `a`. `TRIG_FUN`
holds because `r` is a function of `a`. `TRIG_ACC` is not assumed (log 5). -/
def trigResult (a r : Word) : Word :=
  if F32.isFinite a then
    if F32.mag r ≤ F32.mag F32.one then r else posZero
  else F32.asNaN r

/-- `fsin` (R117). -/
def fsin (a : Word) : Word := trigResult a (Config.sinBits a)

/-- `fcos` (R117). -/
def fcos (a : Word) : Word := trigResult a (Config.cosBits a)

/-- binary32 arithmetic whose NaN results are the draws named by `d` (R111, R112). -/
def arith32 (d : Draw) : Arith Word where
  add a b := F32.orDraw d .add a b (F32.add? a b)
  sub a b := F32.orDraw d .sub a b (F32.sub? a b)
  mul a b := F32.orDraw d .mul a b (F32.mul? a b)
  div a b := F32.orDraw d .div a b (F32.div? a b)
  sqrt a := F32.orDraw d .sqrt a a (F32.sqrt? a)
  sin := fsin
  cos := fcos
  abs := F32.abs
  neg := F32.neg
  lt := F32.lt
  le := F32.le
  gt := F32.gt
  ge := F32.ge
  ofNat := F32.ofNat
  ofInt := F32.ofInt
  zero := posZero
  one := F32.one
  two := F32.two
  pi := F32.pi
  k042 := F32.k042
  k05 := F32.k05
  k008 := F32.k008

/-- binary32 arithmetic at the places of the computation number `cmd` of a unit. -/
def arithAt (unit : DrawUnit) (cmd : Nat) : ArithAt Word := fun lane idx => arith32 ⟨unit, cmd, lane, idx⟩

/-! ### binary32 with one NaN -/

/-- A word as a number: none for a NaN. -/
def num (w : Word) : Option Word := if F32.isNaN w then none else some w

/-- A comparison of two numbers, false where there is none (R113). -/
def compareNum (r : Word → Word → Bool) (a b : Option Word) : Bool := a.any fun x => b.any fun y => r x y

/-- binary32 arithmetic in which all NaNs are the one value `none`: the reading of a rule whose result shows
no NaN, so that which NaN it is needs no draw (R112, log 23). -/
def arithNum : Arith (Option Word) where
  add a b := a.bind fun x => b.bind fun y => F32.add? x y
  sub a b := a.bind fun x => b.bind fun y => F32.sub? x y
  mul a b := a.bind fun x => b.bind fun y => F32.mul? x y
  div a b := a.bind fun x => b.bind fun y => F32.div? x y
  sqrt a := a.bind F32.sqrt?
  sin a := a.bind fun x => num (fsin x)
  cos a := a.bind fun x => num (fcos x)
  abs a := a.map F32.abs
  neg a := a.map F32.neg
  lt := compareNum F32.lt
  le := compareNum F32.le
  gt := compareNum F32.gt
  ge := compareNum F32.ge
  ofNat n := some (F32.ofNat n)
  ofInt n := some (F32.ofInt n)
  zero := some posZero
  one := some F32.one
  two := some F32.two
  pi := some F32.pi
  k042 := some F32.k042
  k05 := some F32.k05
  k008 := some F32.k008

/-! ### The transforms (R126) -/

/-- The free word `r`, or a zero of its sign where the accuracy contract leaves only a zero: "the sign of a
zero output is unconstrained" (R126). -/
def zeroIf (forced : Bool) (r : Word) : Word := if forced then r &&& 0x80000000#32 else r

/-- `dft : F^W -> (F x F)^NB`, a function of its input words alone (`DFT_FUN`), "an all-zero window gives
all-zero bins (of either sign)" (R126). The rest of `DFT_ACC` is not assumed (log 6). -/
def dft (b : Build) (x : List Word) : List Cplx :=
  let allZero := x.all F32.isZero
  (List.range b.nb).map fun k => ⟨zeroIf allZero (Config.dftRe x k), zeroIf allZero (Config.dftIm x k)⟩

/-- Every component that R125 reads is a zero and every component is finite: then `T = 0` and `IDFT_ACC`
leaves only zeros. `Im c[0]` and `Im c[W/2]` are not read (R125). -/
def idftSilent (b : Build) (c : List Cplx) : Bool :=
  c.all (fun z => F32.isZero z.re && F32.isFinite z.im) &&
    ((c.take (b.nb - 1)).drop 1).all fun z => F32.isZero z.im

/-- `idft : (F x F)^NB -> F^W`, the scale `1/W` included (R125, R126, R142), a function of its input words
alone. The rest of `IDFT_ACC` is not assumed (log 6). -/
def idft (b : Build) (c : List Cplx) : List Word :=
  (List.range b.w).map fun n => zeroIf (idftSilent b c) (Config.idftSample c n)

end Sys2Proof.Machine
end

