-- ==== Sys2Proof/Syntax.lean ====
section
/-! DEFINITION. The 19 commands of R85, as R88 returns them. -/

namespace Sys2Proof

/-- The four filter types (R11). -/
inductive FilterType where
  | lp | hp | bs | bp
  deriving DecidableEq, Repr

/-- One command: header and operand words (R80, R82, R88). A vector command keeps its count word `n` and
its vector; `WellFormed` says that they agree. -/
inductive Instr where
  /-- `SA.PUSH` (R140). -/
  | saPush (x : Word)
  /-- `SA.LOAD` (R141). -/
  | saLoad (n : Word) (v : List Word)
  /-- `SA.INV` (R142). -/
  | saInv
  /-- `SA.RST` (R143). -/
  | saRst
  /-- `SA.RDMAG` (R144). -/
  | saRdmag
  /-- `SA.RDCX` (R145). -/
  | saRdcx
  /-- `CG.SETLP` (R180). -/
  | cgSetlp (en : Bool) (cut fs : Word)
  /-- `CG.SETHP` (R181). -/
  | cgSethp (en : Bool) (cut fs : Word)
  /-- `CG.SETBS` (R182). -/
  | cgSetbs (en : Bool) (lo hi fs : Word)
  /-- `CG.SETBP` (R183). -/
  | cgSetbp (en : Bool) (lo hi fs : Word)
  /-- `CG.RDF.LP` (R184). -/
  | cgRdfLp
  /-- `CG.RDF.HP` (R185). -/
  | cgRdfHp
  /-- `CG.RDF.BS` (R186). -/
  | cgRdfBs
  /-- `CG.RDF.BP` (R187). -/
  | cgRdfBp
  /-- `FB.PROC` (R201). -/
  | fbProc (x : Word)
  /-- `FB.RST` (R202). -/
  | fbRst
  /-- `FB.ACTIVE` (R203). -/
  | fbActive
  /-- `SW.MMASK` (R232). -/
  | swMmask (fs n : Word) (m : List Word)
  /-- `SW.CMASK` (R233). -/
  | swCmask (nfft fs : Word)
  deriving DecidableEq, Repr

end Sys2Proof
end

