-- ==== Sys2Proof/WellFormed.lean ====
section
/-! DEFINITION. Which terms of `Instr` are commands of the stream: a vector operand has as many words as its
count operand says (R82, R84). Every other operand is legal at every value (R83). -/

namespace Sys2Proof

/-- `v` has the `n` words that a `HUV` or `HFUV` command carries (R82). -/
def countMatches (n : Word) (v : List Word) : Bool := v.length == n.toNat

/-- The command is one that a command stream can carry. -/
def Instr.wf : Instr → Bool
  | .saLoad n v => countMatches n v
  | .swMmask _ n m => countMatches n m
  | .saPush _ | .saInv | .saRst | .saRdmag | .saRdcx
  | .cgSetlp _ _ _ | .cgSethp _ _ _ | .cgSetbs _ _ _ _ | .cgSetbp _ _ _ _
  | .cgRdfLp | .cgRdfHp | .cgRdfBs | .cgRdfBp
  | .fbProc _ | .fbRst | .fbActive | .swCmask _ _ => true

end Sys2Proof
end

