-- ==== Sys2Proof/Decode.lean ====
section
/-! DEFINITION. The command encoding (R80 to R88): the opcode map, the header test, the decoder, then the
encoder, and the reading of a word of the opcode table. -/

namespace Sys2Proof

/-- The 19 opcodes of R85. -/
inductive Opcode where
  | saPush | saLoad | saInv | saRst | saRdmag | saRdcx
  | cgSetlp | cgSethp | cgSetbs | cgSetbp
  | cgRdfLp | cgRdfHp | cgRdfBs | cgRdfBp
  | fbProc | fbRst | fbActive | swMmask | swCmask
  deriving DecidableEq, Repr

/-- The formats of R82. -/
inductive Format where
  | h | hf | hff | hfff | huv | hfuv | huf
  deriving DecidableEq, Repr

/-- The rows of R85, in the table's order. -/
def Opcode.all : List Opcode :=
  [.saPush, .saLoad, .saInv, .saRst, .saRdmag, .saRdcx,
   .cgSetlp, .cgSethp, .cgSetbs, .cgSetbp, .cgRdfLp, .cgRdfHp, .cgRdfBs, .cgRdfBp,
   .fbProc, .fbRst, .fbActive, .swMmask, .swCmask]

/-- The column `OPC` of R85. -/
def Opcode.byte : Opcode → BitVec 8
  | .saPush => 0x10#8
  | .saLoad => 0x11#8
  | .saInv => 0x12#8
  | .saRst => 0x13#8
  | .saRdmag => 0x14#8
  | .saRdcx => 0x15#8
  | .cgSetlp => 0x20#8
  | .cgSethp => 0x21#8
  | .cgSetbs => 0x22#8
  | .cgSetbp => 0x23#8
  | .cgRdfLp => 0x28#8
  | .cgRdfHp => 0x29#8
  | .cgRdfBs => 0x2A#8
  | .cgRdfBp => 0x2B#8
  | .fbProc => 0x30#8
  | .fbRst => 0x31#8
  | .fbActive => 0x32#8
  | .swMmask => 0x40#8
  | .swCmask => 0x41#8

/-- The column `format` of R85. -/
def Opcode.format : Opcode → Format
  | .saPush | .fbProc => .hf
  | .saLoad => .huv
  | .saInv | .saRst | .saRdmag | .saRdcx => .h
  | .cgSetlp | .cgSethp => .hff
  | .cgSetbs | .cgSetbp => .hfff
  | .cgRdfLp | .cgRdfHp | .cgRdfBs | .cgRdfBp => .h
  | .fbRst | .fbActive => .h
  | .swMmask => .hfuv
  | .swCmask => .huf

/-- The four setters: the only commands whose header's `EN` bit is an operand (R81, R87). -/
def Opcode.isSetter : Opcode → Bool
  | .cgSetlp | .cgSethp | .cgSetbs | .cgSetbp => true
  | .saPush | .saLoad | .saInv | .saRst | .saRdmag | .saRdcx
  | .cgRdfLp | .cgRdfHp | .cgRdfBs | .cgRdfBp
  | .fbProc | .fbRst | .fbActive | .swMmask | .swCmask => false

/-- The column `mask` of R85: bit 8 (`EN`) is free in a setter and fixed in every other command. -/
def Opcode.mask (o : Opcode) : Word := if o.isSetter then 0xFFFFFEFF#32 else 0xFFFFFFFF#32

/-- The column `match` of R85. -/
def Opcode.pattern (o : Opcode) : Word := o.byte.setWidth 32

/-- The field `OPC`, bits 7:0 (R81). -/
def headerOpc (h : Word) : BitVec 8 := h.extractLsb' 0 8

/-- The field `EN`, bit 8 (R81). -/
def headerEn (h : Word) : Bool := h.getLsbD 8

/-- The field `RSV`, bits 31:9 (R81). -/
def headerRsv (h : Word) : BitVec 23 := h.extractLsb' 9 23

/-- The command whose opcode is the byte `b`, if there is one (R85). -/
def Opcode.ofByte (b : BitVec 8) : Option Opcode := Opcode.all.find? fun o => o.byte == b

/-- The two causes of the decode fault (R251). -/
inductive DecodeFault where
  /-- `ILLEGAL_OPCODE`: `OPC` is none of the 19 opcodes. -/
  | illegalOpcode
  /-- `RESERVED_BITS`: `RSV` is not zero, or `EN` is 1 outside the four setters. -/
  | reservedBits
  deriving DecidableEq, Repr

/-- The value of `FCODE` for a cause (R251). -/
def DecodeFault.code : DecodeFault → BitVec 2
  | .illegalOpcode => 1#2
  | .reservedBits => 2#2

/-- What a header word is. -/
inductive Header where
  | legal (o : Opcode)
  | illegal (c : DecodeFault)
  deriving DecidableEq, Repr

/-- The tests of R86, in the order of R86 and R254. -/
def headerTest (h : Word) : Header :=
  match Opcode.ofByte (headerOpc h) with
  | none => .illegal .illegalOpcode
  | some o =>
    if headerRsv h ≠ 0#23 then .illegal .reservedBits
    else if headerEn h && !o.isSetter then .illegal .reservedBits
    else .legal o

/-- What the front of a command stream is (R88). -/
inductive Decoded where
  /-- A whole command, and the words after it. -/
  | command (i : Instr) (rest : List Word)
  /-- A header word that is no command: the decode fault, with its cause and the word. -/
  | illegal (c : DecodeFault) (h : Word)
  /-- The stream ends inside a command: not an error, the block waits. -/
  | incomplete
  deriving DecidableEq, Repr

/-- `n` vector words from the front of the stream (R84). -/
def takeVector (n : Word) (ws : List Word) : Option (List Word × List Word) :=
  if ws.length < n.toNat then none else some (ws.take n.toNat, ws.drop n.toNat)

/-- The operand words of the command `o` whose header has the `EN` bit `en` (R88, the `case`). -/
def decodeOperands (o : Opcode) (en : Bool) (ws : List Word) : Decoded :=
  match o with
  | .saPush => match ws with
    | x :: r => .command (.saPush x) r
    | [] => .incomplete
  | .saLoad => match ws with
    | n :: r => match takeVector n r with
      | some (v, r') => .command (.saLoad n v) r'
      | none => .incomplete
    | [] => .incomplete
  | .saInv => .command .saInv ws
  | .saRst => .command .saRst ws
  | .saRdmag => .command .saRdmag ws
  | .saRdcx => .command .saRdcx ws
  | .cgSetlp => match ws with
    | a :: fs :: r => .command (.cgSetlp en a fs) r
    | _ => .incomplete
  | .cgSethp => match ws with
    | a :: fs :: r => .command (.cgSethp en a fs) r
    | _ => .incomplete
  | .cgSetbs => match ws with
    | a :: b :: fs :: r => .command (.cgSetbs en a b fs) r
    | _ => .incomplete
  | .cgSetbp => match ws with
    | a :: b :: fs :: r => .command (.cgSetbp en a b fs) r
    | _ => .incomplete
  | .cgRdfLp => .command .cgRdfLp ws
  | .cgRdfHp => .command .cgRdfHp ws
  | .cgRdfBs => .command .cgRdfBs ws
  | .cgRdfBp => .command .cgRdfBp ws
  | .fbProc => match ws with
    | x :: r => .command (.fbProc x) r
    | [] => .incomplete
  | .fbRst => .command .fbRst ws
  | .fbActive => .command .fbActive ws
  | .swMmask => match ws with
    | fs :: n :: r => match takeVector n r with
      | some (m, r') => .command (.swMmask fs n m) r'
      | none => .incomplete
    | _ => .incomplete
  | .swCmask => match ws with
    | nfft :: fs :: r => .command (.swCmask nfft fs) r
    | _ => .incomplete

/-- The decoder of R88: total on every stream. -/
def decode : List Word → Decoded
  | [] => .incomplete
  | h :: ws =>
    match headerTest h with
    | .illegal c => .illegal c h
    | .legal o => decodeOperands o (headerEn h) ws

/-! ### The encoder -/

/-- The opcode of a command (R85). -/
def Instr.opcode : Instr → Opcode
  | .saPush _ => .saPush
  | .saLoad _ _ => .saLoad
  | .saInv => .saInv
  | .saRst => .saRst
  | .saRdmag => .saRdmag
  | .saRdcx => .saRdcx
  | .cgSetlp _ _ _ => .cgSetlp
  | .cgSethp _ _ _ => .cgSethp
  | .cgSetbs _ _ _ _ => .cgSetbs
  | .cgSetbp _ _ _ _ => .cgSetbp
  | .cgRdfLp => .cgRdfLp
  | .cgRdfHp => .cgRdfHp
  | .cgRdfBs => .cgRdfBs
  | .cgRdfBp => .cgRdfBp
  | .fbProc _ => .fbProc
  | .fbRst => .fbRst
  | .fbActive => .fbActive
  | .swMmask _ _ _ => .swMmask
  | .swCmask _ _ => .swCmask

/-- The header bit `EN` of a command: the `enabled` argument of a setter, 0 elsewhere (R81). -/
def Instr.en : Instr → Bool
  | .cgSetlp en _ _ | .cgSethp en _ _ => en
  | .cgSetbs en _ _ _ | .cgSetbp en _ _ _ => en
  | .saPush _ | .saLoad _ _ | .saInv | .saRst | .saRdmag | .saRdcx
  | .cgRdfLp | .cgRdfHp | .cgRdfBs | .cgRdfBp
  | .fbProc _ | .fbRst | .fbActive | .swMmask _ _ _ | .swCmask _ _ => false

/-- A header word from its fields: `RSV = 0`, `EN`, `OPC` (R81). -/
def headerWord (o : Opcode) (en : Bool) : Word := 0#23 ++ BitVec.ofBool en ++ o.byte

/-- The operand words of a command, in the order of its format (R82). -/
def Instr.operands : Instr → List Word
  | .saPush x => [x]
  | .saLoad n v => n :: v
  | .cgSetlp _ cut fs | .cgSethp _ cut fs => [cut, fs]
  | .cgSetbs _ lo hi fs | .cgSetbp _ lo hi fs => [lo, hi, fs]
  | .fbProc x => [x]
  | .swMmask fs n m => fs :: n :: m
  | .swCmask nfft fs => [nfft, fs]
  | .saInv | .saRst | .saRdmag | .saRdcx
  | .cgRdfLp | .cgRdfHp | .cgRdfBs | .cgRdfBp | .fbRst | .fbActive => []

/-- The words of a command: header, then operands (R80). -/
def encode (i : Instr) : List Word := headerWord i.opcode i.en :: i.operands

/-! ### Words of the opcode table -/

/-- The words of an instruction whose bits, numbered from the first word's bit 0, are `w`: `nbits` of them,
then zero operand words up to four words, the longest command with zero operands (`HFFF`). -/
def tableWords (nbits w : Nat) : List Word :=
  (List.range (max 4 ((nbits + 31) / 32))).map fun k => BitVec.ofNat 32 (w % 2 ^ nbits / 2 ^ (32 * k))

/-- The instruction that the decoder reads from a word of the opcode table. -/
def decodeTableWord (nbits w : Nat) : Option Instr :=
  match decode (tableWords nbits w) with
  | .command i _ => some i
  | .illegal _ _ => none
  | .incomplete => none

/-- The words of the table's instruction and no more: those the decoder takes, or the header alone where it
refuses it. -/
def tableCommand (nbits w : Nat) : List Word :=
  let ws := tableWords nbits w
  match decode ws with
  | .command _ rest => ws.take (ws.length - rest.length)
  | .illegal _ h => [h]
  | .incomplete => ws

end Sys2Proof
end

