-- ==== Sys2Proof/Machine/State.lean ====
section
/-! DEFINITION. The state of the block (R20, R44), the reasons a step can stop, and the state after hardware
reset (R45). -/

namespace Sys2Proof.Machine

/-- One filter: its descriptor (R25), the flag `HASC` (R31), its taps (R26) and its delay line (R27). -/
structure Filter where
  /-- `EN[t]`: 1 enabled (R30). -/
  en : Bool
  /-- `HASC[t]`: 1 when coefficients have been generated since reset (R31). -/
  hasc : Bool
  /-- `CUTA[t]`, Hz: the cutoff, or the low edge (R25). -/
  cutA : Word
  /-- `CUTB[t]`, Hz: the high edge; never written for LP and HP (R25). -/
  cutB : Word
  /-- `FS[t]`, Hz: stored for read-back only (R25). -/
  fs : Word
  /-- `COEF[t][0..L-1]` (R26). -/
  coef : List Word
  /-- `DLY[t][0..L-1]`, newest input first (R27). -/
  dly : List Word
  deriving DecidableEq, Repr

/-- The four filters (R11, R25). -/
structure Bank where
  lp : Filter
  hp : Filter
  bs : Filter
  bp : Filter
  deriving DecidableEq, Repr

/-- Everything the block holds (R20, R44), the inputs a step reads, the build, and the counters that name
the free draws. -/
structure State where
  /-- The build parameters (R5, R6): constants, carried (log 1). -/
  build : Build
  /-- `WBUF[0..W-1]` (R21). -/
  wbuf : List Word
  /-- `CNT` (R22). -/
  cnt : Nat
  /-- `CBUF[0..NB-1]` (R23). -/
  cbuf : List Cplx
  /-- `MAG[0..NB-1]` (R24). -/
  mag : List Word
  /-- The filters: `EN`, `HASC`, `CUTA`, `CUTB`, `FS`, `COEF`, `DLY` of each type (R25 to R31). -/
  bank : Bank
  /-- `FAULT` (R32). -/
  fault : Bool
  /-- `FCODE` (R32). -/
  fcode : BitVec 2
  /-- `FWORD` (R32). -/
  fword : Word
  /-- The command assembly state: the words taken of a command whose later words are still to come (R44). -/
  asm : List Word
  /-- The response stream not yet taken by the host, oldest word first (R44, R63). -/
  rsp : List Word
  /-- INPUT: the words the host is offering on the command port, next word first (R60, R61). -/
  cmdIn : List Word
  /-- INPUT: the level of the pin `rst` (R60, R280). -/
  rst : Bool
  /-- MODEL'S OWN: how many frames have been computed; names the NaN draws of `Frame` (R112, log 3). -/
  saDraw : Nat
  /-- MODEL'S OWN: how many stages have run; names the NaN draws of `Stage` (R112, log 3). -/
  fbDraw : Nat
  deriving DecidableEq, Repr

/-- Why the block takes no step. -/
inductive Fault where
  /-- Raised by `step` when `FAULT = 1` and `rst = 0`: the block is fail-stop, "given a state with
  FAULT = 1 there is no step" (R252, R265, V11). Safe: the spec gives no step. -/
  | failStop
  /-- Raised by `step` when the host offers no word, also inside a command: "the block waits", a stuck
  state and no error (R265, V12, log 8). Safe: the block holds its state (R264). -/
  | awaitingWord
  deriving DecidableEq, Repr

/-- Why the model gives no meaning. -/
inductive Refusal where
  /-- Raised by `exec` for an instruction without a meaning yet. Safe. -/
  | notModelled (mnemonic : String)
  /-- Raised by `step` for build parameters outside R5: "no model instance" (V13, log 13). Safe. -/
  | buildOutsideSpec
  deriving DecidableEq, Repr

/-- A filter after hardware reset (R45). -/
def Filter.reset (l : Nat) : Filter :=
  { en := false, hasc := false, cutA := posZero, cutB := posZero, fs := posZero,
    coef := List.replicate l posZero, dly := List.replicate l posZero }

/-- The filters after hardware reset (R45). -/
def Bank.reset (l : Nat) : Bank := ⟨Filter.reset l, Filter.reset l, Filter.reset l, Filter.reset l⟩

/-- A block of the build `b` right after hardware reset (R45, R281), with nothing offered by the host. -/
def State.resetOf (b : Build) : State :=
  { build := b
    wbuf := List.replicate b.w posZero
    cnt := 0
    cbuf := List.replicate b.nb Cplx.zero
    mag := List.replicate b.nb posZero
    bank := Bank.reset b.l
    fault := false
    fcode := 0#2
    fword := 0x00000000#32
    asm := []
    rsp := []
    cmdIn := []
    rst := false
    saDraw := 0
    fbDraw := 0 }

/-- The machine right after reset: the default build (R5, R45). -/
def State.reset : State := State.resetOf Build.default

end Sys2Proof.Machine
end

