-- ==== Sys2Proof/Machine/Ops.lean ====
section
/-! DEFINITION. The named operations over the state: reading and writing filters, answering, taking the
decode fault and leaving it by reset, and what the host does at the ports. -/

namespace Sys2Proof

/-- BS and BP have two edges (R25). -/
def FilterType.isBand : FilterType → Bool
  | .lp => false
  | .hp => false
  | .bs => true
  | .bp => true

/-- The filter type codes of R11; `OPC[1:0]` in unit CG (R81). -/
def FilterType.code : FilterType → Nat
  | .lp => 0
  | .hp => 1
  | .bs => 2
  | .bp => 3

end Sys2Proof

namespace Sys2Proof.Machine

/-! ### Filters -/

/-- The filter of a type. -/
def Bank.get (b : Bank) : FilterType → Filter
  | .lp => b.lp
  | .hp => b.hp
  | .bs => b.bs
  | .bp => b.bp

/-- Replaces the filter of a type, and no other (R29). -/
def Bank.set (b : Bank) (t : FilterType) (f : Filter) : Bank :=
  match t with
  | .lp => { b with lp := f }
  | .hp => { b with hp := f }
  | .bs => { b with bs := f }
  | .bp => { b with bp := f }

/-- The filter of a type. -/
def State.filter (s : State) (t : FilterType) : Filter := s.bank.get t

/-- Replaces the filter of a type. -/
def State.putFilter (s : State) (t : FilterType) (f : Filter) : State := { s with bank := s.bank.set t f }

/-- The delay line of every filter at `+0.0` (R202). -/
def Filter.clearDly (l : Nat) (f : Filter) : Filter := { f with dly := List.replicate l posZero }

/-! ### The window and the counters -/

/-- Replaces the window buffer (R21). -/
def State.withWindow (s : State) (x : List Word) : State := { s with wbuf := x }

/-- Replaces the counter (R22). -/
def State.withCnt (s : State) (n : Nat) : State := { s with cnt := n }

/-- One more stage has run: the next one's NaN draws have other names (log 3). -/
def State.countStage (s : State) : State := { s with fbDraw := s.fbDraw + 1 }

/-! ### Answering -/

/-- `Rsp` of each word in turn: appends to the response stream (R10, R63). -/
def State.respond (s : State) (ws : List Word) : State := { s with rsp := s.rsp ++ ws }

/-! ### The decode fault and the way out of it -/

/-- Fault entry (R252): the fault state is written, the word is consumed and starts no command; nothing
else changes. Nothing is saved beyond the word: there is no handler, no vector, no program counter. -/
def State.enterFault (s : State) (c : DecodeFault) (h : Word) : State :=
  { s with fault := true, fcode := c.code, fword := h, asm := [] }

/-- Hardware reset (R280): all state at the values of R45, a partial command and the responses not taken
discarded, the fault state cleared. It is the only return from the fault (R255). The host's side of the
ports, the build and the names of the free draws are not the block's state and stay (log 10). -/
def State.hardReset (s : State) : State :=
  { State.resetOf s.build with
    cmdIn := s.cmdIn, rst := s.rst, saDraw := s.saDraw, fbDraw := s.fbDraw }

/-! ### What the host does at the ports (R14, R60) -/

/-- The host offers more command words, after those it is already offering (R61). -/
def State.offer (s : State) (ws : List Word) : State := { s with cmdIn := s.cmdIn ++ ws }

/-- The host drives the pin `rst` (R60). -/
def State.driveRst (s : State) (level : Bool) : State := { s with rst := level }

/-- The host takes the oldest response word, if there is one (R61). -/
def State.takeRsp (s : State) : State := { s with rsp := s.rsp.tail }

end Sys2Proof.Machine
end

