-- ==== Sys2Proof/Machine/Flags.lean ====
section
/-! DEFINITION. The one-bit results and flags (R30, R31, R34, R121, R140). -/

namespace Sys2Proof.Machine

/-- `zext_32({HASC[t], EN[t]})`: bit 0 is `EN`, bit 1 is `HASC` (R121, R184). -/
def flagsWord (f : Filter) : Word := 0#30 ++ BitVec.ofBool f.hasc ++ BitVec.ofBool f.en

/-- `ACTIVE`: any of the four filters is enabled, whatever `HASC` says (R34, R203). -/
def State.active (s : State) : Bool :=
  (s.filter .lp).en || (s.filter .hp).en || (s.filter .bs).en || (s.filter .bp).en

/-- The push that fills the window, whose `ready` answer is true (R140). -/
def State.fillsWindow (s : State) : Bool := s.cnt == s.build.w - 1

/-- A stage runs: enabled and with coefficients (R200). -/
def Filter.runs (f : Filter) : Bool := f.en && f.hasc

end Sys2Proof.Machine
end

