-- ==== Sys2Proof/Machine/Operands.lean ====
section
/-! DEFINITION. The operand forms (R82, R83) and the words of results (R10, R121). -/

namespace Sys2Proof.Machine

/-- An `F` operand: the binary32 value with that bit pattern, every pattern accepted (R83, R110). -/
abbrev w2f (w : Word) : Word := w

/-- The word of a value of `F`; a NaN keeps its own bits (R110). -/
abbrev f2w (v : Word) : Word := v

/-- A `U` operand: the unsigned integer `w[31:0]` (R83). -/
def u32 (w : Word) : Nat := w.toNat

/-- `b2w`: a Boolean as a word (R10, R121). -/
def b2w (b : Bool) : Word := if b then 0x00000001#32 else 0x00000000#32

/-- Element `i` of a vector operand of `n` words, `+0.0` from `n` on: the padding of `SA.LOAD` (R141). -/
def paddedElement (n : Word) (v : List Word) (i : Nat) : Word :=
  if i < u32 n then w2f (v.getD i posZero) else posZero

/-- The words of a sequence of complex bins: `re` then `im`, lowest index first (R63, R145). -/
def cplxWords : List Cplx → List Word
  | [] => []
  | z :: zs => f2w z.re :: f2w z.im :: cplxWords zs

end Sys2Proof.Machine
end

