-- ==== Sys2Proof/Machine/Analyzer.lean ====
section
/-! DEFINITION. Unit SA, the streaming spectral analyzer (R140 to R146). -/

namespace Sys2Proof.Machine

/-- The magnitude of one bin: two products, one sum, one root, each rounded (R146). -/
def magnitude {F : Type} (A : Arith F) (re im : F) : F := A.sqrt (A.add (A.mul re re) (A.mul im im))

/-- The magnitudes of the bins, each computed at its own place (R146). -/
def magnitudes {F : Type} (A : ArithAt F) (c : List (CplxOf F)) : List F :=
  c.mapIdx fun k z => magnitude (A 0 k) z.re z.im

/-- `Frame()` (R146): the transform of the window and its magnitudes, both written whole. -/
def State.frame (s : State) : State :=
  let c := dft s.build s.wbuf
  { s with cbuf := c, mag := magnitudes (arithAt .sa s.saDraw) c, saDraw := s.saDraw + 1 }

/-- `SA.PUSH` (R140). -/
def execSaPush (x : Word) (s : State) : Host.Outcome State Fault Refusal :=
  let stored := s.withWindow (s.wbuf.set s.cnt (w2f x))
  .next <|
    if s.fillsWindow then (stored.frame.withCnt 0).respond [b2w true]
    else (stored.withCnt (s.cnt + 1)).respond [b2w false]

/-- The window that `SA.LOAD` leaves: `n` vector words, zero-padded to `W` or truncated at `W` (R141). -/
def loadedWindow (w : Nat) (n : Word) (v : List Word) : List Word := (List.range w).map (paddedElement n v)

/-- `SA.LOAD` (R141): `CNT` is not changed, no response. -/
def execSaLoad (n : Word) (v : List Word) (s : State) : Host.Outcome State Fault Refusal :=
  .next (s.withWindow (loadedWindow s.build.w n v)).frame

/-- `SA.INV` (R142): no state is written. -/
def execSaInv (s : State) : Host.Outcome State Fault Refusal :=
  .next (s.respond ((idft s.build s.cbuf).map f2w))

/-- `SA.RST` (R143): `CBUF` is not changed. -/
def execSaRst (s : State) : Host.Outcome State Fault Refusal :=
  .next { s with
    wbuf := List.replicate s.build.w posZero, cnt := 0, mag := List.replicate s.build.nb posZero }

/-- `SA.RDMAG` (R144). -/
def execSaRdmag (s : State) : Host.Outcome State Fault Refusal :=
  .next (s.respond (s.mag.map f2w))

/-- `SA.RDCX` (R145). -/
def execSaRdcx (s : State) : Host.Outcome State Fault Refusal :=
  .next (s.respond (cplxWords s.cbuf))

end Sys2Proof.Machine
end

