-- ==== Sys2Proof/Machine/Cascade.lean ====
section
/-! DEFINITION. Unit FB, the four-stage FIR filter cascade (R200 to R203). -/

namespace Sys2Proof.Machine

/-- The sum of `COEF[i] * DLY[i]` onto `acc`, ascending from index `i`, two roundings per tap, at the places
of `lane` (R200). -/
def firSum {F : Type} (A : ArithAt F) (lane i : Nat) (acc : F) : List F → List F → F
  | c :: cs, d :: ds => firSum A lane (i + 1) ((A lane i).add acc ((A lane i).mul c d)) cs ds
  | _, _ => acc

/-- The shift of a delay line of length `l`: the newest input at index 0, the oldest discarded (R200). -/
def shiftIn (l : Nat) (x : Word) (dly : List Word) : List Word := (x :: dly).take l

/-- The output of a running stage whose delay line has been shifted to `dly`, as computation number `n` of
the unit (R200). -/
def stageOutput (t : FilterType) (n : Nat) (coef dly : List Word) : Word :=
  firSum (arithAt .fb n) t.code 0 posZero coef dly

/-- `Stage(t, x)` (R200): the output sample, and the state it leaves. A stage that does not run returns its
input bit for bit and touches nothing. -/
def State.stage (s : State) (t : FilterType) (x : Word) : Word × State :=
  let f := s.filter t
  if f.runs then
    let dly := shiftIn s.build.l x f.dly
    (stageOutput t s.fbDraw f.coef dly, (s.putFilter t { f with dly := dly }).countStage)
  else (x, s)

/-- The cascade in its fixed order: BP, BS, HP, LP, each stage's output the next one's input (R201). -/
def State.cascade (s : State) (x : Word) : Word × State :=
  let bp := s.stage .bp x
  let bs := bp.2.stage .bs bp.1
  let hp := bs.2.stage .hp bs.1
  hp.2.stage .lp hp.1

/-- `FB.PROC` (R201). -/
def execFbProc (x : Word) (s : State) : Host.Outcome State Fault Refusal :=
  let r := s.cascade (w2f x)
  .next (r.2.respond [f2w r.1])

/-- `FB.RST` (R202): the four delay lines, and nothing else. -/
def execFbRst (s : State) : Host.Outcome State Fault Refusal :=
  let clear := Filter.clearDly s.build.l
  .next { s with bank := ⟨clear s.bank.lp, clear s.bank.hp, clear s.bank.bs, clear s.bank.bp⟩ }

/-- `FB.ACTIVE` (R203). -/
def execFbActive (s : State) : Host.Outcome State Fault Refusal := .next (s.respond [b2w s.active])

end Sys2Proof.Machine
end

