-- ==== Sys2Proof/Machine/CoeffGen.lean ====
section
/-! DEFINITION. Unit CG, the windowed-sinc FIR coefficient generator (R170 to R187). The guard and the
generation are written over `Arith F`; the hardware is their binary32 reading. -/

namespace Sys2Proof

/-- `SINC_EPS` of a build: "any positive binary32" (V5). A word that is none is read as `0x358637BD`, the
value of R6 and R127 (log 2). -/
def Build.sincEps (b : Build) : Word := if Machine.F32.lt posZero b.sincWord then b.sincWord else 0x358637BD#32

/-- `NORM_EPS` of a build: "any non-negative binary32" (V6). A word that is none is read as `+0.0`, the
default of R6 (log 2). -/
def Build.normEps (b : Build) : Word := if Machine.F32.le posZero b.normWord then b.normWord else posZero

end Sys2Proof

namespace Sys2Proof.Machine

/-! ### The guard -/

/-- `Guard(t, a, b, fs)` (R171) over `F`. -/
def guardOf {F : Type} (A : Arith F) (t : FilterType) (a b fs : F) : Bool :=
  A.gt fs A.zero &&
    (let nyq := A.div fs A.two
    if t.isBand then A.gt a A.zero && A.lt a b && A.lt b nyq
    else A.gt a A.zero && A.lt a nyq)

/-- `Guard(t, a, b, fs)` (R171): every comparison is false on a NaN. -/
def guard (t : FilterType) (a b fs : Word) : Bool := guardOf arithNum t (num a) (num b) (num fs)

/-! ### Generation -/

section Generation

variable {F : Type}

/-- `Fc(cut, fs)`: the cutoff normalised by Nyquist (R172). -/
def normCutoff (A : Arith F) (cut fs : F) : F := A.div cut (A.div fs A.two)

/-- `Sinc(x)` (R175). -/
def sinc (A : Arith F) (eps x : F) : F :=
  if A.lt (A.abs x) eps then A.one
  else
    let px := A.mul A.pi x
    A.div (A.sin px) px

/-- `LpTerm(fc, n)` (R173). -/
def lpTerm (A : Arith F) (eps fc : F) (n : Int) : F :=
  let a := A.mul A.two fc
  A.mul a (sinc A eps (A.mul a (A.ofInt n)))

/-- `Ideal(t, n, fa, fb)` (R174); `fb` is used for BS and BP only. -/
def idealTap (A : Arith F) (eps : F) (t : FilterType) (n : Int) (fa fb : F) : F :=
  match t with
  | .lp => if n = 0 then A.mul A.two fa else lpTerm A eps fa n
  | .hp => if n = 0 then A.sub A.one (A.mul A.two fa) else A.neg (lpTerm A eps fa n)
  | .bs =>
    if n = 0 then A.sub A.one (A.mul A.two (A.sub fb fa))
    else A.sub (lpTerm A eps fa n) (lpTerm A eps fb n)
  | .bp =>
    if n = 0 then A.mul A.two (A.sub fb fa)
    else A.sub (lpTerm A eps fb n) (lpTerm A eps fa n)

/-- `Window(i)`, the Blackman window of length `l` (R176). -/
def window (A : Arith F) (l i : Nat) : F :=
  let th := A.div (A.mul (A.mul A.two A.pi) (A.ofNat i)) (A.ofNat (l - 1))
  let c1 := A.cos th
  let c2 := A.cos (A.mul A.two th)
  A.add (A.sub A.k042 (A.mul A.k05 c1)) (A.mul A.k008 c2)

/-- The offset `n = i - C` of tap `i` (R120, R174). -/
def tapOffset (l i : Nat) : Int := (i : Int) - (((l - 1) / 2 : Nat) : Int)

/-- The windowed taps before normalisation (R179), tap `i` at lane 0, place `i`. -/
def rawTaps (A : ArithAt F) (eps : F) (l : Nat) (t : FilterType) (fa fb : F) : List F :=
  (List.range l).map fun i =>
    (A 0 i).mul (idealTap (A 0 i) eps t (tapOffset l i) fa fb) (window (A 0 i) l i)

/-- The sum of `h` onto `acc`, in ascending index order from index `i`, one rounding per step (R177). -/
def tapSum (A : ArithAt F) (i : Nat) (acc : F) : List F → F
  | [] => acc
  | x :: h => tapSum A (i + 1) ((A 1 i).add acc x) h

/-- `Normalise(h)` (R177): the taps are kept where the guard on the sum fails. -/
def normalise (A : ArithAt F) (normEps : F) (h : List F) : List F :=
  let sum := tapSum A 0 (A 1 0).zero h
  if (A 1 0).lt normEps ((A 1 0).abs sum) then h.mapIdx fun i x => (A 2 i).div x sum else h

/-- `Gen(t, a, b, fs)` for `l` taps (R179): a function of its arguments alone. -/
def gen (A : ArithAt F) (eps normEps : F) (l : Nat) (t : FilterType) (a b fs : F) : List F :=
  let fa := normCutoff (A 3 0) a fs
  let fb := normCutoff (A 3 1) b fs
  normalise A normEps (rawTaps A eps l t fa fb)

end Generation

/-- `Gen` of a build, in binary32. The draws of its NaN results are not counted: "not on the previous
coefficients ... not on any other filter", the result depends on the operands and the build alone
(R179, log 4). -/
def coefficients (b : Build) (t : FilterType) (a bb fs : Word) : List Word :=
  gen (arithAt .cg 0) b.sincEps b.normEps b.l t a bb fs

/-! ### The setters -/

/-- `Commit(t, h)` on the filter (R178). -/
def Filter.commit (l : Nat) (h : List Word) (f : Filter) : Filter :=
  { f with coef := h, dly := List.replicate l posZero, hasc := true }

/-- The descriptor written from the operands, bit for bit, valid or not (R170). -/
def Filter.describe (t : FilterType) (en : Bool) (a b fs : Word) (f : Filter) : Filter :=
  { f with en := en, cutA := w2f a, cutB := if t.isBand then w2f b else f.cutB, fs := w2f fs }

/-- The setter generates: it enables and its operands pass the guard (R170). -/
def generates (t : FilterType) (en : Bool) (a b fs : Word) : Bool := en && guard t a b fs

/-- `Set(t, en, a, b, fs)` (R170). For LP and HP, which have no operand `b`, it is `+0.0` and not used
(log 17). -/
def State.setFilter (s : State) (t : FilterType) (en : Bool) (a b fs : Word) : State :=
  let described := (s.filter t).describe t en a b fs
  s.putFilter t <|
    if generates t en a b fs then described.commit s.build.l (coefficients s.build t a b fs) else described

/-- `CG.SETLP` (R180). -/
def execCgSetlp (en : Bool) (cut fs : Word) (s : State) : Host.Outcome State Fault Refusal :=
  .next (s.setFilter .lp en cut posZero fs)

/-- `CG.SETHP` (R181). -/
def execCgSethp (en : Bool) (cut fs : Word) (s : State) : Host.Outcome State Fault Refusal :=
  .next (s.setFilter .hp en cut posZero fs)

/-- `CG.SETBS` (R182). -/
def execCgSetbs (en : Bool) (lo hi fs : Word) (s : State) : Host.Outcome State Fault Refusal :=
  .next (s.setFilter .bs en lo hi fs)

/-- `CG.SETBP` (R183). -/
def execCgSetbp (en : Bool) (lo hi fs : Word) (s : State) : Host.Outcome State Fault Refusal :=
  .next (s.setFilter .bp en lo hi fs)

/-! ### Read-back -/

/-- The response of a read-back: flags, `CUTA`, `CUTB`, `FS`, and the taps if there are any (R184). -/
def Filter.readBack (f : Filter) : List Word :=
  [flagsWord f, f2w f.cutA, f2w f.cutB, f2w f.fs] ++ if f.hasc then f.coef.map f2w else []

/-- `CG.RDF.LP` (R184). -/
def execCgRdfLp (s : State) : Host.Outcome State Fault Refusal := .next (s.respond (s.filter .lp).readBack)

/-- `CG.RDF.HP` (R185). -/
def execCgRdfHp (s : State) : Host.Outcome State Fault Refusal := .next (s.respond (s.filter .hp).readBack)

/-- `CG.RDF.BS` (R186). -/
def execCgRdfBs (s : State) : Host.Outcome State Fault Refusal := .next (s.respond (s.filter .bs).readBack)

/-- `CG.RDF.BP` (R187). -/
def execCgRdfBp (s : State) : Host.Outcome State Fault Refusal := .next (s.respond (s.filter .bp).readBack)

end Sys2Proof.Machine
end

