-- ==== Sys2Proof/Machine/SpectralWindow.lean ====
section
/-! DEFINITION. Unit SW, the spectral window: the bin mask (R230 to R233). The bin frequency and the zeroing
predicate are written over `Arith F`; the hardware is their binary32 reading. -/

namespace Sys2Proof.Machine

section Predicate

variable {F : Type}

/-- `BinFreq(k, fs, nfft)` (R230) over `F`. -/
def binFreqOf (A : Arith F) (k : Nat) (fs : F) (nfft : Nat) : F := A.div (A.mul (A.ofNat k) fs) (A.ofNat nfft)

/-- The condition of R231 on a frequency `f`, over `F`: it is outside the band-pass range, inside the
band-stop range, below the high-pass cutoff or above the low-pass cutoff of an enabled filter. -/
def zeroesOf (A : Arith F) (en : FilterType → Bool) (cutA cutB : FilterType → F) (f : F) : Bool :=
  (en .bp && (A.lt f (cutA .bp) || A.gt f (cutB .bp))) ||
  (en .bs && (A.ge f (cutA .bs) && A.le f (cutB .bs))) ||
  (en .hp && A.lt f (cutA .hp)) ||
  (en .lp && A.gt f (cutA .lp))

end Predicate

/-- `BinFreq(k, fs, nfft)` (R230), `none` where it is a NaN: which NaN cannot be seen, since every
comparison with it is false (R113). -/
def binFreq (k : Nat) (fs : Word) (nfft : Nat) : Option Word := binFreqOf arithNum k (num fs) nfft

/-- The condition of R231 on a frequency, with the stored cutoffs as they are, valid or not. -/
def Bank.zeroesFreq (b : Bank) (f : Option Word) : Bool :=
  zeroesOf arithNum (fun t => (b.get t).en) (fun t => num (b.get t).cutA) (fun t => num (b.get t).cutB) f

/-- `Zero(k, fs, nfft)` (R231): a NaN frequency or a NaN cutoff zeroes nothing. -/
def State.zeroBin (s : State) (k : Nat) (fs : Word) (nfft : Nat) : Bool := s.bank.zeroesFreq (binFreq k fs nfft)

/-- The masked magnitudes (R232): a zeroed bin is `+0.0`, a kept one unchanged bit for bit. The transform
length is the build's `W`. -/
def State.maskedMags (s : State) (fs : Word) (m : List Word) : List Word :=
  m.mapIdx fun k x => if s.zeroBin k fs s.build.w then posZero else f2w x

/-- The masked complex buffer (R233). -/
def State.maskedBins (s : State) (nfft : Nat) (fs : Word) : List Cplx :=
  s.cbuf.mapIdx fun k z => if s.zeroBin k fs nfft then Cplx.zero else z

/-- `SW.MMASK` (R232): the `n` words of the vector; no state is written. -/
def execSwMmask (fs n : Word) (m : List Word) (s : State) : Host.Outcome State Fault Refusal :=
  .next (s.respond (s.maskedMags (w2f fs) (m.take (u32 n))))

/-- `SW.CMASK` (R233): selected elements of `CBUF`, and nothing else. -/
def execSwCmask (nfft fs : Word) (s : State) : Host.Outcome State Fault Refusal :=
  .next { s with cbuf := s.maskedBins (u32 nfft) (w2f fs) }

end Sys2Proof.Machine
end

