-- ==== Sys2Proof/Machine/Dispatch.lean ====
section
/-! DEFINITION. One arm per command. -/

namespace Sys2Proof.Machine

def exec (i : Instr) (s : State) : Host.Outcome State Fault Refusal :=
  match i with
  | .saPush x => Sys2Proof.Machine.execSaPush x s
  | .saLoad n v => Sys2Proof.Machine.execSaLoad n v s
  | .saInv => Sys2Proof.Machine.execSaInv s
  | .saRst => Sys2Proof.Machine.execSaRst s
  | .saRdmag => Sys2Proof.Machine.execSaRdmag s
  | .saRdcx => Sys2Proof.Machine.execSaRdcx s
  | .cgSetlp en cut fs => Sys2Proof.Machine.execCgSetlp en cut fs s
  | .cgSethp en cut fs => Sys2Proof.Machine.execCgSethp en cut fs s
  | .cgSetbs en lo hi fs => Sys2Proof.Machine.execCgSetbs en lo hi fs s
  | .cgSetbp en lo hi fs => Sys2Proof.Machine.execCgSetbp en lo hi fs s
  | .cgRdfLp => Sys2Proof.Machine.execCgRdfLp s
  | .cgRdfHp => Sys2Proof.Machine.execCgRdfHp s
  | .cgRdfBs => Sys2Proof.Machine.execCgRdfBs s
  | .cgRdfBp => Sys2Proof.Machine.execCgRdfBp s
  | .fbProc x => Sys2Proof.Machine.execFbProc x s
  | .fbRst => Sys2Proof.Machine.execFbRst s
  | .fbActive => Sys2Proof.Machine.execFbActive s
  | .swMmask fs n m => Sys2Proof.Machine.execSwMmask fs n m s
  | .swCmask nfft fs => Sys2Proof.Machine.execSwCmask nfft fs s

end Sys2Proof.Machine
end

