-- ==== Sys2Proof/Machine/Fetch.lean ====
section
/-! DEFINITION. What the block does next: which event of R265 a step is, and how the words of a command come
together (R62, R88). -/

namespace Sys2Proof.Machine

/-- What a step is (R265). -/
inductive Turn where
  /-- A command is complete: run it in the state without its words. -/
  | run (i : Instr) (s : State)
  /-- An event other than a command: reset, the decode fault, a word of an unfinished command. -/
  | go (s : State)
  /-- There is no step. -/
  | stop (r : Fault)
  /-- There is no model of this build. -/
  | refuse (r : Refusal)
  deriving DecidableEq, Repr

/-- A command word `w` is transferred. A header that is no command faults when it is transferred, before
any operand word (R88, R251); a command is performed when its last word has been transferred, never
before (R62); until then its words wait in the assembly state (R44). -/
def fetch (w : Word) (s : State) : Turn :=
  match decode (s.asm ++ [w]) with
  | .command i rest => .run i { s with asm := rest }
  | .illegal c h => .go (s.enterFault c h)
  | .incomplete => .go { s with asm := s.asm ++ [w] }

/-- What the block does next. Reset overrides everything (R254, R280); in fail-stop no word is accepted
(R252); with no word offered the block waits (R265). -/
def State.turn (s : State) : Turn :=
  if !s.build.ok then .refuse .buildOutsideSpec
  else if s.rst then .go s.hardReset
  else if s.fault then .stop .failStop
  else
    match s.cmdIn with
    | [] => .stop .awaitingWord
    | w :: ws => fetch w { s with cmdIn := ws }

/-- The state in which the next step takes the last word of `ws`, all the earlier ones taken before it, and
nothing stands in its way: no reset, no fault. -/
def State.withCommand (s : State) (ws : List Word) : State :=
  { s with
    asm := ws.dropLast, cmdIn := ws.getLast?.toList, rst := false
    fault := false, fcode := 0#2, fword := 0x00000000#32 }

end Sys2Proof.Machine
end

