-- ==== Sys2Proof/Machine/Step.lean ====
section
/-! DEFINITION. One step: one event of R265, so one command word, one reset, or none. -/

namespace Sys2Proof.Machine

/-- The outcome of a turn. -/
def Turn.outcome : Turn → Host.Outcome State Fault Refusal
  | .run i s => exec i s
  | .go s => .next s
  | .stop r => .fault r
  | .refuse r => .refused r

/-- The block takes the command word `w` (R62). -/
def accept (w : Word) (s : State) : Host.Outcome State Fault Refusal := (fetch w s).outcome

/-- One step of the block. -/
def step (s : State) : Host.Outcome State Fault Refusal := s.turn.outcome

/-- `s` about to take the last word of the opcode table's instruction (log 15). -/
def State.withFetchWord (s : State) (nbits w : Nat) : State := s.withCommand (tableCommand nbits w)

end Sys2Proof.Machine
end

