-- ==== Sys2Proof/Machine/Asm.lean ====
section
/-! DEFINITION. The assembler text of a command (R89) and the pseudo-commands (R90). -/

namespace Sys2Proof.Machine

/-- A hexadecimal digit. -/
def hexDigit (n : Nat) : Char :=
  ['0', '1', '2', '3', '4', '5', '6', '7', '8', '9', 'A', 'B', 'C', 'D', 'E', 'F'].getD n '0'

/-- A float operand as a `0x`-prefixed word (R89). -/
def hexText (w : Word) : List Char :=
  '0' :: 'x' :: ([7, 6, 5, 4, 3, 2, 1, 0].map fun k => hexDigit (w.toNat / 16 ^ k % 16))

/-- A `u32` operand in decimal (R89). -/
def decText (w : Word) : List Char := Nat.toDigits 10 w.toNat

/-- The lower-case mnemonic (R89). -/
def mnemonicText : Opcode → String
  | .saPush => "sa.push"
  | .saLoad => "sa.load"
  | .saInv => "sa.inv"
  | .saRst => "sa.rst"
  | .saRdmag => "sa.rdmag"
  | .saRdcx => "sa.rdcx"
  | .cgSetlp => "cg.setlp"
  | .cgSethp => "cg.sethp"
  | .cgSetbs => "cg.setbs"
  | .cgSetbp => "cg.setbp"
  | .cgRdfLp => "cg.rdf.lp"
  | .cgRdfHp => "cg.rdf.hp"
  | .cgRdfBs => "cg.rdf.bs"
  | .cgRdfBp => "cg.rdf.bp"
  | .fbProc => "fb.proc"
  | .fbRst => "fb.rst"
  | .fbActive => "fb.active"
  | .swMmask => "sw.mmask"
  | .swCmask => "sw.cmask"

/-- The `EN` operand (R89). -/
def enText (en : Bool) : List Char := "en=".toList ++ [if en then '1' else '0']

/-- The operands as text, in the order of their words, the `EN` bit first (R89). -/
def operandTexts : Instr → List (List Char)
  | .saPush x => [hexText x]
  | .saLoad n v => decText n :: v.map hexText
  | .cgSetlp en cut fs | .cgSethp en cut fs => [enText en, hexText cut, hexText fs]
  | .cgSetbs en lo hi fs | .cgSetbp en lo hi fs => [enText en, hexText lo, hexText hi, hexText fs]
  | .fbProc x => [hexText x]
  | .swMmask fs n m => hexText fs :: decText n :: m.map hexText
  | .swCmask nfft fs => [decText nfft, hexText fs]
  | .saInv | .saRst | .saRdmag | .saRdcx
  | .cgRdfLp | .cgRdfHp | .cgRdfBs | .cgRdfBp | .fbRst | .fbActive => []

/-- A command in the assembler syntax of R89, its float operands as words (log 21). -/
def asmText (i : Instr) : List Char :=
  (mnemonicText i.opcode).toList ++
    match operandTexts i with
    | [] => []
    | ts => ' ' :: List.intercalate [',', ' '] ts

/-- The pseudo-commands (R90). -/
inductive Pseudo where
  /-- `pb.sample <x>`. -/
  | pbSample (x : Word)
  /-- `pb.restart`. -/
  | pbRestart
  /-- `cg.off.<t>`. -/
  | cgOff (t : FilterType)
  deriving DecidableEq, Repr

/-- `cg.set<t> en=0` with every operand `+0.0` (R90). -/
def disableCommand : FilterType → Instr
  | .lp => .cgSetlp false posZero posZero
  | .hp => .cgSethp false posZero posZero
  | .bs => .cgSetbs false posZero posZero posZero
  | .bp => .cgSetbp false posZero posZero posZero

/-- The expansion of a pseudo-command (R90). -/
def Pseudo.expand : Pseudo → List Instr
  | .pbSample x => [.saPush x, .fbProc x]
  | .pbRestart => [.fbRst, .saRst]
  | .cgOff t => [disableCommand t]

end Sys2Proof.Machine
end

