-- ==== Sys2Proof/Machine/Port.lean ====
section
/-! DEFINITION. The boundary: the pins, the handshake and the drained response queue (R60, R61, R75, R280,
R291), and the byte order of a serialised stream (R64). Every edge of `clk` comes with a free `Pace`, so that
fast and slow blocks are runs of one machine and no number of cycles is assumed (R294, log 12). -/

namespace Sys2Proof.Machine

/-- The input pins at one rising edge of `clk` (R60). -/
structure PinsIn where
  rst : Bool
  cmdValid : Bool
  cmdData : Word
  rspReady : Bool
  deriving DecidableEq, Repr

/-- The output pins (R60). -/
structure PinsOut where
  cmdReady : Bool
  rspValid : Bool
  rspData : Word
  fault : Bool
  faultCode : BitVec 2
  faultWord : Word
  deriving DecidableEq, Repr

/-- What the block's own timing decides at one edge (R294, V8): FREE VALUES, one record for every edge. -/
structure Pace where
  /-- The block is willing to take a command word. -/
  take : Bool
  /-- At most how many response words enter the queue at this edge. -/
  move : Nat
  /-- What `rsp_data` shows while `rsp_valid = 0`: the spec does not say (log 26). -/
  idle : Word
  deriving DecidableEq, Repr

/-- The block behind its pins. -/
structure PortState where
  /-- The block. Its `rsp` holds the words of performed commands that have not entered the queue. -/
  core : State
  /-- The response queue of `RSPQ` words (R7, R44, R291), oldest word first. -/
  queue : List Word
  /-- How many words of an `SW.MMASK` not yet complete have entered the queue (R75). -/
  sent : Nat
  deriving DecidableEq, Repr

/-- A block at its pins with the response stream `s.rsp` still to be queued. -/
def PortState.start (s : State) : PortState := ⟨s, [], 0⟩

/-- The rate and the magnitudes taken so far of an `SW.MMASK` whose next word is a magnitude. -/
def State.openMask (s : State) : Option (Word × List Word) :=
  match s.asm with
  | h :: fs :: _ :: m => if headerTest h = .legal .swMmask then some (fs, m) else none
  | _ => none

/-- The response words of the `SW.MMASK` being taken, one for each magnitude so far: word `k` depends on
nothing later (R75). -/
def State.earlyWords (s : State) : List Word :=
  match s.openMask with
  | some (fs, m) => s.maskedMags (w2f fs) m
  | none => []

/-- The response words produced that have not entered the queue. -/
def PortState.pending (p : PortState) : List Word := p.core.rsp ++ p.core.earlyWords.drop p.sent

/-- The block has room for the response to the next word: it takes a magnitude of an `SW.MMASK` only if the
masked word fits into the queue behind those still to come (R75, R291). -/
def PortState.hasRoom (depth : Nat) (p : PortState) : Bool :=
  p.core.openMask.isNone || decide (p.queue.length + p.pending.length < depth)

/-- `cmd_ready`: no word is taken in reset (R280), in fail-stop (R252), while the words of a performed command
wait for room (R291), or of an `SW.MMASK` whose response has no room (R75). -/
def PortState.cmdReady (depth : Nat) (rst : Bool) (pace : Pace) (p : PortState) : Bool :=
  !rst && !p.core.fault && p.core.rsp.isEmpty && p.hasRoom depth && pace.take

/-- What the block drives with `rst` at the given level and `RSPQ = depth` (R60). No response is offered in
reset (R280). With no response offered `rsp_data` is the free `pace.idle`: the spec gives the pin a
meaning only as the response word (log 26). -/
def PortState.pins (depth : Nat) (rst : Bool) (pace : Pace) (p : PortState) : PinsOut where
  cmdReady := p.cmdReady depth rst pace
  rspValid := !rst && !p.queue.isEmpty
  rspData := if rst then pace.idle else p.queue.headD pace.idle
  fault := p.core.fault
  faultCode := p.core.fcode
  faultWord := p.core.fword

/-- A command word is transferred at this edge (R61). -/
def PortState.cmdTransfer (depth : Nat) (i : PinsIn) (pace : Pace) (p : PortState) : Bool :=
  i.cmdValid && (p.pins depth i.rst pace).cmdReady

/-- A response word is transferred at this edge (R61). -/
def PortState.rspTransfer (depth : Nat) (i : PinsIn) (pace : Pace) (p : PortState) : Bool :=
  i.rspReady && (p.pins depth i.rst pace).rspValid

/-- The response transfer of an edge: the oldest word leaves the queue. -/
def PortState.give (given : Bool) (p : PortState) : PortState :=
  if given then { p with queue := p.queue.tail } else p

/-- At most `n` produced words enter the queue, oldest first, as far as there is room. -/
def PortState.fill (depth n : Nat) (p : PortState) : PortState :=
  let entering := p.pending.take (min n (depth - p.queue.length))
  { core := { p.core with rsp := p.core.rsp.drop entering.length }
    queue := p.queue ++ entering
    sent := p.sent + (entering.length - p.core.rsp.length) }

/-- The block takes a command word at its pins. Of an `SW.MMASK` that is complete with it, the words already
in the queue are not produced again. -/
def PortState.accept (w : Word) (p : PortState) : Host.Outcome PortState Fault Refusal :=
  match Machine.accept w p.core with
  | .next t =>
    .next (if t.asm.isEmpty then ⟨{ t with rsp := t.rsp.drop p.sent }, p.queue, 0⟩ else { p with core := t })
  | .fault r => .fault r
  | .refused r => .refused r

/-- The command transfer of an edge. -/
def PortState.takeIf (taken : Bool) (w : Word) (p : PortState) : Host.Outcome PortState Fault Refusal :=
  if taken then p.accept w else .next p

/-- One rising edge of `clk` (R61, R280): a reset, or a response word given, a command word taken and produced
words queued, as the pins and the pace say; the two channels are independent. -/
def PortState.edge (depth : Nat) (i : PinsIn) (pace : Pace) (p : PortState) :
    Host.Outcome PortState Fault Refusal :=
  if i.rst then .next ⟨p.core.hardReset, [], 0⟩
  else
    match (p.give (p.rspTransfer depth i pace)).takeIf (p.cmdTransfer depth i pace) i.cmdData with
    | .next q => .next (q.fill depth pace.move)
    | .fault r => .fault r
    | .refused r => .refused r

/-- A run at the pins since its last reset: the block it began with, its response stream the words still to be
given; the words transferred (R61); and the block now. -/
structure PortTrace where
  start : State
  commands : List Word
  responses : List Word
  now : PortState
  deriving DecidableEq, Repr

/-- Nothing transferred yet. -/
def PortTrace.begin (p : PortState) : PortTrace := ⟨{ p.core with rsp := p.queue ++ p.core.rsp }, [], [], p⟩

/-- One edge recorded. -/
def PortTrace.edge (depth : Nat) (tr : PortTrace) (x : PinsIn × Pace) : PortTrace :=
  match tr.now.edge depth x.1 x.2 with
  | .next p =>
    if x.1.rst then PortTrace.begin p
    else
      { start := tr.start
        commands := tr.commands ++ (if tr.now.cmdTransfer depth x.1 x.2 then [x.1.cmdData] else [])
        responses :=
          tr.responses ++
            (if tr.now.rspTransfer depth x.1 x.2 then [(tr.now.pins depth x.1.rst x.2).rspData] else [])
        now := p }
  | .fault _ => tr
  | .refused _ => tr

/-- A run at the pins from `p`: "the sequence of transferred command words and the sequence of transferred
response words" (R61). -/
def portRun (depth : Nat) (xs : List (PinsIn × Pace)) (p : PortState) : PortTrace :=
  xs.foldl (PortTrace.edge depth) (PortTrace.begin p)

/-- The block takes the words of a list one after the other (R62, R69). -/
def acceptAll : List Word → State → Host.Outcome State Fault Refusal
  | [], s => .next s
  | w :: ws, s =>
    match accept w s with
    | .next t => acceptAll ws t
    | .fault r => .fault r
    | .refused r => .refused r

/-! ### A byte-wide transport (R64) -/

/-- The bytes of a word, least significant first (R64). -/
def wordBytes (w : Word) : List (BitVec 8) :=
  [w.extractLsb' 0 8, w.extractLsb' 8 8, w.extractLsb' 16 8, w.extractLsb' 24 8]

/-- A stream of words as a stream of bytes. -/
def streamBytes (ws : List Word) : List (BitVec 8) := ws.flatMap wordBytes

/-- The words of a stream of bytes; bytes of an unfinished word wait. -/
def bytesStream : List (BitVec 8) → List Word
  | b0 :: b1 :: b2 :: b3 :: bs => (b3 ++ b2 ++ b1 ++ b0) :: bytesStream bs
  | _ => []

end Sys2Proof.Machine
end

