-- ==== Sys2Proof/Safety.lean ====
section
/-! DEFINITION. What claims speak of: the invariant of the block, a block between two commands, and the
performing of a list of commands. -/

namespace Sys2Proof.Machine

/-- A filter's two arrays have length `L` (R28), and while it has no coefficients both are as reset left
them (R26, R27, R45). -/
structure Filter.Inv (l : Nat) (f : Filter) : Prop where
  coef_length : f.coef.length = l
  dly_length : f.dly.length = l
  coef_empty : f.hasc = false → f.coef = List.replicate l posZero
  dly_empty : f.hasc = false → f.dly = List.replicate l posZero

/-- The invariant of the block: the shapes of R20 and R28, `CNT < W` (R22), magnitudes that are NaN or
carry no sign (R24), the two unused edges (R25), the fault registers written only together and only for
a word that is no command (R32, R251, R252), and an assembly state that is part of one command (R44). -/
structure State.Inv (s : State) : Prop where
  build_ok : s.build.ok = true
  wbuf_length : s.wbuf.length = s.build.w
  cnt_lt : s.cnt < s.build.w
  cbuf_length : s.cbuf.length = s.build.nb
  mag_length : s.mag.length = s.build.nb
  mag_unsigned : ∀ m ∈ s.mag, F32.isNaN m = true ∨ F32.sign m = false
  filter_inv : ∀ t, (s.filter t).Inv s.build.l
  cutB_lp : (s.filter .lp).cutB = posZero
  cutB_hp : (s.filter .hp).cutB = posZero
  no_fault : s.fault = false → s.fcode = 0#2 ∧ s.fword = 0x00000000#32
  fault_cause : s.fault = true → s.asm = [] ∧ ∃ c, headerTest s.fword = .illegal c ∧ s.fcode = c.code
  assembling : decode s.asm = .incomplete

/-- The block is between two commands and will take a word: in order, not in reset, not in fail-stop, no
command begun (R62). -/
structure State.Idle (s : State) : Prop where
  build_ok : s.build.ok = true
  rst_low : s.rst = false
  no_fault : s.fault = false
  no_command : s.asm = []

/-- The commands of a list performed one after the other (R69). -/
def performAll : List Instr → State → Host.Outcome State Fault Refusal
  | [], s => .next s
  | i :: is, s =>
    match exec i s with
    | .next t => performAll is t
    | .fault r => .fault r
    | .refused r => .refused r

/-- The setter of a filter type; LP and HP have no operand `b` (R170). -/
def setterOf (t : FilterType) (en : Bool) (a b fs : Word) : Instr :=
  match t with
  | .lp => .cgSetlp en a fs
  | .hp => .cgSethp en a fs
  | .bs => .cgSetbs en a b fs
  | .bp => .cgSetbp en a b fs

/-- The read-back of a filter type (R184 to R187). -/
def readBackOf : FilterType → Instr
  | .lp => .cgRdfLp
  | .hp => .cgRdfHp
  | .bs => .cgRdfBs
  | .bp => .cgRdfBp

/-- The command is the setter of the filter type (R25). -/
def isSetterOf (t : FilterType) : Instr → Bool
  | .cgSetlp _ _ _ => t == .lp
  | .cgSethp _ _ _ => t == .hp
  | .cgSetbs _ _ _ _ => t == .bs
  | .cgSetbp _ _ _ _ => t == .bp
  | .saPush _ | .saLoad _ _ | .saInv | .saRst | .saRdmag | .saRdcx
  | .cgRdfLp | .cgRdfHp | .cgRdfBs | .cgRdfBp
  | .fbProc _ | .fbRst | .fbActive | .swMmask _ _ _ | .swCmask _ _ => false

/-! ### Frames and results -/

/-- The analyzer's state is the same in `t` as in `s` (R21 to R24). -/
def SameAnalyzer (s t : State) : Prop :=
  t.wbuf = s.wbuf ∧ t.cnt = s.cnt ∧ t.cbuf = s.cbuf ∧ t.mag = s.mag

/-- The build, the fault state, the command port and the pin `rst` are the same in `t` as in `s`. -/
def SameControl (s t : State) : Prop :=
  t.build = s.build ∧ t.fault = s.fault ∧ t.fcode = s.fcode ∧ t.fword = s.fword ∧
  t.asm = s.asm ∧ t.cmdIn = s.cmdIn ∧ t.rst = s.rst

/-- A result is the number `r`, or some NaN where `r` is none (R112). -/
def IsResult (r : Option Word) (w : Word) : Prop :=
  match r with
  | some v => w = v
  | none => F32.isNaN w = true

/-- `m` is `fsqrt(fadd(fmul(re, re), fmul(im, im)))` (R146): the number where every operation gives one, a
NaN from the first operation on that gives none. -/
def MagnitudeOf (re im m : Word) : Prop :=
  IsResult
    ((F32.mul? re re).bind fun p => (F32.mul? im im).bind fun q => (F32.add? p q).bind F32.sqrt?)
    m

/-- `CBUF` and `MAG` of `t` are the frame of the window `WBUF` of `t` (R146). -/
def IsFrame (t : State) : Prop :=
  t.cbuf = dft t.build t.wbuf ∧ t.mag.length = t.cbuf.length ∧
  ∀ (k : Nat) (z : Cplx) (m : Word), t.cbuf[k]? = some z → t.mag[k]? = some m → MagnitudeOf z.re z.im m

/-- How many response words a command appends (R85, column "Response words"). -/
def responseCount (s : State) : Instr → Nat
  | .saPush _ | .fbProc _ | .fbActive => 1
  | .saInv => s.build.w
  | .saRdmag => s.build.nb
  | .saRdcx => 2 * s.build.nb
  | .cgRdfLp => if (s.filter .lp).hasc then 4 + s.build.l else 4
  | .cgRdfHp => if (s.filter .hp).hasc then 4 + s.build.l else 4
  | .cgRdfBs => if (s.filter .bs).hasc then 4 + s.build.l else 4
  | .cgRdfBp => if (s.filter .bp).hasc then 4 + s.build.l else 4
  | .swMmask _ n _ => n.toNat
  | .saLoad _ _ | .saRst | .fbRst | .swCmask _ _ => 0
  | .cgSetlp _ _ _ | .cgSethp _ _ _ | .cgSetbs _ _ _ _ | .cgSetbp _ _ _ _ => 0

/-- The FIR sum `sum over i of coef[i] * dly[i]` onto `acc`, ascending, each product and each sum rounded
(R200); none from the first operation on that gives a NaN. -/
def firExact : Word → List Word → List Word → Option Word
  | acc, c :: cs, d :: ds =>
    (F32.mul? c d).bind fun p => (F32.add? acc p).bind fun a => firExact a cs ds
  | acc, _, _ => some acc

/-- The sum of `h` onto `acc`, ascending, each step rounded (R177); none from the first step on that gives a
NaN. -/
def tapSumExact : Word → List Word → Option Word
  | acc, [] => some acc
  | acc, x :: h => (F32.add? acc x).bind fun a => tapSumExact a h

/-- What one stage does (R200): `s` before, `x` in, `y` out, `t` after. -/
def StageSpec (ft : FilterType) (s : State) (x y : Word) (t : State) : Prop :=
  if (s.filter ft).en = true ∧ (s.filter ft).hasc = true then
    (t.filter ft).dly = x :: (s.filter ft).dly.dropLast ∧
    IsResult (firExact posZero (s.filter ft).coef (t.filter ft).dly) y ∧
    (t.filter ft).coef = (s.filter ft).coef ∧ (t.filter ft).en = true ∧ (t.filter ft).hasc = true ∧
    (t.filter ft).cutA = (s.filter ft).cutA ∧ (t.filter ft).cutB = (s.filter ft).cutB ∧
    (t.filter ft).fs = (s.filter ft).fs ∧
    (∀ u, u ≠ ft → t.filter u = s.filter u) ∧ SameAnalyzer s t ∧ SameControl s t ∧ t.rsp = s.rsp
  else y = x ∧ t = s

end Sys2Proof.Machine
end

