-- ==== Sys2Proof/Safety/Ideal.lean ====
section
/-! DEFINITION. The ideal instance (R9, R14), where `F` is the real numbers, and the contracts of the open
functions (R117, R124 to R126). Nothing here is executed and nothing of it is assumed by the machine: claims
about the document's real-number formulas are stated in these terms (log 24). -/

namespace Sys2Proof.Ideal

open Sys2Proof.Machine

/-- The operations of R9 over the reals; the constants of R116 are the real numbers. -/
noncomputable def reals : Arith ℝ where
  add := (· + ·)
  sub := (· - ·)
  mul := (· * ·)
  div := (· / ·)
  sqrt := Real.sqrt
  sin := Real.sin
  cos := Real.cos
  abs := fun x => |x|
  neg := fun x => -x
  lt := fun a b => decide (a < b)
  le := fun a b => decide (a ≤ b)
  gt := fun a b => decide (a > b)
  ge := fun a b => decide (a ≥ b)
  ofNat := fun n => (n : ℝ)
  ofInt := fun n => (n : ℝ)
  zero := 0
  one := 1
  two := 2
  pi := Real.pi
  k042 := 42 / 100
  k05 := 1 / 2
  k008 := 8 / 100

/-- The ideal reading of a rule: no result depends on the place of the operation. -/
noncomputable def realsAt : ArithAt ℝ := fun _ _ => reals

/-- The real number of a finite word (R110). -/
noncomputable def real (w : Word) : ℝ := (F32.value w : ℝ) / 2 ^ 149

/-- The number of a word that is no NaN, the infinities at the ends (R110, R113). A NaN has none; it is read as
0, and claims leave it out. -/
noncomputable def extended (w : Word) : EReal :=
  if F32.isFinite w then (real w : EReal)
  else if F32.isInf w then (if F32.sign w then ⊥ else ⊤) else 0

/-- Both are numbers, and the first is below the second (R113). -/
def Below (a b : Word) : Prop := F32.isNaN a = false ∧ F32.isNaN b = false ∧ extended a < extended b

/-- Both are numbers, and the first is at most the second (R113). -/
def AtMost (a b : Word) : Prop := F32.isNaN a = false ∧ F32.isNaN b = false ∧ extended a ≤ extended b

/-- The real part of bin `k` of the ideal forward transform (R124). -/
noncomputable def dftRe (w : Nat) (x : Nat → ℝ) (k : Nat) : ℝ :=
  ∑ n ∈ Finset.range w, x n * Real.cos (2 * Real.pi * k * n / w)

/-- The imaginary part of bin `k` of the ideal forward transform (R124). -/
noncomputable def dftIm (w : Nat) (x : Nat → ℝ) (k : Nat) : ℝ :=
  -∑ n ∈ Finset.range w, x n * Real.sin (2 * Real.pi * k * n / w)

/-- The bins `0..W/2` of the ideal forward transform (R124). -/
noncomputable def dftBins (w : Nat) (x : Nat → ℝ) : List (CplxOf ℝ) :=
  (List.range (w / 2 + 1)).map fun k => ⟨dftRe w x k, dftIm w x k⟩

/-- Sample `n` of the ideal inverse transform of a half spectrum (R125). -/
noncomputable def idft (w : Nat) (re im : Nat → ℝ) (n : Nat) : ℝ :=
  (re 0 + (-1) ^ n * re (w / 2) +
    2 * ∑ k ∈ Finset.Ico 1 (w / 2),
      (re k * Real.cos (2 * Real.pi * k * n / w) - im k * Real.sin (2 * Real.pi * k * n / w))) / w

/-- `TRIG_ACC` with tolerance `tol`, over `abs(a) <= bound` (R117; `2^12` there). -/
def TrigAcc (tol bound : ℝ) : Prop :=
  ∀ a : Word, F32.isFinite a = true → |real a| ≤ bound →
    F32.isFinite (fsin a) = true ∧ F32.isFinite (fcos a) = true ∧
    |real (fsin a) - Real.sin (real a)| ≤ tol ∧ |real (fcos a) - Real.cos (real a)| ≤ tol

/-- The samples of a window as real numbers. -/
noncomputable def samples (x : List Word) (n : Nat) : ℝ := real (x.getD n posZero)

/-- `DFT_ACC` with tolerance `tol` for one window (R126). -/
def DftAcc (b : Build) (tol : ℝ) (x : List Word) : Prop :=
  (∀ v ∈ x, F32.isFinite v = true) →
    ∀ k < b.nb, ∀ z, (dft b x)[k]? = some z →
      F32.isFinite z.re = true ∧ F32.isFinite z.im = true ∧
      |real z.re - dftRe b.w (samples x) k| ≤ tol * ∑ n ∈ Finset.range b.w, |samples x n| ∧
      |real z.im - dftIm b.w (samples x) k| ≤ tol * ∑ n ∈ Finset.range b.w, |samples x n|

/-- The real parts of the bins as real numbers. -/
noncomputable def binRe (c : List Cplx) (k : Nat) : ℝ := real (c.getD k Cplx.zero).re

/-- The imaginary parts of the bins as real numbers. -/
noncomputable def binIm (c : List Cplx) (k : Nat) : ℝ := real (c.getD k Cplx.zero).im

/-- The `T` of `IDFT_ACC`, by which the error of the inverse transform is measured (R126). -/
noncomputable def binSum (w : Nat) (c : List Cplx) : ℝ :=
  (|binRe c 0| + |binRe c (w / 2)| + 2 * ∑ k ∈ Finset.Ico 1 (w / 2), (|binRe c k| + |binIm c k|)) / w

/-- `IDFT_ACC` with tolerance `tol` for one half spectrum (R126). -/
def IdftAcc (b : Build) (tol : ℝ) (c : List Cplx) : Prop :=
  (∀ z ∈ c, F32.isFinite z.re = true ∧ F32.isFinite z.im = true) →
    ∀ n < b.w, ∀ y, (Machine.idft b c)[n]? = some y →
      F32.isFinite y = true ∧
      |real y - idft b.w (binRe c) (binIm c) n| ≤ tol * binSum b.w c

/-- `r` is the binary32 number nearest to the real number `x`, ties to the even significand; an infinity
from half a unit in the last place above the largest finite number on (R111, from IEEE 754). -/
def RoundsTo (x : ℝ) (r : Word) : Prop :=
  (|x| < (2 ^ 25 - 1) * 2 ^ 103 →
    F32.isFinite r = true ∧
    ∀ z : Word, F32.isFinite z = true →
      |real r - x| ≤ |real z - x| ∧
      (|real r - x| = |real z - x| → real z ≠ real r → F32.mag r % 2 = 0)) ∧
  ((2 ^ 25 - 1) * 2 ^ 103 ≤ |x| → F32.isInf r = true ∧ (F32.sign r = true ↔ x < 0))

end Sys2Proof.Ideal
end

