-- ==== Sys2Proof/Certificates/Slice0/Obligations.lean ====
section
/-! DEFINITION. The statements for the provers. Each docstring names the rule it formalises. Every statement
is about every state, so about every build (log 1), and about every value of the free values. -/

open Sys2Proof Sys2Proof.Machine

/-! ### The encoding -/

/-- R80 to R85, R88: decoding the words of a well-formed command, whatever follows them in the stream, gives
the command back with every operand. -/
def Obligations.DecodeOfEncodeIsTheCommand : Prop :=
  ∀ (i : Instr) (rest : List Word), i.wf = true → decode (encode i ++ rest) = .command i rest

/-- R83, R85, R88: a stream that decodes to a command is exactly that command's words and the rest, so no
two different streams of one length carry the same command. -/
def Obligations.EncodeOfDecodeIsTheStream : Prop :=
  ∀ (ws : List Word) (i : Instr) (rest : List Word),
    decode ws = .command i rest → i.wf = true ∧ ws = encode i ++ rest

/-- R86, R251, R254: the tests of a header word and the fault each raises, written over the word's bits. -/
def Obligations.BadHeaderRaisesTheDecodeFault : Prop :=
  ∀ (h : Word) (s : State), s.asm = [] →
    let opc := h.toNat % 2 ^ 8
    let en := h.toNat / 2 ^ 8 % 2
    let rsv := h.toNat / 2 ^ 9
    let opcodes := [0x10, 0x11, 0x12, 0x13, 0x14, 0x15, 0x20, 0x21, 0x22, 0x23,
      0x28, 0x29, 0x2A, 0x2B, 0x30, 0x31, 0x32, 0x40, 0x41]
    let setters := [0x20, 0x21, 0x22, 0x23]
    (opc ∉ opcodes → accept h s = .next { s with fault := true, fcode := 1#2, fword := h }) ∧
    (opc ∈ opcodes → rsv ≠ 0 → accept h s = .next { s with fault := true, fcode := 2#2, fword := h }) ∧
    (opc ∈ opcodes → rsv = 0 → en = 1 → opc ∉ setters →
      accept h s = .next { s with fault := true, fcode := 2#2, fword := h }) ∧
    (opc ∈ opcodes → rsv = 0 → (en = 0 ∨ opc ∈ setters) →
      ∃ t, accept h s = .next t ∧ t.fault = s.fault ∧ t.fcode = s.fcode ∧ t.fword = s.fword)

/-- R85: "(header and mask) = match selects the command", no header word is selected by two rows, and "23
header words in all are legal". -/
def Obligations.MatchAndMaskSelectTheCommand : Prop :=
  (∀ (h : Word) (o : Opcode), headerTest h = .legal o ↔ h &&& o.mask = o.pattern) ∧
  (∀ (h : Word) (o p : Opcode), h &&& o.mask = o.pattern → h &&& p.mask = p.pattern → o = p) ∧
  ∀ h : Word, (∃ o, headerTest h = .legal o) ↔
    h.toNat ∈ [0x10, 0x11, 0x12, 0x13, 0x14, 0x15, 0x20, 0x21, 0x22, 0x23, 0x120, 0x121, 0x122, 0x123,
      0x28, 0x29, 0x2A, 0x2B, 0x30, 0x31, 0x32, 0x40, 0x41]

/-- R80, R82, R84, R62, R88: the number of words of a command is its format's, from 1 to `2^32 + 2`, and no
proper part of them is a command or a fault: until the last word the decoder answers "incomplete". -/
def Obligations.CommandsEndAtTheirLastWord : Prop :=
  (∀ i : Instr, i.wf = true →
    (encode i).length =
      (match i with
      | .saInv | .saRst | .saRdmag | .saRdcx | .cgRdfLp | .cgRdfHp | .cgRdfBs | .cgRdfBp | .fbRst
      | .fbActive => 1
      | .saPush _ | .fbProc _ => 2
      | .cgSetlp _ _ _ | .cgSethp _ _ _ | .swCmask _ _ => 3
      | .cgSetbs _ _ _ _ | .cgSetbp _ _ _ _ => 4
      | .saLoad n _ => 2 + n.toNat
      | .swMmask _ n _ => 3 + n.toNat) ∧
    1 ≤ (encode i).length ∧ (encode i).length ≤ 2 ^ 32 + 2) ∧
  ∀ (ws : List Word) (i : Instr) (k : Nat),
    decode ws = .command i [] → k < ws.length → decode (ws.take k) = .incomplete

/-- R85, R89 and the tables of 95_test_vectors.md: words written out by hand decode to what they stand for. -/
def Obligations.WordsOfTheSpecDecode : Prop :=
  decode [0x00000120#32, 0x43FA0000#32, 0x472C4400#32] =
    .command (.cgSetlp true 0x43FA0000#32 0x472C4400#32) [] ∧
  decode [0x00000010#32, 0x3F800000#32] = .command (.saPush 0x3F800000#32) [] ∧
  decode [0x00000123#32, 0x3F800000#32, 0x40400000#32, 0x41000000#32] =
    .command (.cgSetbp true 0x3F800000#32 0x40400000#32 0x41000000#32) [] ∧
  decode [0x00000041#32, 0x00000008#32, 0x45FA0000#32] = .command (.swCmask 8#32 0x45FA0000#32) [] ∧
  decode [0x00000110#32] = .illegal .reservedBits 0x00000110#32 ∧
  decode [0xFFFFFFFF#32] = .illegal .illegalOpcode 0xFFFFFFFF#32

/-! ### The step -/

/-- R62, R69, R88: when the words taken so far and the next one are a whole command, the step that takes
that word performs it, in the state without those words. Words beyond the command, which only a state that no
run reaches can hold, stay in the assembly state: that clause is the model's choice (log 22). -/
def Obligations.StepRunsTheDecodedCommand : Prop :=
  ∀ (s : State) (w : Word) (ws rest : List Word) (i : Instr),
    s.build.ok = true → s.rst = false → s.fault = false → s.cmdIn = w :: ws →
    decode (s.asm ++ [w]) = .command i rest →
    step s = exec i { s with asm := rest, cmdIn := ws } ∧ (decode s.asm = .incomplete → rest = [])

/-- R44, R62: a word of a command whose later words are still to come is held, and nothing else happens. R265,
V12: with no word offered, also inside a command, the block waits: there is no step, which the model answers
by the stuck state `awaitingWord` (the model's answer, log 8). -/
def Obligations.UnfinishedCommandWaitsForItsWords : Prop :=
  ∀ s : State, s.build.ok = true → s.rst = false → s.fault = false →
    (∀ (w : Word) (ws : List Word), s.cmdIn = w :: ws → decode (s.asm ++ [w]) = .incomplete →
      step s = .next { s with asm := s.asm ++ [w], cmdIn := ws }) ∧
    (s.cmdIn = [] → step s = .fault .awaitingWord)

/-- R252: fault entry, and fail-stop after it: the fault state is written, the word consumed, nothing else
changes, the responses already produced can still be taken, no word is accepted and no step is taken. That
`step` answers a state without a step by the fault `failStop` is the model's answer (log 9). -/
def Obligations.FaultEntryIsFailStop : Prop :=
  ∀ (s : State) (h : Word) (ws : List Word) (c : DecodeFault),
    s.build.ok = true → s.rst = false → s.fault = false → s.asm = [] → s.cmdIn = h :: ws →
    headerTest h = .illegal c →
    ∃ t, step s = .next t ∧ t = { s with fault := true, fcode := c.code, fword := h, cmdIn := ws } ∧
      step t = .fault .failStop ∧
      ∀ (depth : Nat) (pace : Pace) (queue : List Word) (sent : Nat),
        let before := (PortState.mk s queue sent).pins depth false pace
        let after := (PortState.mk t queue sent).pins depth false pace
        after.cmdReady = false ∧ after.fault = true ∧ after.faultCode = c.code ∧ after.faultWord = h ∧
        after.rspValid = before.rspValid ∧ after.rspData = before.rspData

/-- R252, R255, R265: in fail-stop there is no step; a step out of it is hardware reset, which clears the
fault. That `step` answers a state without a step by the fault `failStop` is the model's answer (log 9). -/
def Obligations.OnlyResetLeavesFailStop : Prop :=
  ∀ s t : State, s.fault = true →
    (s.build.ok = true → s.rst = false → step s = .fault .failStop) ∧
    (step s = .next t → s.rst = true ∧ t.fault = false ∧ t.fcode = 0#2 ∧ t.fword = 0x00000000#32)

/-- R45, R280: a step with `rst` high puts all state at its reset value, whatever the block was doing. That the
build, the words the host offers and the level of `rst` stay (`build`, `cmdIn`, `rst`) is the model's choice
(log 10). -/
def Obligations.ResetStepGivesTheResetValues : Prop :=
  ∀ s : State, s.build.ok = true → s.rst = true →
    ∃ t, step s = .next t ∧ t.build = s.build ∧ t.cmdIn = s.cmdIn ∧ t.rst = s.rst ∧
      t.wbuf.length = s.build.w ∧ (∀ v ∈ t.wbuf, v = 0x00000000#32) ∧ t.cnt = 0 ∧
      t.mag.length = s.build.nb ∧ (∀ v ∈ t.mag, v = 0x00000000#32) ∧
      t.cbuf.length = s.build.nb ∧ (∀ z ∈ t.cbuf, z.re = 0x00000000#32 ∧ z.im = 0x00000000#32) ∧
      (∀ ft, (t.filter ft).en = false ∧ (t.filter ft).hasc = false ∧
        (t.filter ft).cutA = 0x00000000#32 ∧ (t.filter ft).cutB = 0x00000000#32 ∧
        (t.filter ft).fs = 0x00000000#32 ∧
        (t.filter ft).coef.length = s.build.l ∧ (∀ v ∈ (t.filter ft).coef, v = 0x00000000#32) ∧
        (t.filter ft).dly.length = s.build.l ∧ (∀ v ∈ (t.filter ft).dly, v = 0x00000000#32)) ∧
      t.fault = false ∧ t.fcode = 0#2 ∧ t.fword = 0x00000000#32 ∧ t.asm = [] ∧ t.rsp = [] ∧
      ∀ (depth : Nat) (pace : Pace) (queue : List Word) (sent : Nat),
        let out := (PortState.mk s queue sent).pins depth true pace
        out.cmdReady = false ∧ out.rspValid = false ∧
        ∀ i : PinsIn, i.rst = true →
          (PortState.mk s queue sent).edge depth i pace = .next (PortState.start t)

/-- R62: from between two commands, as many steps as a command has words perform exactly that command. -/
def Obligations.EncodedCommandIsPerformed : Prop :=
  ∀ (s : State) (i : Instr) (rest : List Word), s.Idle → i.wf = true →
    Host.Core.run Sys2Proof.core (encode i).length { s with cmdIn := encode i ++ rest } =
      exec i { s with cmdIn := rest }

/-- R69: the behaviour of a command sequence is the left-to-right composition of its commands. -/
def Obligations.CommandStreamIsTheComposition : Prop :=
  ∀ (s : State) (is : List Instr) (rest : List Word), s.Idle → (∀ i ∈ is, i.wf = true) →
    Host.Core.run Sys2Proof.core (is.flatMap encode).length { s with cmdIn := is.flatMap encode ++ rest } =
      performAll is { s with cmdIn := rest }

/-- R22, R24, R25, R28, R32, R44: every step keeps the invariant of the block (Safety.lean). -/
def Obligations.EveryStepKeepsTheInvariant : Prop :=
  ∀ s t : State, s.Inv → step s = .next t → t.Inv

/-- R45: the invariant holds after reset, in every build and in the default one. -/
def Obligations.ResetMeetsTheInvariant : Prop :=
  (∀ b : Build, b.ok = true → (State.resetOf b).Inv) ∧ State.reset.Inv

/-- R250, R251, R63: every command on every operand and in every state completes, appends response words
and takes none back, and changes neither the build nor the fault state nor the command port. -/
def Obligations.EveryCommandCompletes : Prop :=
  ∀ (i : Instr) (s : State), ∃ t ws, exec i s = .next t ∧ t.rsp = s.rsp ++ ws ∧ SameControl s t

/-- R85, column "Response words": how many words each command answers. -/
def Obligations.ResponseWordCounts : Prop :=
  ∀ (i : Instr) (s t : State), s.Inv → i.wf = true → exec i s = .next t →
    t.rsp.length = s.rsp.length + responseCount s i

/-- R140 to R145, R170, R178, R201, R202, R232, R233, R41: the units share no state but what the rules say. A
command of SA and `SW.CMASK` leave the filters; a command of CG, of FB and `SW.MMASK` leave the analyzer. -/
def Obligations.UnitsDoNotTouchEachOther : Prop :=
  ∀ (i : Instr) (s t : State), exec i s = .next t →
    match i with
    | .saPush _ | .saLoad _ _ | .saInv | .saRst | .saRdmag | .saRdcx | .swCmask _ _ => t.bank = s.bank
    | .cgSetlp _ _ _ | .cgSethp _ _ _ | .cgSetbs _ _ _ _ | .cgSetbp _ _ _ _
    | .cgRdfLp | .cgRdfHp | .cgRdfBs | .cgRdfBp | .fbProc _ | .fbRst | .fbActive
    | .swMmask _ _ _ => SameAnalyzer s t

/-- R63, R291: no command reads the response stream, so what the host has taken of it changes no state and
no response word. -/
def Obligations.NoCommandReadsTheResponseStream : Prop :=
  ∀ (i : Instr) (s t : State) (old : List Word), exec i s = .next t →
    exec i { s with rsp := old ++ s.rsp } = .next { t with rsp := old ++ t.rsp }

/-- R25: no command's result depends on `FS[t]`, except the read-back of it. -/
def Obligations.StoredSampleRateIsOnlyReadBack : Prop :=
  ∀ (i : Instr) (s u : State) (ft : FilterType) (v : Word), i ≠ readBackOf ft → exec i s = .next u →
    exec i (s.putFilter ft { s.filter ft with fs := v }) =
      .next (if isSetterOf ft i then u else u.putFilter ft { u.filter ft with fs := v })

/-! ### Unit SA -/

/-- R140: `SA.PUSH` stores the sample at `CNT`, counts, and on the push that fills the window computes the
frame, restarts the count and answers 1; the rest is unchanged. -/
def Obligations.PushStoresCountsAndFrames : Prop :=
  ∀ (x : Word) (s : State), s.wbuf.length = s.build.w → s.cnt < s.build.w →
    ∃ t, exec (.saPush x) s = .next t ∧
      t.wbuf[s.cnt]? = some x ∧ (∀ j, j ≠ s.cnt → t.wbuf[j]? = s.wbuf[j]?) ∧
      t.bank = s.bank ∧ SameControl s t ∧
      (s.cnt ≠ s.build.w - 1 →
        t.cnt = s.cnt + 1 ∧ t.cbuf = s.cbuf ∧ t.mag = s.mag ∧ t.rsp = s.rsp ++ [0x00000000#32]) ∧
      (s.cnt = s.build.w - 1 →
        t.cnt = 0 ∧ IsFrame t ∧ t.cbuf.length = s.build.nb ∧ t.rsp = s.rsp ++ [0x00000001#32])

/-- R141: `SA.LOAD` loads, pads or truncates, computes the frame and leaves `CNT`; no response. -/
def Obligations.LoadReplacesWindowAndFrame : Prop :=
  ∀ (n : Word) (v : List Word) (s : State), (Instr.saLoad n v).wf = true →
    ∃ t, exec (.saLoad n v) s = .next t ∧ t.wbuf.length = s.build.w ∧
      (∀ i, i < s.build.w → i < n.toNat → t.wbuf[i]? = v[i]?) ∧
      (∀ i, i < s.build.w → n.toNat ≤ i → t.wbuf[i]? = some 0x00000000#32) ∧
      IsFrame t ∧ t.cbuf.length = s.build.nb ∧ t.cnt = s.cnt ∧
      t.rsp = s.rsp ∧ t.bank = s.bank ∧ SameControl s t

/-- R142, R144, R145: the reads of the analyzer. `SA.INV` answers the `W` words of the inverse transform of the
complex buffer, first sample first; from an all-zero complex buffer every word is a zero of either sign.
`SA.RDMAG` answers the magnitudes, bin 0 first, and `SA.RDCX` the bins, `re` then `im`. None writes state. -/
def Obligations.AnalyzerReadsAnswerAndWriteNothing : Prop :=
  ∀ s : State,
    (exec .saInv s = .next { s with rsp := s.rsp ++ idft s.build s.cbuf } ∧
      (idft s.build s.cbuf).length = s.build.w ∧
      ((∀ z ∈ s.cbuf, F32.isZero z.re = true ∧ F32.isZero z.im = true) →
        ∀ w ∈ idft s.build s.cbuf, F32.isZero w = true)) ∧
    exec .saRdmag s = .next { s with rsp := s.rsp ++ s.mag } ∧
    ∃ ws, exec .saRdcx s = .next { s with rsp := s.rsp ++ ws } ∧ ws.length = 2 * s.cbuf.length ∧
      ∀ (k : Nat) (z : Cplx), s.cbuf[k]? = some z → ws[2 * k]? = some z.re ∧ ws[2 * k + 1]? = some z.im

/-- R143: `SA.RST` zeroes the window, the counter and the magnitudes, and not the complex buffer. -/
def Obligations.AnalyzerResetKeepsTheBins : Prop :=
  ∀ s : State, ∃ t, exec .saRst s = .next t ∧
    t.wbuf.length = s.build.w ∧ (∀ v ∈ t.wbuf, v = 0x00000000#32) ∧ t.cnt = 0 ∧
    t.mag.length = s.build.nb ∧ (∀ v ∈ t.mag, v = 0x00000000#32) ∧
    t.cbuf = s.cbuf ∧ t.bank = s.bank ∧ t.rsp = s.rsp ∧ SameControl s t

/-- R147 item 1, example S1: fewer than `W` pushes from a zero count answer 0 each and leave the magnitudes
and the bins as they were. -/
def Obligations.FewerThanWPushesAnswerZero : Prop :=
  ∀ (s : State) (xs : List Word), s.Inv → s.cnt = 0 → xs.length < s.build.w →
    ∃ t, performAll (xs.map Instr.saPush) s = .next t ∧
      t.rsp = s.rsp ++ List.replicate xs.length 0x00000000#32 ∧
      t.cnt = xs.length ∧ t.mag = s.mag ∧ t.cbuf = s.cbuf ∧ t.bank = s.bank

/-- R147 item 2, example S2: from a zero count, `W` pushes answer 1 exactly once, at the last push, and the
frame is the frame of exactly these samples. -/
def Obligations.WPushesGiveOneFrame : Prop :=
  ∀ (s : State) (xs : List Word), s.Inv → s.cnt = 0 → xs.length = s.build.w →
    ∃ t, performAll (xs.map Instr.saPush) s = .next t ∧
      t.rsp = s.rsp ++ List.replicate (s.build.w - 1) 0x00000000#32 ++ [0x00000001#32] ∧
      t.cnt = 0 ∧ t.wbuf = xs ∧ IsFrame t ∧ t.bank = s.bank

/-- R141 (a), R126: `sa.load 0` gives an all-zero window, bins that are zeros of either sign and the
magnitudes `+0.0`. -/
def Obligations.LoadOfNothingGivesTheZeroFrame : Prop :=
  ∀ s : State, ∃ t, exec (.saLoad 0#32 []) s = .next t ∧
    (∀ v ∈ t.wbuf, v = 0x00000000#32) ∧
    (∀ z ∈ t.cbuf, F32.isZero z.re = true ∧ F32.isZero z.im = true) ∧
    (∀ v ∈ t.mag, v = 0x00000000#32) ∧ t.mag.length = s.build.nb

/-! ### Unit CG -/

/-- R170, R178, R180 to R183: a setter of any type writes its descriptor whether or not it generates; it
generates exactly when it enables and its guard holds, and then commits the taps, clears its own delay
line and sets `HASC`; nothing else changes and nothing is answered. -/
def Obligations.SetterDescribesAndGenerates : Prop :=
  ∀ (ft : FilterType) (en : Bool) (a b fs : Word) (s : State),
    ∃ t, exec (setterOf ft en a b fs) s = .next t ∧
      (t.filter ft).en = en ∧ (t.filter ft).cutA = a ∧ (t.filter ft).fs = fs ∧
      ((ft = .bs ∨ ft = .bp) → (t.filter ft).cutB = b) ∧
      ((ft = .lp ∨ ft = .hp) → (t.filter ft).cutB = (s.filter ft).cutB) ∧
      (¬ (en = true ∧ guard ft a b fs = true) →
        (t.filter ft).coef = (s.filter ft).coef ∧ (t.filter ft).dly = (s.filter ft).dly ∧
        (t.filter ft).hasc = (s.filter ft).hasc) ∧
      (en = true ∧ guard ft a b fs = true →
        (t.filter ft).coef = coefficients s.build ft a b fs ∧ (t.filter ft).hasc = true ∧
        (t.filter ft).dly = List.replicate s.build.l 0x00000000#32) ∧
      (∀ u, u ≠ ft → t.filter u = s.filter u) ∧
      SameAnalyzer s t ∧ t.rsp = s.rsp ∧ SameControl s t

/-- R171: the guard. A NaN operand fails it, so does a rate that is not above zero or a cutoff that is not
above zero. For numbers, infinite ones included, it implies `0 < a`, for a band `a < b`, and twice the top
cutoff below the rate; and where halving the rate is exact it is exactly that. So a rate of `+Inf` passes with
every finite positive cutoff and with no infinite one. -/
def Obligations.GuardIsTheOpenIntervalBelowNyquist : Prop :=
  ∀ (ft : FilterType) (a b fs : Word),
    let top := if ft = .bs ∨ ft = .bp then b else a
    let inside := 0 < Ideal.extended a ∧ ((ft = .bs ∨ ft = .bp) → Ideal.extended a < Ideal.extended b) ∧
      2 * Ideal.extended top < Ideal.extended fs
    (F32.isNaN a = true ∨ F32.isNaN fs = true ∨ F32.isNaN top = true → guard ft a b fs = false) ∧
    (F32.gt fs 0x00000000#32 = false ∨ F32.gt a 0x00000000#32 = false → guard ft a b fs = false) ∧
    (F32.isNaN a = false → F32.isNaN top = false → F32.isNaN fs = false →
      (guard ft a b fs = true → inside) ∧
      (2 ≤ F32.expo fs → inside → guard ft a b fs = true))

/-- R74: a command that sets or clears, done twice in a row, equals doing it once; for a setter that means
the same coefficients bit for bit (also NaN taps: log 4). -/
def Obligations.SettingTwiceEqualsSettingOnce : Prop :=
  ∀ (i : Instr) (s t : State),
    (i = .saRst ∨ i = .fbRst ∨ (∃ nfft fs, i = .swCmask nfft fs) ∨
      ∃ ft en a b fs, i = setterOf ft en a b fs) →
    exec i s = .next t → exec i t = .next t

/-- R179: the generated taps are a function of the operands and the build, not of the previous
coefficients, of `EN`, or of any other filter; that this includes taps that are NaNs is log 4. -/
def Obligations.TapsDependOnOperandsAndBuildOnly : Prop :=
  ∀ (ft : FilterType) (a b fs : Word) (s u s' u' : State),
    u.build = s.build → guard ft a b fs = true →
    exec (setterOf ft true a b fs) s = .next s' → exec (setterOf ft true a b fs) u = .next u' →
    (s'.filter ft).coef = (u'.filter ft).coef ∧ (s'.filter ft).coef.length = s.build.l

/-- R184 to R187: a read-back answers the flags word, `CUTA`, `CUTB`, `FS` and, when there are
coefficients, the taps, and writes nothing. -/
def Obligations.ReadBackAnswersTheDescriptor : Prop :=
  ∀ (ft : FilterType) (s : State),
    let f := s.filter ft
    let flags : Word := BitVec.ofNat 32 ((if f.en then 1 else 0) + (if f.hasc then 2 else 0))
    exec (readBackOf ft) s =
      .next { s with rsp := s.rsp ++ ([flags, f.cutA, f.cutB, f.fs] ++ if f.hasc then f.coef else []) }

/-- R25, R26, R31: the descriptor, the coefficients and `HASC` of a filter are written only by its own
setter, and no command clears `HASC`. -/
def Obligations.DescriptorsChangeOnlyByTheirSetter : Prop :=
  ∀ (i : Instr) (s t : State) (ft : FilterType), exec i s = .next t →
    (isSetterOf ft i = false →
      (t.filter ft).en = (s.filter ft).en ∧ (t.filter ft).cutA = (s.filter ft).cutA ∧
      (t.filter ft).cutB = (s.filter ft).cutB ∧ (t.filter ft).fs = (s.filter ft).fs ∧
      (t.filter ft).coef = (s.filter ft).coef ∧ (t.filter ft).hasc = (s.filter ft).hasc) ∧
    ((s.filter ft).hasc = true → (t.filter ft).hasc = true)

/-- R172 to R176 in the ideal instance: the windowed taps before normalisation are the document's formulas
times the Blackman window, with `n = i - (L-1)/2` and the sinc of R175. -/
def Obligations.IdealTapFormulas : Prop :=
  ∀ (eps fa fb : ℝ) (l i : Nat), i < l →
    let n : ℝ := (i : ℝ) - (((l - 1) / 2 : Nat) : ℝ)
    let sinc : ℝ → ℝ := fun x => if |x| < eps then 1 else Real.sin (Real.pi * x) / (Real.pi * x)
    let lowpass : ℝ → ℝ := fun fc => 2 * fc * sinc (2 * fc * n)
    let w : ℝ := 42 / 100 - 1 / 2 * Real.cos (2 * Real.pi * i / ((l - 1 : Nat) : ℝ)) +
      8 / 100 * Real.cos (4 * Real.pi * i / ((l - 1 : Nat) : ℝ))
    let tap (ft : FilterType) : Option ℝ := (rawTaps Ideal.realsAt eps l ft fa fb)[i]?
    (n = 0 → tap .lp = some (2 * fa * w) ∧ tap .hp = some ((1 - 2 * fa) * w) ∧
      tap .bs = some ((1 - 2 * (fb - fa)) * w) ∧ tap .bp = some (2 * (fb - fa) * w)) ∧
    (n ≠ 0 → tap .lp = some (lowpass fa * w) ∧ tap .hp = some (-lowpass fa * w) ∧
      tap .bs = some ((lowpass fa - lowpass fb) * w) ∧ tap .bp = some ((lowpass fb - lowpass fa) * w))

/-- R188 items (1) and (2), ideal instance: the taps of every type are symmetric about the centre and the
first and the last are zero. -/
def Obligations.IdealTapsAreSymmetric : Prop :=
  ∀ (eps normEps a b fs : ℝ) (l : Nat) (ft : FilterType), l % 2 = 1 → 3 ≤ l →
    let h := gen Ideal.realsAt eps normEps l ft a b fs
    h.length = l ∧ (∀ i, i < l → h[i]? = h[l - 1 - i]?) ∧ h[0]? = some 0 ∧ h[l - 1]? = some 0

/-- R177, R179, and R188 item (3): the generated taps are the raw taps divided, each, by their sum where the
sum's absolute value is above `NORM_EPS`, and the raw taps themselves where it is not: in the ideal instance
for every threshold, where they then sum to exactly 1; and in binary32 for every build, where the sum is the
ascending one, each step rounded, and a NaN sum divides nothing. -/
def Obligations.TapsAreNormalisedByTheirSum : Prop :=
  (∀ (eps normEps a b fs : ℝ) (l : Nat) (ft : FilterType),
    let raw := rawTaps Ideal.realsAt eps l ft (a / (fs / 2)) (b / (fs / 2))
    let h := gen Ideal.realsAt eps normEps l ft a b fs
    (normEps < |raw.sum| → h = raw.map fun x => x / raw.sum) ∧
    (normEps < |raw.sum| → raw.sum ≠ 0 → h.sum = 1) ∧
    (|raw.sum| ≤ normEps → h = raw)) ∧
  ∀ (bd : Build) (ft : FilterType) (a b fs : Word),
    let A := arithAt .cg 0
    let raw := rawTaps A bd.sincEps bd.l ft (normCutoff (A 3 0) a fs) (normCutoff (A 3 1) b fs)
    let h := coefficients bd ft a b fs
    ∃ sum, IsResult (tapSumExact 0x00000000#32 raw) sum ∧ h.length = raw.length ∧
      (F32.lt bd.normEps (F32.abs sum) = true →
        ∀ (i : Nat) (x : Word), raw[i]? = some x → ∃ y, h[i]? = some y ∧ IsResult (F32.div? x sum) y) ∧
      (F32.lt bd.normEps (F32.abs sum) = false → h = raw)

/-- R175, R180 (c), R181 (d): in every build, a rate of `+Inf` gives a low-pass whose taps are all zeros, and a
high-pass whose taps but the centre one are zeros, for every finite positive cutoff. -/
def Obligations.InfiniteRateGivesZeroTaps : Prop :=
  ∀ (bd : Build) (cut : Word), bd.ok = true → F32.isFinite cut = true → F32.gt cut 0x00000000#32 = true →
    guard .lp cut 0x00000000#32 0x7F800000#32 = true ∧
    (∀ v ∈ coefficients bd .lp cut 0x00000000#32 0x7F800000#32, F32.isZero v = true) ∧
    ∀ (i : Nat) (v : Word), i ≠ bd.c →
      (coefficients bd .hp cut 0x00000000#32 0x7F800000#32)[i]? = some v → F32.isZero v = true

/-! ### Unit FB -/

/-- R201 (a), R204 (1): with no stage that runs, `FB.PROC` answers its operand bit for bit and changes no
state. -/
def Obligations.ProcWithoutRunningStageIsIdentity : Prop :=
  ∀ (x : Word) (s : State), (∀ ft, (s.filter ft).en = false ∨ (s.filter ft).hasc = false) →
    exec (.fbProc x) s = .next { s with rsp := s.rsp ++ [x] }

/-- R200, R201: `FB.PROC` passes its operand through the four stages in the order band-pass, band-stop,
high-pass, low-pass, each stage's output the next one's input, each stage as R200 says, and answers the
last output. -/
def Obligations.ProcRunsTheCascadeInOrder : Prop :=
  ∀ (x : Word) (s : State), 1 ≤ s.build.l → (∀ ft, (s.filter ft).dly.length = s.build.l) →
    ∃ (y1 y2 y3 y4 : Word) (s1 s2 s3 s4 : State),
      StageSpec .bp s x y1 s1 ∧ StageSpec .bs s1 y1 y2 s2 ∧
      StageSpec .hp s2 y2 y3 s3 ∧ StageSpec .lp s3 y3 y4 s4 ∧
      exec (.fbProc x) s = .next { s4 with rsp := s4.rsp ++ [y4] }

/-- R202: `FB.RST` zeroes all four delay lines, and nothing else. -/
def Obligations.BankResetClearsAllDelayLines : Prop :=
  ∀ s : State, ∃ t, exec .fbRst s = .next t ∧
    (∀ ft, t.filter ft = { s.filter ft with dly := List.replicate s.build.l 0x00000000#32 }) ∧
    SameAnalyzer s t ∧ t.rsp = s.rsp ∧ SameControl s t

/-- R34, R203: `FB.ACTIVE` answers 1 exactly when some filter is enabled, whatever `HASC` says, and writes
nothing. -/
def Obligations.ActiveAnswersAnyEnabled : Prop :=
  ∀ s : State,
    ((∃ ft, (s.filter ft).en = true) →
      exec .fbActive s = .next { s with rsp := s.rsp ++ [0x00000001#32] }) ∧
    ((∀ ft, (s.filter ft).en = false) →
      exec .fbActive s = .next { s with rsp := s.rsp ++ [0x00000000#32] })

/-- R200, R296, D21: a command that changes a delay line is `FB.PROC` with that stage running, `FB.RST`, or
that filter's own generating setter. -/
def Obligations.DelayLinesChangeOnlyByThreeThings : Prop :=
  ∀ (i : Instr) (s t : State) (ft : FilterType), exec i s = .next t →
    (t.filter ft).dly ≠ (s.filter ft).dly →
    ((∃ x, i = .fbProc x) ∧ (s.filter ft).en = true ∧ (s.filter ft).hasc = true) ∨ i = .fbRst ∨
      ∃ a b fs, i = setterOf ft true a b fs ∧ guard ft a b fs = true

/-- R200 in the ideal instance: the FIR sum is `sum over i of COEF[i] * DLY[i]`. -/
def Obligations.IdealStageIsTheConvolutionSum : Prop :=
  ∀ (lane l : Nat) (c d : Nat → ℝ),
    firSum Ideal.realsAt lane 0 0 ((List.range l).map c) ((List.range l).map d) =
      ∑ i ∈ Finset.range l, c i * d i

/-- R90: the order of the two commands inside `pb.sample` and inside `pb.restart` changes no state and no
response word beyond the order of the two answers. -/
def Obligations.AnalyzerAndFilterCommandsCommute : Prop :=
  ∀ (x : Word) (s : State),
    (∃ t u y r, performAll (Pseudo.pbSample x).expand s = .next t ∧
      performAll (Pseudo.pbSample x).expand.reverse s = .next u ∧
      t.rsp = s.rsp ++ [r, y] ∧ u.rsp = s.rsp ++ [y, r] ∧ { t with rsp := [] } = { u with rsp := [] }) ∧
    ∃ t, performAll Pseudo.pbRestart.expand s = .next t ∧
      performAll Pseudo.pbRestart.expand.reverse s = .next t

/-! ### Unit SW -/

/-- R230, R233 (b), R235: the bin frequency. It is `k * fs`, rounded, divided by `nfft`, rounded, the integers
converted first, and exactly `k * fs / nfft` where both steps are exact; for `nfft = 0` a NaN when `k = 0` or
`fs = 0`, else an infinity with the sign of `fs`; a NaN for a NaN rate. -/
def Obligations.BinFrequencyIsTheRoundedRatio : Prop :=
  ∀ (k nfft : Nat) (fs : Word), k < 2 ^ 32 → nfft < 2 ^ 32 →
    let kk := Ideal.real (F32.ofNat k)
    let nn := Ideal.real (F32.ofNat nfft)
    (F32.isNaN fs = true → binFreq k fs nfft = none) ∧
    (F32.isFinite fs = true → 0 < nfft →
      ∃ p f, Ideal.RoundsTo (kk * Ideal.real fs) p ∧ F32.sign p = F32.sign fs ∧
        binFreq k fs nfft = some f ∧ F32.sign f = F32.sign fs ∧
        (F32.isFinite p = true → Ideal.RoundsTo (Ideal.real p / nn) f) ∧
        (F32.isInf p = true → F32.isInf f = true)) ∧
    (F32.isFinite fs = true → 0 < nfft → k < 2 ^ 24 → nfft < 2 ^ 24 →
      ∀ p f : Word, F32.isFinite p = true → F32.isFinite f = true →
        Ideal.real p = k * Ideal.real fs → Ideal.real f = Ideal.real p / nfft →
        ∃ g, binFreq k fs nfft = some g ∧ F32.isFinite g = true ∧ Ideal.real g = k * Ideal.real fs / nfft) ∧
    (F32.isInf fs = true → 0 < nfft →
      (k = 0 → binFreq k fs nfft = none) ∧
      (0 < k → ∃ f, binFreq k fs nfft = some f ∧ F32.isInf f = true ∧ F32.sign f = F32.sign fs)) ∧
    (F32.isNaN fs = false →
      (k = 0 ∨ F32.isZero fs = true → binFreq k fs 0 = none) ∧
      (0 < k → F32.isZero fs = false →
        ∃ f, binFreq k fs 0 = some f ∧ F32.isInf f = true ∧ F32.sign f = F32.sign fs))

/-- R231: which bins are zeroed, by the numbers of the frequency and of the stored cutoffs of the enabled
filters, infinite ones included: below HP or BP's low edge, above LP or BP's high edge, from BS's low edge to
its high edge. A NaN frequency zeroes nothing, and a NaN cutoff nothing through its condition. -/
def Obligations.ZeroedBinsAreOutsideTheBands : Prop :=
  ∀ (s : State) (k nfft : Nat) (fs : Word),
    (binFreq k fs nfft = none → s.zeroBin k fs nfft = false) ∧
    ∀ f, binFreq k fs nfft = some f →
      F32.isNaN f = false ∧
      (s.zeroBin k fs nfft = true ↔
        ((s.filter .bp).en = true ∧
          (Ideal.Below f (s.filter .bp).cutA ∨ Ideal.Below (s.filter .bp).cutB f)) ∨
        ((s.filter .bs).en = true ∧
          Ideal.AtMost (s.filter .bs).cutA f ∧ Ideal.AtMost f (s.filter .bs).cutB) ∨
        ((s.filter .hp).en = true ∧ Ideal.Below f (s.filter .hp).cutA) ∨
        ((s.filter .lp).en = true ∧ Ideal.Below (s.filter .lp).cutA f))

/-- R232: `SW.MMASK` answers `n` words, word `k` being `+0.0` where bin `k` is zeroed for the length `W` and
`m[k]` bit for bit where it is not, and writes nothing. -/
def Obligations.MagnitudeMaskAnswers : Prop :=
  ∀ (fs n : Word) (m : List Word) (s : State), (Instr.swMmask fs n m).wf = true →
    ∃ ws, exec (.swMmask fs n m) s = .next { s with rsp := s.rsp ++ ws } ∧ ws.length = n.toNat ∧
      ∀ (k : Nat) (x : Word), m[k]? = some x →
        ws[k]? = some (if s.zeroBin k fs s.build.w then 0x00000000#32 else x)

/-- R233: `SW.CMASK` zeroes both parts of the zeroed bins of `CBUF` for the length `nfft`, keeps the other
bins, and changes nothing else: not `MAG`, and nothing is answered. -/
def Obligations.ComplexMaskEffects : Prop :=
  ∀ (nfft fs : Word) (s : State), ∃ t, exec (.swCmask nfft fs) s = .next t ∧
    t.cbuf.length = s.cbuf.length ∧
    (∀ (k : Nat) (z : Cplx), s.cbuf[k]? = some z →
      t.cbuf[k]? = some (if s.zeroBin k fs nfft.toNat then ⟨0x00000000#32, 0x00000000#32⟩ else z)) ∧
    t.wbuf = s.wbuf ∧ t.cnt = s.cnt ∧ t.mag = s.mag ∧ t.bank = s.bank ∧ t.rsp = s.rsp ∧ SameControl s t

/-- R234: with `nfft = W` and the same rate, the two masks zero the same bins: a magnitude that is not a
`+0.0` survives `SW.MMASK` exactly where a bin that is not a pair of `+0.0` survives `SW.CMASK`. -/
def Obligations.TheTwoMasksZeroTheSameBins : Prop :=
  ∀ (fs n nfft : Word) (m : List Word) (s t u : State) (k : Nat) (x : Word) (z : Cplx),
    (Instr.swMmask fs n m).wf = true → nfft.toNat = s.build.w →
    exec (.swMmask fs n m) s = .next t → exec (.swCmask nfft fs) s = .next u →
    m[k]? = some x → s.cbuf[k]? = some z → x ≠ 0x00000000#32 → z ≠ Cplx.zero →
    (t.rsp[s.rsp.length + k]? = some 0x00000000#32 ↔ u.cbuf[k]? = some Cplx.zero)

/-! ### Numerics -/

/-- R111: `fadd` and `fsub` of finite numbers are the exact result rounded to nearest, ties to even, and with an
infinite operand they are that infinity, of its side's sign. The overflow threshold in `Ideal.RoundsTo`, and
that an exact zero is `-0.0` only as a sum of two `-0.0`, are IEEE 754's (the model's source for them: log
25). -/
def Obligations.SumsAreCorrectlyRounded : Prop :=
  ∀ a b : Word,
    (F32.isFinite a = true → F32.isFinite b = true →
      (∃ r, F32.add? a b = some r ∧ Ideal.RoundsTo (Ideal.real a + Ideal.real b) r ∧
        (Ideal.real a + Ideal.real b = 0 → (F32.sign r = true ↔ F32.sign a = true ∧ F32.sign b = true))) ∧
      ∃ r, F32.sub? a b = some r ∧ Ideal.RoundsTo (Ideal.real a - Ideal.real b) r ∧
        (Ideal.real a - Ideal.real b = 0 → (F32.sign r = true ↔ F32.sign a = true ∧ F32.sign b = false))) ∧
    (F32.isInf a = true → F32.isFinite b = true → F32.add? a b = some a ∧ F32.sub? a b = some a) ∧
    (F32.isFinite a = true → F32.isInf b = true →
      F32.add? a b = some b ∧
        ∃ r, F32.sub? a b = some r ∧ F32.isInf r = true ∧ F32.sign r = !F32.sign b) ∧
    (F32.isInf a = true → F32.isInf b = true →
      (F32.sign a = F32.sign b → F32.add? a b = some a) ∧ (F32.sign a ≠ F32.sign b → F32.sub? a b = some a))

/-- R111: `fmul` and `fdiv` of finite numbers, the divisor not zero, are the exact result rounded to nearest,
ties to even, with the sign of the operands' signs; a finite number that is no zero over a zero is an infinity
of that sign, so are the products and quotients of an infinity that are no NaN, and a finite number over an
infinity is a zero of that sign. The overflow threshold in `Ideal.RoundsTo` and the sign of a zero product or
quotient are IEEE 754's (the model's source for them: log 25). -/
def Obligations.ProductsAreCorrectlyRounded : Prop :=
  ∀ a b : Word,
    let s := F32.sign a != F32.sign b
    (F32.isFinite a = true → F32.isFinite b = true →
      (∃ r, F32.mul? a b = some r ∧ Ideal.RoundsTo (Ideal.real a * Ideal.real b) r ∧ F32.sign r = s) ∧
      (F32.isZero b = false →
        ∃ r, F32.div? a b = some r ∧ Ideal.RoundsTo (Ideal.real a / Ideal.real b) r ∧ F32.sign r = s) ∧
      (F32.isZero a = false → F32.isZero b = true →
        ∃ r, F32.div? a b = some r ∧ F32.isInf r = true ∧ F32.sign r = s)) ∧
    ((F32.isInf a = true ∧ F32.isNaN b = false ∧ F32.isZero b = false) ∨
        (F32.isInf b = true ∧ F32.isNaN a = false ∧ F32.isZero a = false) →
      ∃ r, F32.mul? a b = some r ∧ F32.isInf r = true ∧ F32.sign r = s) ∧
    (F32.isInf a = true → F32.isFinite b = true →
      ∃ r, F32.div? a b = some r ∧ F32.isInf r = true ∧ F32.sign r = s) ∧
    (F32.isFinite a = true → F32.isInf b = true →
      ∃ r, F32.div? a b = some r ∧ F32.isZero r = true ∧ F32.sign r = s)

/-- R111: `fsqrt` of a finite number that is not negative is the exact root rounded to nearest, ties to
even; the root of a zero is that zero, and the root of `+Inf` is `+Inf`. -/
def Obligations.RootsAreCorrectlyRounded : Prop :=
  ∀ a : Word,
    (F32.isZero a = true → F32.sqrt? a = some a) ∧
    (F32.isFinite a = true → F32.isZero a = false → F32.sign a = false →
      ∃ r, F32.sqrt? a = some r ∧ Ideal.RoundsTo (Real.sqrt (Ideal.real a)) r ∧ F32.sign r = false) ∧
    (F32.isInf a = true → F32.sign a = false → F32.sqrt? a = some a)

/-- R111, R112: exactly the invalid operations and those with a NaN operand give a NaN. -/
def Obligations.InvalidOperationsGiveNaN : Prop :=
  ∀ a b : Word,
    (F32.add? a b = none ↔ F32.isNaN a = true ∨ F32.isNaN b = true ∨
      (F32.isInf a = true ∧ F32.isInf b = true ∧ F32.sign a ≠ F32.sign b)) ∧
    (F32.sub? a b = none ↔ F32.isNaN a = true ∨ F32.isNaN b = true ∨
      (F32.isInf a = true ∧ F32.isInf b = true ∧ F32.sign a = F32.sign b)) ∧
    (F32.mul? a b = none ↔ F32.isNaN a = true ∨ F32.isNaN b = true ∨
      (F32.isZero a = true ∧ F32.isInf b = true) ∨ (F32.isInf a = true ∧ F32.isZero b = true)) ∧
    (F32.div? a b = none ↔ F32.isNaN a = true ∨ F32.isNaN b = true ∨
      (F32.isZero a = true ∧ F32.isZero b = true) ∨ (F32.isInf a = true ∧ F32.isInf b = true)) ∧
    (F32.sqrt? a = none ↔ F32.isNaN a = true ∨ (F32.sign a = true ∧ F32.isZero a = false))

/-- R112: whatever the free draws are, an operation's result is a NaN exactly when the operation gives none
of the numbers, and a number it gives is never a NaN. -/
def Obligations.ResultsAreNumbersOrNaN : Prop :=
  ∀ (d : Draw) (a b : Word),
    IsResult (F32.add? a b) ((arith32 d).add a b) ∧ IsResult (F32.sub? a b) ((arith32 d).sub a b) ∧
    IsResult (F32.mul? a b) ((arith32 d).mul a b) ∧ IsResult (F32.div? a b) ((arith32 d).div a b) ∧
    IsResult (F32.sqrt? a) ((arith32 d).sqrt a) ∧
    ∀ r, (F32.add? a b = some r ∨ F32.sub? a b = some r ∨ F32.mul? a b = some r ∨
      F32.div? a b = some r ∨ F32.sqrt? a = some r) → F32.isNaN r = false

/-- R113: the comparisons compare the values of finite numbers, both zeros equal, the infinities at the
ends, and are false on a NaN. -/
def Obligations.ComparisonsAreOrdered : Prop :=
  ∀ a b : Word,
    (F32.isNaN a = true ∨ F32.isNaN b = true →
      F32.lt a b = false ∧ F32.le a b = false ∧ F32.gt a b = false ∧ F32.ge a b = false) ∧
    (F32.isFinite a = true → F32.isFinite b = true →
      (F32.lt a b = true ↔ F32.value a < F32.value b) ∧ (F32.le a b = true ↔ F32.value a ≤ F32.value b) ∧
      (F32.gt a b = true ↔ F32.value b < F32.value a) ∧ (F32.ge a b = true ↔ F32.value b ≤ F32.value a)) ∧
    (F32.isFinite a = true → F32.isInf b = true →
      F32.lt a b = !F32.sign b ∧ F32.le a b = !F32.sign b ∧ F32.gt a b = F32.sign b ∧
      F32.ge a b = F32.sign b) ∧
    (F32.isInf a = true → F32.isFinite b = true →
      F32.lt a b = F32.sign a ∧ F32.le a b = F32.sign a ∧ F32.gt a b = !F32.sign a ∧
      F32.ge a b = !F32.sign a) ∧
    (F32.isInf a = true → F32.isInf b = true →
      F32.lt a b = (F32.sign a && !F32.sign b) ∧ F32.le a b = (F32.sign a || !F32.sign b) ∧
      F32.gt a b = (F32.sign b && !F32.sign a) ∧ F32.ge a b = (F32.sign b || !F32.sign a))

/-- R115: `u2f(n)` is `n` rounded to nearest even for every `n < 2^32`, exact for `n < 2^24`, and `i2f(n)`
exact for `abs(n) < 2^24`. -/
def Obligations.IntegersConvertCorrectly : Prop :=
  (∀ n : Nat, n < 2 ^ 32 → Ideal.RoundsTo (n : ℝ) (F32.ofNat n)) ∧
  (∀ n : Nat, n < 2 ^ 24 →
    F32.isFinite (F32.ofNat n) = true ∧ F32.value (F32.ofNat n) = (n : Int) * 2 ^ 149) ∧
  ∀ z : Int, z.natAbs < 2 ^ 24 →
    F32.isFinite (F32.ofInt z) = true ∧ F32.value (F32.ofInt z) = z * 2 ^ 149

/-- R117, R126: what holds of the open functions of every build. `TRIG_RANGE` and the NaN clause hold whatever
its sine and cosine are; and for an all-zero window and an all-zero half spectrum the accuracy contracts hold
with every tolerance, whatever its transforms are. -/
def Obligations.OpenFunctionsKeepTheirProperties : Prop :=
  (∀ a : Word,
    (F32.isFinite a = true → |Ideal.real (fsin a)| ≤ 1 ∧ |Ideal.real (fcos a)| ≤ 1 ∧
      F32.isFinite (fsin a) = true ∧ F32.isFinite (fcos a) = true) ∧
    (F32.isFinite a = false → F32.isNaN (fsin a) = true ∧ F32.isNaN (fcos a) = true)) ∧
  ∀ (b : Build) (tol : ℝ),
    (∀ x : List Word, (∀ v ∈ x, F32.isZero v = true) → Ideal.DftAcc b tol x) ∧
    ∀ c : List Cplx, (∀ z ∈ c, F32.isZero z.re = true ∧ F32.isZero z.im = true) → Ideal.IdftAcc b tol c

/-- R147 item 4, R142 (d), R125: the round trip. In the ideal instance the inverse transform of the forward one
is the window, exactly; in a build whose transforms meet the contracts with the tolerance `tol`, on a finite
window and on its bins, `SA.INV` directly after a frame gives back the window within `tol * (2 S + T)`. R147
item 5: in the ideal instance the magnitudes are the absolute values of the bins of R124, so none is negative,
and they are all zero exactly when the window is. -/
def Obligations.TransformsRoundTrip : Prop :=
  (∀ (w : Nat) (x : Nat → ℝ), w % 2 = 0 → 2 ≤ w →
    let mag := magnitudes Ideal.realsAt (Ideal.dftBins w x)
    (∀ n < w, Ideal.idft w (Ideal.dftRe w x) (Ideal.dftIm w x) n = x n) ∧
    (∀ k ≤ w / 2,
      mag[k]? =
        some ‖∑ n ∈ Finset.range w, (x n : ℂ) * Complex.exp (-((2 * Real.pi * k * n / w : ℝ) : ℂ) * Complex.I)‖) ∧
    mag.length = w / 2 + 1 ∧ (∀ m ∈ mag, 0 ≤ m) ∧ ((∀ m ∈ mag, m = 0) ↔ ∀ n < w, x n = 0)) ∧
  ∀ (b : Build) (tol : ℝ) (x : List Word), b.ok = true → x.length = b.w →
    (∀ v ∈ x, F32.isFinite v = true) → Ideal.DftAcc b tol x → Ideal.IdftAcc b tol (dft b x) →
    ∀ (n : Nat) (y v : Word), (idft b (dft b x))[n]? = some y → x[n]? = some v →
      F32.isFinite y = true ∧
      |Ideal.real y - Ideal.real v| ≤
        tol * (2 * ∑ j ∈ Finset.range b.w, |Ideal.samples x j| + Ideal.binSum b.w (dft b x))

/-! ### The pins -/

/-- R61, R280, R291, R294: at the pins, with any queue depth, any behaviour of the host, resets included, and
any timing of the block, the words transferred since the last reset are performed exactly as a stream of words
is, and the response words transferred, those queued and those still to be queued are exactly that stream's,
and those of an `SW.MMASK` being taken are its first ones: only progress depends on the queue and on time.
That a command's effect stands in the state from the edge of its last word on is the model's choice (log 12):
no pin shows it earlier or later. -/
def Obligations.PinsCarryTheSameStream : Prop :=
  ∀ (depth : Nat) (xs : List (PinsIn × Pace)) (p : PortState),
    decode p.core.asm = .incomplete → p.sent = 0 →
    let tr := portRun depth xs p
    ∃ c, acceptAll tr.commands tr.start = .next c ∧ tr.now.core = { c with rsp := tr.now.core.rsp } ∧
      tr.responses ++ tr.now.queue ++ tr.now.core.rsp = c.rsp ++ tr.now.core.earlyWords.take tr.now.sent

/-- R61, R75, R291, R265, V8. A response word on offer stays on offer, the same word, until it is transferred.
A host that takes no response never gets an `SW.MMASK` through whose words do not fit into the queue: however
many edges go by and whatever the block's timing, the command stays incomplete. And a host that takes
responses while it sends is never stuck: a block out of fail-stop that is willing at every edge takes a command
word within twice the words pending plus those queued. -/
def Obligations.ResponsesAreHeldAndMustBeDrained : Prop :=
  (∀ (depth : Nat) (i : PinsIn) (pace pace' : Pace) (p q : PortState), i.rst = false →
    p.edge depth i pace = .next q → (p.pins depth false pace).rspValid = true →
    p.rspTransfer depth i pace = false →
    (q.pins depth false pace').rspValid = true ∧
      (q.pins depth false pace').rspData = (p.pins depth false pace).rspData) ∧
  (∀ (depth : Nat) (xs : List (PinsIn × Pace)) (p : PortState) (fs n : Word),
    p.core.asm = [] → p.sent = 0 → (∀ x ∈ xs, x.1.rst = false ∧ x.1.rspReady = false) →
    0 < n.toNat → depth < p.queue.length + n.toNat →
    let tr := portRun depth xs p
    [0x00000040#32, fs, n] <+: tr.commands →
      tr.now.core.asm = tr.commands ∧ tr.commands.length < 3 + n.toNat) ∧
  ∀ (depth : Nat) (xs : List (PinsIn × Pace)) (p : PortState), 1 ≤ depth → p.core.fault = false →
    (∀ x ∈ xs, x.1.rst = false ∧ x.1.cmdValid = true ∧ x.1.rspReady = true ∧ x.2.take = true ∧ 1 ≤ x.2.move) →
    2 * p.pending.length + p.queue.length < xs.length →
    (portRun depth xs p).commands ≠ []
end

