-- ==== Sys2Proof/Laws/Binary32.lean ====
section
/-! SUPPORT. What the binary32 operations can answer: the fields of a packed word, the kinds of words, the
kind and sign of each result, and words as numbers. -/

namespace Sys2Proof.Machine.F32

/-! ### Packed words -/

theorem toNat_pack (neg : Bool) {m : Nat} (h : m < 2 ^ 31) :
    (pack neg m).toNat = (if neg then 2 ^ 31 else 0) + m := by
  simp only [pack, BitVec.toNat_ofNat]
  cases neg <;> simp
  all_goals omega

theorem sign_eq (w : Word) : sign w = decide (2 ^ 31 ≤ w.toNat) := by
  simp [sign, BitVec.msb_eq_decide]

theorem sign_pack (neg : Bool) {m : Nat} (h : m < 2 ^ 31) : sign (pack neg m) = neg := by
  rw [sign_eq, toNat_pack neg h]
  cases neg
  · simpa using h
  · simp

theorem mag_pack (neg : Bool) {m : Nat} (h : m < 2 ^ 31) : mag (pack neg m) = m := by
  rw [mag, toNat_pack neg h]
  cases neg
  · simpa using h
  · simpa using h

theorem mag_lt (w : Word) : mag w < 2 ^ 31 := Nat.mod_lt _ (by decide)

/-- A word is its sign and its bits 30:0. -/
theorem pack_sign_mag (w : Word) : pack (sign w) (mag w) = w := by
  apply BitVec.eq_of_toNat_eq
  rw [toNat_pack _ (mag_lt w), sign_eq, mag]
  have h := w.isLt
  by_cases hs : 2 ^ 31 ≤ w.toNat
  · rw [if_pos (decide_eq_true hs)]
    omega
  · rw [if_neg (by simpa using hs)]
    omega

theorem ext_sign_mag {a b : Word} (hs : sign a = sign b) (hm : mag a = mag b) : a = b := by
  rw [← pack_sign_mag a, ← pack_sign_mag b, hs, hm]

/-! ### The kinds of words exclude one another -/

theorem isFinite_iff (w : Word) : isFinite w = true ↔ mag w < 0x7F800000 := by simp [isFinite]
theorem isInf_iff (w : Word) : isInf w = true ↔ mag w = 0x7F800000 := by simp [isInf]
theorem isNaN_iff (w : Word) : isNaN w = true ↔ 0x7F800000 < mag w := by simp [isNaN]
theorem isZero_iff (w : Word) : isZero w = true ↔ mag w = 0 := by simp [isZero]

theorem isNaN_of_isFinite {w : Word} (h : isFinite w = true) : isNaN w = false := by
  simp only [isFinite_iff] at h
  simp only [isNaN, decide_eq_false_iff_not]
  omega

theorem isInf_of_isFinite {w : Word} (h : isFinite w = true) : isInf w = false := by
  simp only [isFinite_iff] at h
  simp only [isInf, beq_eq_false_iff_ne]
  omega

/-! ### Changing the sign -/

theorem mag_neg (a : Word) : mag (neg a) = mag a := by
  have h : (neg a).toNat % 2 ^ 31 = a.toNat % 2 ^ 31 := by
    have := congrArg BitVec.toNat (show (neg a).setWidth 31 = a.setWidth 31 by
      ext i hi
      simp only [neg, BitVec.getElem_setWidth, BitVec.getLsbD_xor]
      rw [show (0x80000000#32).getLsbD i = false by
        simp only [BitVec.getLsbD_ofNat]
        interval_cases i <;> decide]
      simp)
    simpa [BitVec.toNat_setWidth] using this
  exact h

theorem sign_neg (a : Word) : sign (neg a) = !sign a := by
  rw [sign, neg, BitVec.msb_xor, show (0x80000000#32).msb = true from by decide, Bool.xor_true, sign]

/-! ### Rounding -/

/-- A rounded word is its sign and a magnitude up to infinity. -/
theorem round_eq_pack (neg : Bool) (num den : Nat) :
    ∃ m, m ≤ 0x7F800000 ∧ round neg num den = pack neg m :=
  ⟨_, min_le_right _ _, rfl⟩

theorem sign_round (neg : Bool) (num den : Nat) : sign (round neg num den) = neg := by
  obtain ⟨m, hm, h⟩ := round_eq_pack neg num den
  rw [h, sign_pack _ (by omega)]

theorem isNaN_round (neg : Bool) (num den : Nat) : isNaN (round neg num den) = false := by
  obtain ⟨m, hm, h⟩ := round_eq_pack neg num den
  rw [h, isNaN, mag_pack _ (by omega)]
  simpa using hm

theorem sign_inf (neg : Bool) : sign (inf neg) = neg := sign_pack _ (by decide)

theorem isNaN_inf (neg : Bool) : isNaN (inf neg) = false := by
  rw [isNaN, inf, mag_pack _ (by decide)]
  decide

theorem isNaN_pack_zero (neg : Bool) : isNaN (pack neg 0) = false := by
  rw [isNaN, mag_pack _ (by decide)]
  decide

/-! ### The NaN that an operation gives -/

theorem isNaN_asNaN (free : Word) : isNaN (asNaN free) = true := by
  unfold asNaN
  split
  · assumption
  · decide

@[simp] theorem orDraw_some (d : Draw) (op : FloatOp) (a b r : Word) : orDraw d op a b (some r) = r := rfl

theorem isNaN_orDraw_none (d : Draw) (op : FloatOp) (a b : Word) : isNaN (orDraw d op a b none) = true :=
  isNaN_asNaN _

/-! ### A number that an operation gives is no NaN -/

theorem sumOf_not_nan {a b r : Word} (ha : isNaN a = false) (hb : isNaN b = false)
    (h : sumOf a b = some r) : isNaN r = false := by
  unfold sumOf at h
  split at h
  · split at h
    · cases h
    · cases h; exact ha
  · split at h
    · cases h; exact hb
    · cases h
      split
      · exact isNaN_pack_zero _
      · exact isNaN_round _ _ _

theorem isNaN_neg (a : Word) : isNaN (neg a) = isNaN a := by simp only [isNaN, mag_neg]

theorem add?_not_nan {a b r : Word} (h : add? a b = some r) : isNaN r = false := by
  unfold add? at h
  split at h
  · cases h
  · rename_i hn
    simp only [Bool.or_eq_true, not_or, Bool.not_eq_true] at hn
    exact sumOf_not_nan hn.1 hn.2 h

theorem sub?_not_nan {a b r : Word} (h : sub? a b = some r) : isNaN r = false := by
  unfold sub? at h
  split at h
  · cases h
  · rename_i hn
    simp only [Bool.or_eq_true, not_or, Bool.not_eq_true] at hn
    exact sumOf_not_nan hn.1 (by rw [isNaN_neg]; exact hn.2) h

theorem mul?_not_nan {a b r : Word} (h : mul? a b = some r) : isNaN r = false := by
  unfold mul? at h
  split at h
  · cases h
  · dsimp only at h
    split at h
    · split at h
      · cases h
      · rw [← Option.some.inj h]; exact isNaN_inf _
    · rw [← Option.some.inj h]; exact isNaN_round _ _ _

theorem div?_not_nan {a b r : Word} (h : div? a b = some r) : isNaN r = false := by
  unfold div? at h
  split at h
  · cases h
  · dsimp only at h
    split at h
    · split at h
      · cases h
      · rw [← Option.some.inj h]; exact isNaN_inf _
    · split at h
      · rw [← Option.some.inj h]; exact isNaN_pack_zero _
      · split at h
        · split at h
          · cases h
          · rw [← Option.some.inj h]; exact isNaN_inf _
        · rw [← Option.some.inj h]; exact isNaN_round _ _ _

theorem sqrt?_not_nan {a r : Word} (h : sqrt? a = some r) : isNaN r = false := by
  unfold sqrt? at h
  split at h
  · cases h
  · rename_i hn
    simp only [Bool.not_eq_true] at hn
    split at h
    · cases h; exact hn
    · split at h
      · cases h
      · split at h
        · cases h; exact hn
        · rw [← Option.some.inj h]; exact isNaN_round _ _ _

theorem add?_nan_left {a b : Word} (h : isNaN a = true) : add? a b = none := by simp [add?, h]
theorem add?_nan_right {a b : Word} (h : isNaN b = true) : add? a b = none := by simp [add?, h]
theorem sqrt?_nan {a : Word} (h : isNaN a = true) : sqrt? a = none := by simp [sqrt?, h]

/-! ### Words that are NaN or carry no sign -/

/-- NaN, `+0.0`, a positive number or `+Inf`: what a magnitude can be (R24). -/
def Unsigned (w : Word) : Prop := isNaN w = true ∨ sign w = false

theorem mul?_self_sign {a r : Word} (h : mul? a a = some r) : sign r = false := by
  unfold mul? at h
  simp only [bne_self_eq_false] at h
  split at h
  · cases h
  · split at h
    · split at h
      · cases h
      · rw [← Option.some.inj h]; exact sign_inf _
    · rw [← Option.some.inj h]; exact sign_round _ _ _

theorem add?_sign {a b r : Word} (ha : sign a = false) (hb : sign b = false) (h : add? a b = some r) :
    sign r = false := by
  unfold add? sumOf at h
  split at h
  · cases h
  · split at h
    · split at h
      · cases h
      · cases h; exact ha
    · split at h
      · cases h; exact hb
      · cases h
        split
        · rw [sign_pack _ (by decide)]
          simp [ha]
        · rw [sign_round]
          simp [value, ha, hb]
          omega

theorem sqrt?_sign {a r : Word} (ha : sign a = false) (h : sqrt? a = some r) : sign r = false := by
  unfold sqrt? at h
  split at h
  · cases h
  · split at h
    · cases h; exact ha
    · split at h
      · cases h
      · split at h
        · cases h; exact ha
        · rw [← Option.some.inj h]; exact sign_round _ _ _

/-! ### Rounding and the integer root -/

/-- The nearest integer is at most half away, and on a tie even. -/
theorem nearestEven_near (num : Nat) {den : Nat} (h : 0 < den) :
    2 * num ≤ 2 * den * nearestEven num den + den ∧ 2 * den * nearestEven num den ≤ 2 * num + den ∧
    ((2 * num = 2 * den * nearestEven num den + den ∨ 2 * den * nearestEven num den = 2 * num + den) →
      nearestEven num den % 2 = 0) := by
  have hd : den * (num / den) + num % den = num := Nat.div_add_mod num den
  have hm : num % den < den := Nat.mod_lt num h
  have hs : ∀ q, 2 * den * q = 2 * (den * q) := fun q => Nat.mul_assoc 2 den q
  have hq : den * (num / den + 1) = den * (num / den) + den := Nat.mul_succ _ _
  unfold nearestEven
  dsimp only
  split
  · simp only [hs]
    omega
  · split
    · simp only [hs, hq]
      omega
    · split
      · simp only [hs]
        omega
      · simp only [hs, hq]
        omega

/-- The bits below `i` that `sqrtBits` adds make the largest `r` whose square is at most `v`. -/
theorem sqrtBits_spec (v : Nat) (i r : Nat) (h : r * r ≤ v) (hv : v < (r + 2 ^ i) * (r + 2 ^ i)) :
    sqrtBits v i r * sqrtBits v i r ≤ v ∧ v < (sqrtBits v i r + 1) * (sqrtBits v i r + 1) := by
  induction i generalizing r with
  | zero => exact ⟨h, by simpa [sqrtBits] using hv⟩
  | succ i ih =>
    unfold sqrtBits
    split
    · rename_i hle
      refine ih _ hle ?_
      rwa [show r + 2 ^ i + 2 ^ i = r + 2 ^ (i + 1) by omega]
    · rename_i hlt
      exact ih _ h (Nat.lt_of_not_le hlt)

/-- `natSqrt` is the integer square root (R111). -/
theorem natSqrt_spec {v : Nat} (h : v < 2 ^ 213 * 2 ^ 213) :
    natSqrt v * natSqrt v ≤ v ∧ v < (natSqrt v + 1) * (natSqrt v + 1) := by
  refine sqrtBits_spec v 213 0 (Nat.zero_le v) ?_
  rwa [Nat.zero_add]

end Sys2Proof.Machine.F32

namespace Sys2Proof.Machine

/-! ### The operations of `arith32` -/

theorem arith32_mul_self (d : Draw) (a : Word) : F32.Unsigned ((arith32 d).mul a a) := by
  show F32.Unsigned (F32.orDraw d .mul a a (F32.mul? a a))
  cases h : F32.mul? a a with
  | none => exact .inl (F32.isNaN_orDraw_none _ _ _ _)
  | some r => exact .inr (F32.mul?_self_sign h)

theorem arith32_add_unsigned (d : Draw) {a b : Word} (ha : F32.Unsigned a) (hb : F32.Unsigned b) :
    F32.Unsigned ((arith32 d).add a b) := by
  show F32.Unsigned (F32.orDraw d .add a b (F32.add? a b))
  cases h : F32.add? a b with
  | none => exact .inl (F32.isNaN_orDraw_none _ _ _ _)
  | some r =>
    rcases ha with ha | ha
    · rw [F32.add?_nan_left ha] at h
      cases h
    · rcases hb with hb | hb
      · rw [F32.add?_nan_right hb] at h
        cases h
      · exact .inr (F32.add?_sign ha hb h)

theorem arith32_sqrt_unsigned (d : Draw) {a : Word} (ha : F32.Unsigned a) :
    F32.Unsigned ((arith32 d).sqrt a) := by
  show F32.Unsigned (F32.orDraw d .sqrt a a (F32.sqrt? a))
  cases h : F32.sqrt? a with
  | none => exact .inl (F32.isNaN_orDraw_none _ _ _ _)
  | some r =>
    rcases ha with ha | ha
    · rw [F32.sqrt?_nan ha] at h
      cases h
    · exact .inr (F32.sqrt?_sign ha h)

/-! ### Words as numbers: `num` takes `arith32`, whatever its draws, to `arithNum` -/

theorem num_of_isNaN {w : Word} (h : F32.isNaN w = true) : num w = none := by simp [num, h]

theorem num_of_number {w : Word} (h : F32.isNaN w = false) : num w = some w := by simp [num, h]

theorem num_eq_some {w v : Word} : num w = some v ↔ F32.isNaN w = false ∧ w = v := by
  cases h : F32.isNaN w <;> simp [num, h]

theorem num_orDraw (d : Draw) (op : FloatOp) (a b : Word) {r : Option Word}
    (h : ∀ w, r = some w → F32.isNaN w = false) : num (F32.orDraw d op a b r) = r := by
  cases r with
  | none => exact num_of_isNaN (F32.isNaN_orDraw_none d op a b)
  | some w => exact num_of_number (h w rfl)

/-- An operation of two operands that answers none on a NaN reads its operands through `num`. -/
theorem bind_num {f : Word → Word → Option Word} (ha : ∀ a b, F32.isNaN a = true → f a b = none)
    (hb : ∀ a b, F32.isNaN b = true → f a b = none) (a b : Word) :
    (num a).bind (fun x => (num b).bind fun y => f x y) = f a b := by
  cases h : F32.isNaN a
  · cases k : F32.isNaN b
    · simp [num, h, k]
    · simp [num, h, k, hb a b k]
  · simp [num, h, ha a b h]

theorem num_add (d : Draw) (a b : Word) : num ((arith32 d).add a b) = arithNum.add (num a) (num b) :=
  (num_orDraw d .add a b fun _ h => F32.add?_not_nan h).trans
    (bind_num (fun _ _ h => F32.add?_nan_left h) (fun _ _ h => F32.add?_nan_right h) a b).symm

theorem num_sub (d : Draw) (a b : Word) : num ((arith32 d).sub a b) = arithNum.sub (num a) (num b) :=
  (num_orDraw d .sub a b fun _ h => F32.sub?_not_nan h).trans
    (bind_num (fun _ _ h => by simp [F32.sub?, h]) (fun _ _ h => by simp [F32.sub?, h]) a b).symm

theorem num_mul (d : Draw) (a b : Word) : num ((arith32 d).mul a b) = arithNum.mul (num a) (num b) :=
  (num_orDraw d .mul a b fun _ h => F32.mul?_not_nan h).trans
    (bind_num (fun _ _ h => by simp [F32.mul?, h]) (fun _ _ h => by simp [F32.mul?, h]) a b).symm

theorem num_div (d : Draw) (a b : Word) : num ((arith32 d).div a b) = arithNum.div (num a) (num b) :=
  (num_orDraw d .div a b fun _ h => F32.div?_not_nan h).trans
    (bind_num (fun _ _ h => by simp [F32.div?, h]) (fun _ _ h => by simp [F32.div?, h]) a b).symm

theorem num_sqrt (d : Draw) (a : Word) : num ((arith32 d).sqrt a) = arithNum.sqrt (num a) := by
  refine (num_orDraw d .sqrt a a fun _ h => F32.sqrt?_not_nan h).trans ?_
  cases h : F32.isNaN a
  · simp [arithNum, num, h]
  · simp [arithNum, num, h, F32.sqrt?_nan h]

theorem num_ofNat (d : Draw) (n : Nat) : num ((arith32 d).ofNat n) = arithNum.ofNat n :=
  num_of_number (F32.isNaN_round _ _ _)

/-- A comparison that is false on a NaN reads its operands through `num`. -/
theorem compareNum_num {r : Word → Word → Bool} (ha : ∀ a b, F32.isNaN a = true → r a b = false)
    (hb : ∀ a b, F32.isNaN b = true → r a b = false) (a b : Word) : compareNum r (num a) (num b) = r a b := by
  cases h : F32.isNaN a
  · cases k : F32.isNaN b
    · simp [compareNum, num, h, k]
    · simp [compareNum, num, h, k, hb a b k]
  · simp [compareNum, num, h, ha a b h]

@[simp] theorem arith32_lt (d : Draw) : (arith32 d).lt = F32.lt := rfl
@[simp] theorem arith32_le (d : Draw) : (arith32 d).le = F32.le := rfl
@[simp] theorem arith32_gt (d : Draw) : (arith32 d).gt = F32.gt := rfl
@[simp] theorem arith32_ge (d : Draw) : (arith32 d).ge = F32.ge := rfl

@[simp] theorem lt_num (a b : Word) : arithNum.lt (num a) (num b) = F32.lt a b :=
  compareNum_num (fun _ _ h => by simp [F32.lt, h]) (fun _ _ h => by simp [F32.lt, h]) a b

@[simp] theorem le_num (a b : Word) : arithNum.le (num a) (num b) = F32.le a b :=
  compareNum_num (fun _ _ h => by simp [F32.le, h]) (fun _ _ h => by simp [F32.le, h]) a b

@[simp] theorem gt_num (a b : Word) : arithNum.gt (num a) (num b) = F32.gt a b :=
  compareNum_num (fun _ _ h => by simp [F32.gt, F32.lt, h]) (fun _ _ h => by simp [F32.gt, F32.lt, h]) a b

@[simp] theorem ge_num (a b : Word) : arithNum.ge (num a) (num b) = F32.ge a b :=
  compareNum_num (fun _ _ h => by simp [F32.ge, F32.le, h]) (fun _ _ h => by simp [F32.ge, F32.le, h]) a b

end Sys2Proof.Machine
end

