-- ==== Sys2Proof/Laws/Decode.lean ====
section
/-! SUPPORT. The fields of a header word, the opcode map, and how the decoder depends on the stream. -/

namespace Sys2Proof

/-! ### The opcode map -/

/-- The opcode of a byte is the row that has that byte. -/
theorem Opcode.ofByte_eq_some {b : BitVec 8} {o : Opcode} (h : Opcode.ofByte b = some o) : o.byte = b := by
  have := List.find?_some h
  simpa using this

@[simp] theorem Opcode.ofByte_byte (o : Opcode) : Opcode.ofByte o.byte = some o := by
  cases o <;> decide

theorem Opcode.byte_injective {o p : Opcode} (h : o.byte = p.byte) : o = p := by
  have := Opcode.ofByte_byte o
  rw [h, Opcode.ofByte_byte] at this
  exact (Option.some.inj this).symm

/-! ### Header words -/

@[simp] theorem headerOpc_headerWord (o : Opcode) (en : Bool) : headerOpc (headerWord o en) = o.byte := by
  cases o <;> cases en <;> decide

@[simp] theorem headerEn_headerWord (o : Opcode) (en : Bool) : headerEn (headerWord o en) = en := by
  cases o <;> cases en <;> decide

@[simp] theorem headerRsv_headerWord (o : Opcode) (en : Bool) : headerRsv (headerWord o en) = 0#23 := by
  cases o <;> cases en <;> decide

theorem toNat_headerOpc (h : Word) : (headerOpc h).toNat = h.toNat % 2 ^ 8 := by
  simp [headerOpc, BitVec.extractLsb'_toNat]

theorem toNat_headerRsv (h : Word) : (headerRsv h).toNat = h.toNat / 2 ^ 9 := by
  have := h.isLt
  simp only [headerRsv, BitVec.extractLsb'_toNat, Nat.shiftRight_eq_div_pow]
  omega

theorem headerEn_eq (h : Word) : headerEn h = decide (h.toNat / 2 ^ 8 % 2 = 1) := by
  simp [headerEn, BitVec.getLsbD, Nat.testBit_eq_decide_div_mod_eq]

theorem toNat_fields (r : BitVec 23) (e : Bool) (o : BitVec 8) :
    (r ++ BitVec.ofBool e ++ o : BitVec (23 + 1 + 8)).toNat = r.toNat * 2 ^ 9 + e.toNat * 2 ^ 8 + o.toNat := by
  have h1 := o.isLt
  have h2 : e.toNat < 2 := by cases e <;> decide
  rw [BitVec.toNat_append, BitVec.toNat_append, BitVec.toNat_ofBool]
  rw [← Nat.shiftLeft_add_eq_or_of_lt (i := 1) (by simpa using h2), ← Nat.shiftLeft_add_eq_or_of_lt h1,
    Nat.shiftLeft_eq, Nat.shiftLeft_eq]
  ring

/-- A header word is its three fields (R81). -/
theorem header_eq_fields (h : Word) :
    h = headerRsv h ++ BitVec.ofBool (headerEn h) ++ headerOpc h := by
  apply BitVec.eq_of_toNat_eq
  refine Eq.trans ?_ (toNat_fields _ _ _).symm
  rw [toNat_headerOpc, toNat_headerRsv, headerEn_eq]
  have : (decide (h.toNat / 2 ^ 8 % 2 = 1)).toNat = h.toNat / 2 ^ 8 % 2 := by
    rcases Nat.mod_two_eq_zero_or_one (h.toNat / 2 ^ 8) with h0 | h0 <;> rw [h0] <;> rfl
  rw [this]
  omega

/-- What the header test says: the legal words are the words of the 19 opcodes with `RSV = 0`, and `EN`
only in a setter (R86). -/
theorem headerTest_legal {h : Word} {o : Opcode} :
    headerTest h = .legal o ↔ ∃ en, h = headerWord o en ∧ (en = true → o.isSetter = true) := by
  constructor
  · intro hl
    unfold headerTest at hl
    split at hl
    · cases hl
    · rename_i p hp
      split at hl
      · cases hl
      · rename_i hr
        split at hl
        · cases hl
        · rename_i he
          cases hl
          refine ⟨headerEn h, ?_, fun hen => ?_⟩
          · have hb := Opcode.ofByte_eq_some hp
            have := header_eq_fields h
            rw [not_not.mp hr, ← hb] at this
            exact this
          · simpa [hen] using he
  · rintro ⟨en, rfl, hen⟩
    unfold headerTest
    rw [headerOpc_headerWord, Opcode.ofByte_byte]
    simp only [headerRsv_headerWord, ne_eq, not_true_eq_false, if_false, headerEn_headerWord]
    cases en
    · simp
    · simp [hen rfl]

theorem headerTest_headerWord {o : Opcode} {en : Bool} (h : en = true → o.isSetter = true) :
    headerTest (headerWord o en) = .legal o :=
  headerTest_legal.mpr ⟨en, rfl, h⟩

/-- The header of a command is legal, and its `EN` bit is the command's. -/
@[simp] theorem headerTest_of_command (i : Instr) : headerTest (headerWord i.opcode i.en) = .legal i.opcode := by
  apply headerTest_headerWord
  cases i <;> simp [Instr.en, Instr.opcode, Opcode.isSetter]

/-! ### The decoder and the stream -/

theorem takeVector_append {n : Word} {v : List Word} (rest : List Word) (h : countMatches n v = true) :
    takeVector n (v ++ rest) = some (v, rest) := by
  simp only [countMatches, beq_iff_eq] at h
  simp [takeVector, ← h]

theorem takeVector_some {n : Word} {ws v r : List Word} (h : takeVector n ws = some (v, r)) :
    ws = v ++ r ∧ countMatches n v = true := by
  unfold takeVector at h
  split at h
  · cases h
  · rename_i hl
    simp only [Option.some.injEq, Prod.mk.injEq] at h
    obtain ⟨rfl, rfl⟩ := h
    constructor
    · exact (List.take_append_drop _ _).symm
    · simp only [countMatches, List.length_take, beq_iff_eq]
      omega

/-- The decoder on a stream whose header is legal. -/
theorem decode_cons_legal {h : Word} {o : Opcode} (ws : List Word) (hl : headerTest h = .legal o) :
    decode (h :: ws) = decodeOperands o (headerEn h) ws := by
  simp only [decode, hl]

/-- The decoder on a stream whose header is no command. -/
theorem decode_cons_illegal {h : Word} {c : DecodeFault} (ws : List Word) (hl : headerTest h = .illegal c) :
    decode (h :: ws) = .illegal c h := by
  simp only [decode, hl]

/-- The operands of a command, whatever follows them, decode to the command. -/
theorem decodeOperands_operands {i : Instr} (rest : List Word) (hw : i.wf = true) :
    decodeOperands i.opcode i.en (i.operands ++ rest) = .command i rest := by
  cases i with
  | saLoad n v => simp [Instr.opcode, Instr.operands, decodeOperands, takeVector_append rest hw]
  | swMmask fs n m => simp [Instr.opcode, Instr.operands, decodeOperands, takeVector_append rest hw]
  | _ => rfl

/-- A command read after a header of opcode `o` is well formed, is a command of `o` with the header's `EN`
bit if it is a setter, and its operands are the words before the rest. -/
theorem decodeOperands_command {o : Opcode} {en : Bool} {ws rest : List Word} {i : Instr}
    (h : decodeOperands o en ws = .command i rest) :
    i.wf = true ∧ i.opcode = o ∧ (o.isSetter = true → i.en = en) ∧ ws = i.operands ++ rest := by
  cases o <;> simp only [decodeOperands] at h
  case saLoad =>
    split at h
    · split at h
      · rename_i n r v r' hv
        simp only [Decoded.command.injEq] at h
        obtain ⟨rfl, rfl⟩ := h
        have := takeVector_some hv
        exact ⟨this.2, rfl, by simp [Opcode.isSetter], by simp [Instr.operands, this.1]⟩
      · cases h
    · cases h
  case swMmask =>
    split at h
    · split at h
      · rename_i fs n r v r' hv
        simp only [Decoded.command.injEq] at h
        obtain ⟨rfl, rfl⟩ := h
        have := takeVector_some hv
        exact ⟨this.2, rfl, by simp [Opcode.isSetter], by simp [Instr.operands, this.1]⟩
      · cases h
    · cases h
  all_goals
    first
    | (split at h
       · simp only [Decoded.command.injEq] at h
         obtain ⟨rfl, rfl⟩ := h
         exact ⟨rfl, rfl, by simp [Instr.en, Opcode.isSetter], rfl⟩
       · cases h)
    | (simp only [Decoded.command.injEq] at h
       obtain ⟨rfl, rfl⟩ := h
       exact ⟨rfl, rfl, by simp [Opcode.isSetter], rfl⟩)

/-- Words after a command change nothing but the rest. -/
theorem decode_command_append {ws rest : List Word} {i : Instr} (more : List Word)
    (h : decode ws = .command i rest) : decode (ws ++ more) = .command i (rest ++ more) := by
  cases ws with
  | nil => cases h
  | cons w ws =>
    cases ht : headerTest w with
    | illegal c =>
      rw [decode_cons_illegal _ ht] at h
      cases h
    | legal o =>
      rw [decode_cons_legal _ ht] at h
      rw [List.cons_append, decode_cons_legal _ ht]
      obtain ⟨hw, ho, hen, hws⟩ := decodeOperands_command h
      obtain ⟨en, rfl, hs⟩ := headerTest_legal.mp ht
      rw [headerEn_headerWord] at h hen ⊢
      subst ho
      rw [hws, List.append_assoc]
      have key := decodeOperands_operands (rest ++ more) hw
      by_cases hset : i.opcode.isSetter = true
      · rw [← hen hset]
        exact key
      · have hf : en = false := by
          cases en
          · rfl
          · exact absurd (hs rfl) hset
        have hif : i.en = false := by
          cases i <;> first | rfl | simp [Instr.opcode, Opcode.isSetter] at hset
        rw [hf, ← hif]
        exact key

end Sys2Proof
end

