-- ==== Sys2Proof/Laws/State.lean ====
section
/-! SUPPORT. One lemma per field of `State` per update, and the reading and writing of a filter. -/

namespace Sys2Proof.Machine

variable (s : State)

/-! ### Filters of the bank -/

@[simp] theorem Bank.get_set (b : Bank) (t : FilterType) (f : Filter) : (b.set t f).get t = f := by
  cases t <;> rfl

theorem Bank.get_set_ne (b : Bank) {t u : FilterType} (f : Filter) (h : u ≠ t) :
    (b.set t f).get u = b.get u := by
  cases t <;> cases u <;> first | rfl | exact absurd rfl h

@[simp] theorem Bank.set_set (b : Bank) (t : FilterType) (f g : Filter) :
    (b.set t f).set t g = b.set t g := by
  cases t <;> rfl

@[simp] theorem Bank.set_get (b : Bank) (t : FilterType) : b.set t (b.get t) = b := by
  cases t <;> rfl

theorem Bank.ext_get {b c : Bank} (h : ∀ t, b.get t = c.get t) : b = c := by
  have h1 := h .lp
  have h2 := h .hp
  have h3 := h .bs
  have h4 := h .bp
  simp only [Bank.get] at h1 h2 h3 h4
  cases b
  cases c
  simp_all

@[simp] theorem Bank.get_reset (l : Nat) (t : FilterType) : (Bank.reset l).get t = Filter.reset l := by
  cases t <;> rfl

theorem State.filter_def (t : FilterType) : s.filter t = s.bank.get t := rfl

@[simp] theorem State.putFilter_filter (t : FilterType) (f : Filter) : (s.putFilter t f).filter t = f :=
  Bank.get_set s.bank t f

theorem State.putFilter_filter_ne {t u : FilterType} (f : Filter) (h : u ≠ t) :
    (s.putFilter t f).filter u = s.filter u :=
  Bank.get_set_ne s.bank f h

/-! ### Fields of a filter -/

@[simp] theorem Filter.clearDly_en (f : Filter) (l : Nat) : (f.clearDly l).en = f.en := rfl
@[simp] theorem Filter.clearDly_hasc (f : Filter) (l : Nat) : (f.clearDly l).hasc = f.hasc := rfl
@[simp] theorem Filter.clearDly_cutA (f : Filter) (l : Nat) : (f.clearDly l).cutA = f.cutA := rfl
@[simp] theorem Filter.clearDly_cutB (f : Filter) (l : Nat) : (f.clearDly l).cutB = f.cutB := rfl
@[simp] theorem Filter.clearDly_fs (f : Filter) (l : Nat) : (f.clearDly l).fs = f.fs := rfl
@[simp] theorem Filter.clearDly_coef (f : Filter) (l : Nat) : (f.clearDly l).coef = f.coef := rfl
@[simp] theorem Filter.clearDly_dly (f : Filter) (l : Nat) : (f.clearDly l).dly = List.replicate l posZero := rfl

@[simp] theorem Filter.commit_en (f : Filter) (l : Nat) (h : List Word) : (f.commit l h).en = f.en := rfl
@[simp] theorem Filter.commit_hasc (f : Filter) (l : Nat) (h : List Word) : (f.commit l h).hasc = true := rfl
@[simp] theorem Filter.commit_cutA (f : Filter) (l : Nat) (h : List Word) : (f.commit l h).cutA = f.cutA := rfl
@[simp] theorem Filter.commit_cutB (f : Filter) (l : Nat) (h : List Word) : (f.commit l h).cutB = f.cutB := rfl
@[simp] theorem Filter.commit_fs (f : Filter) (l : Nat) (h : List Word) : (f.commit l h).fs = f.fs := rfl
@[simp] theorem Filter.commit_coef (f : Filter) (l : Nat) (h : List Word) : (f.commit l h).coef = h := rfl
@[simp] theorem Filter.commit_dly (f : Filter) (l : Nat) (h : List Word) : (f.commit l h).dly = List.replicate l posZero := rfl

@[simp] theorem Filter.describe_en (f : Filter) (t : FilterType) (en : Bool) (a b fs : Word) : (f.describe t en a b fs).en = en := rfl
@[simp] theorem Filter.describe_hasc (f : Filter) (t : FilterType) (en : Bool) (a b fs : Word) : (f.describe t en a b fs).hasc = f.hasc := rfl
@[simp] theorem Filter.describe_cutA (f : Filter) (t : FilterType) (en : Bool) (a b fs : Word) : (f.describe t en a b fs).cutA = a := rfl
@[simp] theorem Filter.describe_cutB (f : Filter) (t : FilterType) (en : Bool) (a b fs : Word) : (f.describe t en a b fs).cutB = if t.isBand then b else f.cutB := rfl
@[simp] theorem Filter.describe_fs (f : Filter) (t : FilterType) (en : Bool) (a b fs : Word) : (f.describe t en a b fs).fs = fs := rfl
@[simp] theorem Filter.describe_coef (f : Filter) (t : FilterType) (en : Bool) (a b fs : Word) : (f.describe t en a b fs).coef = f.coef := rfl
@[simp] theorem Filter.describe_dly (f : Filter) (t : FilterType) (en : Bool) (a b fs : Word) : (f.describe t en a b fs).dly = f.dly := rfl

/-! ### `State.withWindow` -/

@[simp] theorem State.withWindow_build (x : List Word) : (s.withWindow x).build = s.build := rfl
@[simp] theorem State.withWindow_wbuf (x : List Word) : (s.withWindow x).wbuf = x := rfl
@[simp] theorem State.withWindow_cnt (x : List Word) : (s.withWindow x).cnt = s.cnt := rfl
@[simp] theorem State.withWindow_cbuf (x : List Word) : (s.withWindow x).cbuf = s.cbuf := rfl
@[simp] theorem State.withWindow_mag (x : List Word) : (s.withWindow x).mag = s.mag := rfl
@[simp] theorem State.withWindow_bank (x : List Word) : (s.withWindow x).bank = s.bank := rfl
@[simp] theorem State.withWindow_fault (x : List Word) : (s.withWindow x).fault = s.fault := rfl
@[simp] theorem State.withWindow_fcode (x : List Word) : (s.withWindow x).fcode = s.fcode := rfl
@[simp] theorem State.withWindow_fword (x : List Word) : (s.withWindow x).fword = s.fword := rfl
@[simp] theorem State.withWindow_asm (x : List Word) : (s.withWindow x).asm = s.asm := rfl
@[simp] theorem State.withWindow_rsp (x : List Word) : (s.withWindow x).rsp = s.rsp := rfl
@[simp] theorem State.withWindow_cmdIn (x : List Word) : (s.withWindow x).cmdIn = s.cmdIn := rfl
@[simp] theorem State.withWindow_rst (x : List Word) : (s.withWindow x).rst = s.rst := rfl
@[simp] theorem State.withWindow_saDraw (x : List Word) : (s.withWindow x).saDraw = s.saDraw := rfl
@[simp] theorem State.withWindow_fbDraw (x : List Word) : (s.withWindow x).fbDraw = s.fbDraw := rfl

/-! ### `State.withCnt` -/

@[simp] theorem State.withCnt_build (n : Nat) : (s.withCnt n).build = s.build := rfl
@[simp] theorem State.withCnt_wbuf (n : Nat) : (s.withCnt n).wbuf = s.wbuf := rfl
@[simp] theorem State.withCnt_cnt (n : Nat) : (s.withCnt n).cnt = n := rfl
@[simp] theorem State.withCnt_cbuf (n : Nat) : (s.withCnt n).cbuf = s.cbuf := rfl
@[simp] theorem State.withCnt_mag (n : Nat) : (s.withCnt n).mag = s.mag := rfl
@[simp] theorem State.withCnt_bank (n : Nat) : (s.withCnt n).bank = s.bank := rfl
@[simp] theorem State.withCnt_fault (n : Nat) : (s.withCnt n).fault = s.fault := rfl
@[simp] theorem State.withCnt_fcode (n : Nat) : (s.withCnt n).fcode = s.fcode := rfl
@[simp] theorem State.withCnt_fword (n : Nat) : (s.withCnt n).fword = s.fword := rfl
@[simp] theorem State.withCnt_asm (n : Nat) : (s.withCnt n).asm = s.asm := rfl
@[simp] theorem State.withCnt_rsp (n : Nat) : (s.withCnt n).rsp = s.rsp := rfl
@[simp] theorem State.withCnt_cmdIn (n : Nat) : (s.withCnt n).cmdIn = s.cmdIn := rfl
@[simp] theorem State.withCnt_rst (n : Nat) : (s.withCnt n).rst = s.rst := rfl
@[simp] theorem State.withCnt_saDraw (n : Nat) : (s.withCnt n).saDraw = s.saDraw := rfl
@[simp] theorem State.withCnt_fbDraw (n : Nat) : (s.withCnt n).fbDraw = s.fbDraw := rfl

/-! ### `State.countStage` -/

@[simp] theorem State.countStage_build : (s.countStage).build = s.build := rfl
@[simp] theorem State.countStage_wbuf : (s.countStage).wbuf = s.wbuf := rfl
@[simp] theorem State.countStage_cnt : (s.countStage).cnt = s.cnt := rfl
@[simp] theorem State.countStage_cbuf : (s.countStage).cbuf = s.cbuf := rfl
@[simp] theorem State.countStage_mag : (s.countStage).mag = s.mag := rfl
@[simp] theorem State.countStage_bank : (s.countStage).bank = s.bank := rfl
@[simp] theorem State.countStage_fault : (s.countStage).fault = s.fault := rfl
@[simp] theorem State.countStage_fcode : (s.countStage).fcode = s.fcode := rfl
@[simp] theorem State.countStage_fword : (s.countStage).fword = s.fword := rfl
@[simp] theorem State.countStage_asm : (s.countStage).asm = s.asm := rfl
@[simp] theorem State.countStage_rsp : (s.countStage).rsp = s.rsp := rfl
@[simp] theorem State.countStage_cmdIn : (s.countStage).cmdIn = s.cmdIn := rfl
@[simp] theorem State.countStage_rst : (s.countStage).rst = s.rst := rfl
@[simp] theorem State.countStage_saDraw : (s.countStage).saDraw = s.saDraw := rfl
@[simp] theorem State.countStage_fbDraw : (s.countStage).fbDraw = s.fbDraw + 1 := rfl

/-! ### `State.respond` -/

@[simp] theorem State.respond_build (ws : List Word) : (s.respond ws).build = s.build := rfl
@[simp] theorem State.respond_wbuf (ws : List Word) : (s.respond ws).wbuf = s.wbuf := rfl
@[simp] theorem State.respond_cnt (ws : List Word) : (s.respond ws).cnt = s.cnt := rfl
@[simp] theorem State.respond_cbuf (ws : List Word) : (s.respond ws).cbuf = s.cbuf := rfl
@[simp] theorem State.respond_mag (ws : List Word) : (s.respond ws).mag = s.mag := rfl
@[simp] theorem State.respond_bank (ws : List Word) : (s.respond ws).bank = s.bank := rfl
@[simp] theorem State.respond_fault (ws : List Word) : (s.respond ws).fault = s.fault := rfl
@[simp] theorem State.respond_fcode (ws : List Word) : (s.respond ws).fcode = s.fcode := rfl
@[simp] theorem State.respond_fword (ws : List Word) : (s.respond ws).fword = s.fword := rfl
@[simp] theorem State.respond_asm (ws : List Word) : (s.respond ws).asm = s.asm := rfl
@[simp] theorem State.respond_rsp (ws : List Word) : (s.respond ws).rsp = s.rsp ++ ws := rfl
@[simp] theorem State.respond_cmdIn (ws : List Word) : (s.respond ws).cmdIn = s.cmdIn := rfl
@[simp] theorem State.respond_rst (ws : List Word) : (s.respond ws).rst = s.rst := rfl
@[simp] theorem State.respond_saDraw (ws : List Word) : (s.respond ws).saDraw = s.saDraw := rfl
@[simp] theorem State.respond_fbDraw (ws : List Word) : (s.respond ws).fbDraw = s.fbDraw := rfl

/-! ### `State.putFilter` -/

@[simp] theorem State.putFilter_build (t : FilterType) (f : Filter) : (s.putFilter t f).build = s.build := rfl
@[simp] theorem State.putFilter_wbuf (t : FilterType) (f : Filter) : (s.putFilter t f).wbuf = s.wbuf := rfl
@[simp] theorem State.putFilter_cnt (t : FilterType) (f : Filter) : (s.putFilter t f).cnt = s.cnt := rfl
@[simp] theorem State.putFilter_cbuf (t : FilterType) (f : Filter) : (s.putFilter t f).cbuf = s.cbuf := rfl
@[simp] theorem State.putFilter_mag (t : FilterType) (f : Filter) : (s.putFilter t f).mag = s.mag := rfl
@[simp] theorem State.putFilter_bank (t : FilterType) (f : Filter) :
    (s.putFilter t f).bank = s.bank.set t f := rfl
@[simp] theorem State.putFilter_fault (t : FilterType) (f : Filter) : (s.putFilter t f).fault = s.fault := rfl
@[simp] theorem State.putFilter_fcode (t : FilterType) (f : Filter) : (s.putFilter t f).fcode = s.fcode := rfl
@[simp] theorem State.putFilter_fword (t : FilterType) (f : Filter) : (s.putFilter t f).fword = s.fword := rfl
@[simp] theorem State.putFilter_asm (t : FilterType) (f : Filter) : (s.putFilter t f).asm = s.asm := rfl
@[simp] theorem State.putFilter_rsp (t : FilterType) (f : Filter) : (s.putFilter t f).rsp = s.rsp := rfl
@[simp] theorem State.putFilter_cmdIn (t : FilterType) (f : Filter) : (s.putFilter t f).cmdIn = s.cmdIn := rfl
@[simp] theorem State.putFilter_rst (t : FilterType) (f : Filter) : (s.putFilter t f).rst = s.rst := rfl
@[simp] theorem State.putFilter_saDraw (t : FilterType) (f : Filter) :
    (s.putFilter t f).saDraw = s.saDraw := rfl
@[simp] theorem State.putFilter_fbDraw (t : FilterType) (f : Filter) :
    (s.putFilter t f).fbDraw = s.fbDraw := rfl

/-! ### `State.frame` -/

@[simp] theorem State.frame_build : (s.frame).build = s.build := rfl
@[simp] theorem State.frame_wbuf : (s.frame).wbuf = s.wbuf := rfl
@[simp] theorem State.frame_cnt : (s.frame).cnt = s.cnt := rfl
@[simp] theorem State.frame_cbuf : (s.frame).cbuf = dft s.build s.wbuf := rfl
@[simp] theorem State.frame_mag :
    (s.frame).mag = magnitudes (arithAt .sa s.saDraw) (dft s.build s.wbuf) := rfl
@[simp] theorem State.frame_bank : (s.frame).bank = s.bank := rfl
@[simp] theorem State.frame_fault : (s.frame).fault = s.fault := rfl
@[simp] theorem State.frame_fcode : (s.frame).fcode = s.fcode := rfl
@[simp] theorem State.frame_fword : (s.frame).fword = s.fword := rfl
@[simp] theorem State.frame_asm : (s.frame).asm = s.asm := rfl
@[simp] theorem State.frame_rsp : (s.frame).rsp = s.rsp := rfl
@[simp] theorem State.frame_cmdIn : (s.frame).cmdIn = s.cmdIn := rfl
@[simp] theorem State.frame_rst : (s.frame).rst = s.rst := rfl
@[simp] theorem State.frame_saDraw : (s.frame).saDraw = s.saDraw + 1 := rfl
@[simp] theorem State.frame_fbDraw : (s.frame).fbDraw = s.fbDraw := rfl

/-! ### `State.enterFault` -/

@[simp] theorem State.enterFault_build (c : DecodeFault) (h : Word) :
    (s.enterFault c h).build = s.build := rfl
@[simp] theorem State.enterFault_wbuf (c : DecodeFault) (h : Word) : (s.enterFault c h).wbuf = s.wbuf := rfl
@[simp] theorem State.enterFault_cnt (c : DecodeFault) (h : Word) : (s.enterFault c h).cnt = s.cnt := rfl
@[simp] theorem State.enterFault_cbuf (c : DecodeFault) (h : Word) : (s.enterFault c h).cbuf = s.cbuf := rfl
@[simp] theorem State.enterFault_mag (c : DecodeFault) (h : Word) : (s.enterFault c h).mag = s.mag := rfl
@[simp] theorem State.enterFault_bank (c : DecodeFault) (h : Word) : (s.enterFault c h).bank = s.bank := rfl
@[simp] theorem State.enterFault_fault (c : DecodeFault) (h : Word) : (s.enterFault c h).fault = true := rfl
@[simp] theorem State.enterFault_fcode (c : DecodeFault) (h : Word) : (s.enterFault c h).fcode = c.code := rfl
@[simp] theorem State.enterFault_fword (c : DecodeFault) (h : Word) : (s.enterFault c h).fword = h := rfl
@[simp] theorem State.enterFault_asm (c : DecodeFault) (h : Word) : (s.enterFault c h).asm = [] := rfl
@[simp] theorem State.enterFault_rsp (c : DecodeFault) (h : Word) : (s.enterFault c h).rsp = s.rsp := rfl
@[simp] theorem State.enterFault_cmdIn (c : DecodeFault) (h : Word) :
    (s.enterFault c h).cmdIn = s.cmdIn := rfl
@[simp] theorem State.enterFault_rst (c : DecodeFault) (h : Word) : (s.enterFault c h).rst = s.rst := rfl
@[simp] theorem State.enterFault_saDraw (c : DecodeFault) (h : Word) :
    (s.enterFault c h).saDraw = s.saDraw := rfl
@[simp] theorem State.enterFault_fbDraw (c : DecodeFault) (h : Word) :
    (s.enterFault c h).fbDraw = s.fbDraw := rfl

/-! ### `State.hardReset` -/

@[simp] theorem State.hardReset_build : (s.hardReset).build = s.build := rfl
@[simp] theorem State.hardReset_wbuf : (s.hardReset).wbuf = List.replicate s.build.w posZero := rfl
@[simp] theorem State.hardReset_cnt : (s.hardReset).cnt = 0 := rfl
@[simp] theorem State.hardReset_cbuf : (s.hardReset).cbuf = List.replicate s.build.nb Cplx.zero := rfl
@[simp] theorem State.hardReset_mag : (s.hardReset).mag = List.replicate s.build.nb posZero := rfl
@[simp] theorem State.hardReset_bank : (s.hardReset).bank = Bank.reset s.build.l := rfl
@[simp] theorem State.hardReset_fault : (s.hardReset).fault = false := rfl
@[simp] theorem State.hardReset_fcode : (s.hardReset).fcode = 0#2 := rfl
@[simp] theorem State.hardReset_fword : (s.hardReset).fword = 0x00000000#32 := rfl
@[simp] theorem State.hardReset_asm : (s.hardReset).asm = [] := rfl
@[simp] theorem State.hardReset_rsp : (s.hardReset).rsp = [] := rfl
@[simp] theorem State.hardReset_cmdIn : (s.hardReset).cmdIn = s.cmdIn := rfl
@[simp] theorem State.hardReset_rst : (s.hardReset).rst = s.rst := rfl
@[simp] theorem State.hardReset_saDraw : (s.hardReset).saDraw = s.saDraw := rfl
@[simp] theorem State.hardReset_fbDraw : (s.hardReset).fbDraw = s.fbDraw := rfl

/-! ### `State.offer` -/

@[simp] theorem State.offer_build (ws : List Word) : (s.offer ws).build = s.build := rfl
@[simp] theorem State.offer_wbuf (ws : List Word) : (s.offer ws).wbuf = s.wbuf := rfl
@[simp] theorem State.offer_cnt (ws : List Word) : (s.offer ws).cnt = s.cnt := rfl
@[simp] theorem State.offer_cbuf (ws : List Word) : (s.offer ws).cbuf = s.cbuf := rfl
@[simp] theorem State.offer_mag (ws : List Word) : (s.offer ws).mag = s.mag := rfl
@[simp] theorem State.offer_bank (ws : List Word) : (s.offer ws).bank = s.bank := rfl
@[simp] theorem State.offer_fault (ws : List Word) : (s.offer ws).fault = s.fault := rfl
@[simp] theorem State.offer_fcode (ws : List Word) : (s.offer ws).fcode = s.fcode := rfl
@[simp] theorem State.offer_fword (ws : List Word) : (s.offer ws).fword = s.fword := rfl
@[simp] theorem State.offer_asm (ws : List Word) : (s.offer ws).asm = s.asm := rfl
@[simp] theorem State.offer_rsp (ws : List Word) : (s.offer ws).rsp = s.rsp := rfl
@[simp] theorem State.offer_cmdIn (ws : List Word) : (s.offer ws).cmdIn = s.cmdIn ++ ws := rfl
@[simp] theorem State.offer_rst (ws : List Word) : (s.offer ws).rst = s.rst := rfl
@[simp] theorem State.offer_saDraw (ws : List Word) : (s.offer ws).saDraw = s.saDraw := rfl
@[simp] theorem State.offer_fbDraw (ws : List Word) : (s.offer ws).fbDraw = s.fbDraw := rfl

/-! ### `State.driveRst` -/

@[simp] theorem State.driveRst_build (level : Bool) : (s.driveRst level).build = s.build := rfl
@[simp] theorem State.driveRst_wbuf (level : Bool) : (s.driveRst level).wbuf = s.wbuf := rfl
@[simp] theorem State.driveRst_cnt (level : Bool) : (s.driveRst level).cnt = s.cnt := rfl
@[simp] theorem State.driveRst_cbuf (level : Bool) : (s.driveRst level).cbuf = s.cbuf := rfl
@[simp] theorem State.driveRst_mag (level : Bool) : (s.driveRst level).mag = s.mag := rfl
@[simp] theorem State.driveRst_bank (level : Bool) : (s.driveRst level).bank = s.bank := rfl
@[simp] theorem State.driveRst_fault (level : Bool) : (s.driveRst level).fault = s.fault := rfl
@[simp] theorem State.driveRst_fcode (level : Bool) : (s.driveRst level).fcode = s.fcode := rfl
@[simp] theorem State.driveRst_fword (level : Bool) : (s.driveRst level).fword = s.fword := rfl
@[simp] theorem State.driveRst_asm (level : Bool) : (s.driveRst level).asm = s.asm := rfl
@[simp] theorem State.driveRst_rsp (level : Bool) : (s.driveRst level).rsp = s.rsp := rfl
@[simp] theorem State.driveRst_cmdIn (level : Bool) : (s.driveRst level).cmdIn = s.cmdIn := rfl
@[simp] theorem State.driveRst_rst (level : Bool) : (s.driveRst level).rst = level := rfl
@[simp] theorem State.driveRst_saDraw (level : Bool) : (s.driveRst level).saDraw = s.saDraw := rfl
@[simp] theorem State.driveRst_fbDraw (level : Bool) : (s.driveRst level).fbDraw = s.fbDraw := rfl

/-! ### `State.takeRsp` -/

@[simp] theorem State.takeRsp_build : (s.takeRsp).build = s.build := rfl
@[simp] theorem State.takeRsp_wbuf : (s.takeRsp).wbuf = s.wbuf := rfl
@[simp] theorem State.takeRsp_cnt : (s.takeRsp).cnt = s.cnt := rfl
@[simp] theorem State.takeRsp_cbuf : (s.takeRsp).cbuf = s.cbuf := rfl
@[simp] theorem State.takeRsp_mag : (s.takeRsp).mag = s.mag := rfl
@[simp] theorem State.takeRsp_bank : (s.takeRsp).bank = s.bank := rfl
@[simp] theorem State.takeRsp_fault : (s.takeRsp).fault = s.fault := rfl
@[simp] theorem State.takeRsp_fcode : (s.takeRsp).fcode = s.fcode := rfl
@[simp] theorem State.takeRsp_fword : (s.takeRsp).fword = s.fword := rfl
@[simp] theorem State.takeRsp_asm : (s.takeRsp).asm = s.asm := rfl
@[simp] theorem State.takeRsp_rsp : (s.takeRsp).rsp = s.rsp.tail := rfl
@[simp] theorem State.takeRsp_cmdIn : (s.takeRsp).cmdIn = s.cmdIn := rfl
@[simp] theorem State.takeRsp_rst : (s.takeRsp).rst = s.rst := rfl
@[simp] theorem State.takeRsp_saDraw : (s.takeRsp).saDraw = s.saDraw := rfl
@[simp] theorem State.takeRsp_fbDraw : (s.takeRsp).fbDraw = s.fbDraw := rfl

/-! ### `State.withCommand` -/

@[simp] theorem State.withCommand_build (ws : List Word) : (s.withCommand ws).build = s.build := rfl
@[simp] theorem State.withCommand_wbuf (ws : List Word) : (s.withCommand ws).wbuf = s.wbuf := rfl
@[simp] theorem State.withCommand_cnt (ws : List Word) : (s.withCommand ws).cnt = s.cnt := rfl
@[simp] theorem State.withCommand_cbuf (ws : List Word) : (s.withCommand ws).cbuf = s.cbuf := rfl
@[simp] theorem State.withCommand_mag (ws : List Word) : (s.withCommand ws).mag = s.mag := rfl
@[simp] theorem State.withCommand_bank (ws : List Word) : (s.withCommand ws).bank = s.bank := rfl
@[simp] theorem State.withCommand_fault (ws : List Word) : (s.withCommand ws).fault = false := rfl
@[simp] theorem State.withCommand_fcode (ws : List Word) : (s.withCommand ws).fcode = 0#2 := rfl
@[simp] theorem State.withCommand_fword (ws : List Word) : (s.withCommand ws).fword = 0x00000000#32 := rfl
@[simp] theorem State.withCommand_asm (ws : List Word) : (s.withCommand ws).asm = ws.dropLast := rfl
@[simp] theorem State.withCommand_rsp (ws : List Word) : (s.withCommand ws).rsp = s.rsp := rfl
@[simp] theorem State.withCommand_cmdIn (ws : List Word) :
    (s.withCommand ws).cmdIn = ws.getLast?.toList := rfl
@[simp] theorem State.withCommand_rst (ws : List Word) : (s.withCommand ws).rst = false := rfl
@[simp] theorem State.withCommand_saDraw (ws : List Word) : (s.withCommand ws).saDraw = s.saDraw := rfl
@[simp] theorem State.withCommand_fbDraw (ws : List Word) : (s.withCommand ws).fbDraw = s.fbDraw := rfl

@[simp] theorem State.respond_filter (ws : List Word) (t : FilterType) : (s.respond ws).filter t = s.filter t := rfl
@[simp] theorem State.frame_filter (t : FilterType) : (s.frame).filter t = s.filter t := rfl
@[simp] theorem State.enterFault_filter (c : DecodeFault) (h : Word) (t : FilterType) : (s.enterFault c h).filter t = s.filter t := rfl
@[simp] theorem State.offer_filter (ws : List Word) (t : FilterType) : (s.offer ws).filter t = s.filter t := rfl
@[simp] theorem State.driveRst_filter (level : Bool) (t : FilterType) : (s.driveRst level).filter t = s.filter t := rfl
@[simp] theorem State.takeRsp_filter (t : FilterType) : (s.takeRsp).filter t = s.filter t := rfl
@[simp] theorem State.withCommand_filter (ws : List Word) (t : FilterType) : (s.withCommand ws).filter t = s.filter t := rfl

@[simp] theorem State.hardReset_filter (t : FilterType) : s.hardReset.filter t = Filter.reset s.build.l :=
  Bank.get_reset _ t

@[simp] theorem State.resetOf_filter (b : Build) (t : FilterType) :
    (State.resetOf b).filter t = Filter.reset b.l :=
  Bank.get_reset _ t

end Sys2Proof.Machine
end

