-- ==== Sys2Proof/Laws/Ops.lean ====
section
/-! SUPPORT. What each shared operation does, said once: the transform and the frame, the generation and the
setters, a stage and the cascade, the masks; then what every command leaves alone. -/

namespace Sys2Proof.Machine

/-! ### The transform and the frame -/

@[simp] theorem length_dft (b : Build) (x : List Word) : (dft b x).length = b.nb := by simp [dft]

@[simp] theorem length_idft (b : Build) (bins : List Cplx) : (idft b bins).length = b.w := by simp [idft]

@[simp] theorem length_magnitudes {F : Type} (A : ArithAt F) (bins : List (CplxOf F)) :
    (magnitudes A bins).length = bins.length := by
  simp [magnitudes]

/-- A forced word keeps its sign only: it is a zero (R126). -/
theorem isZero_zeroIf (r : Word) : F32.isZero (zeroIf true r) = true := by
  rw [F32.isZero_iff, F32.mag]
  refine Nat.eq_of_testBit_eq fun i => ?_
  have h2 : (2 ^ 31).testBit i = decide (31 = i) := Nat.testBit_two_pow
  simp only [zeroIf, if_true, BitVec.toNat_and, Nat.testBit_mod_two_pow, Nat.testBit_and, Nat.zero_testBit]
  rw [show (0x80000000#32).toNat = 2 ^ 31 by decide, h2]
  by_cases h : 31 = i <;> simp [h]

/-- An all-zero window has all-zero bins (R126). -/
theorem dft_of_zeros (b : Build) {x : List Word} (h : ∀ v ∈ x, F32.isZero v = true) :
    ∀ z ∈ dft b x, F32.isZero z.re = true ∧ F32.isZero z.im = true := by
  have hx : x.all F32.isZero = true := List.all_eq_true.mpr h
  intro z hz
  simp only [dft, hx, List.mem_map] at hz
  obtain ⟨k, -, rfl⟩ := hz
  exact ⟨isZero_zeroIf _, isZero_zeroIf _⟩

/-- An all-zero half spectrum has an all-zero inverse transform (R126, R142). -/
theorem idft_of_zeros (b : Build) {bins : List Cplx}
    (h : ∀ z ∈ bins, F32.isZero z.re = true ∧ F32.isZero z.im = true) : ∀ v ∈ idft b bins, F32.isZero v = true := by
  have hf : ∀ w, F32.isZero w = true → F32.isFinite w = true := fun w hw => by
    rw [F32.isZero_iff] at hw
    simp [F32.isFinite, hw]
  have hs : idftSilent b bins = true := by
    simp only [idftSilent, Bool.and_eq_true, List.all_eq_true]
    exact ⟨fun z hz => ⟨(h z hz).1, hf _ (h z hz).2⟩,
      fun z hz => (h z (List.mem_of_mem_take (List.mem_of_mem_drop hz))).2⟩
  intro v hv
  simp only [idft, hs, List.mem_map] at hv
  obtain ⟨k, -, rfl⟩ := hv
  exact isZero_zeroIf _

theorem magnitudes_getElem? {F : Type} (A : ArithAt F) (bins : List (CplxOf F)) (k : Nat) :
    (magnitudes A bins)[k]? = bins[k]?.map fun z => magnitude (A 0 k) z.re z.im := by
  simp [magnitudes]

@[simp] theorem length_cplxWords (bins : List Cplx) : (cplxWords bins).length = 2 * bins.length := by
  induction bins with
  | nil => rfl
  | cons z bins ih =>
    simp only [cplxWords, List.length_cons, ih]
    omega

theorem cplxWords_getElem? {bins : List Cplx} {k : Nat} {z : Cplx} (h : bins[k]? = some z) :
    (cplxWords bins)[2 * k]? = some z.re ∧ (cplxWords bins)[2 * k + 1]? = some z.im := by
  induction bins generalizing k with
  | nil => simp at h
  | cons y bins ih =>
    cases k with
    | zero =>
      simp only [List.getElem?_cons_zero, Option.some.injEq] at h
      subst h
      exact ⟨rfl, rfl⟩
    | succ k =>
      have := ih (by simpa using h)
      simpa [cplxWords, Nat.mul_succ] using this

theorem IsResult_none {w : Word} : IsResult none w ↔ F32.isNaN w = true := Iff.rfl

theorem IsResult_some {v w : Word} : IsResult (some v) w ↔ w = v := Iff.rfl

theorem isResult_orDraw (d : Draw) (op : FloatOp) (a b : Word) (r : Option Word) :
    IsResult r (F32.orDraw d op a b r) := by
  cases r with
  | none => exact F32.isNaN_orDraw_none d op a b
  | some w => exact IsResult_some.mpr (F32.orDraw_some d op a b w)

theorem isResult_add (d : Draw) (a b : Word) : IsResult (F32.add? a b) ((arith32 d).add a b) :=
  isResult_orDraw d .add a b _

theorem isResult_mul (d : Draw) (a b : Word) : IsResult (F32.mul? a b) ((arith32 d).mul a b) :=
  isResult_orDraw d .mul a b _

theorem isResult_sqrt (d : Draw) (a : Word) : IsResult (F32.sqrt? a) ((arith32 d).sqrt a) :=
  isResult_orDraw d .sqrt a a _

theorem isNaN_sqrt (d : Draw) {a : Word} (h : F32.isNaN a = true) :
    F32.isNaN ((arith32 d).sqrt a) = true := by
  have := isResult_sqrt d a
  rwa [F32.sqrt?_nan h, IsResult_none] at this

theorem isNaN_add (d : Draw) {a b : Word} (h : F32.isNaN a = true ∨ F32.isNaN b = true) :
    F32.isNaN ((arith32 d).add a b) = true := by
  have := isResult_add d a b
  rcases h with h | h
  · rwa [F32.add?_nan_left h, IsResult_none] at this
  · rwa [F32.add?_nan_right h, IsResult_none] at this

/-- The magnitude of a bin is the rounded one, or a NaN from the first NaN on (R146). -/
theorem magnitudeOf_magnitude (d : Draw) (re im : Word) :
    MagnitudeOf re im (magnitude (arith32 d) re im) := by
  have hp := isResult_mul d re re
  have hq := isResult_mul d im im
  unfold MagnitudeOf magnitude
  generalize (arith32 d).mul re re = p at hp ⊢
  generalize (arith32 d).mul im im = q at hq ⊢
  generalize F32.mul? re re = p' at hp ⊢
  generalize F32.mul? im im = q' at hq ⊢
  cases p' with
  | none => exact isNaN_sqrt d (isNaN_add d (.inl hp))
  | some p' =>
    cases q' with
    | none => exact isNaN_sqrt d (isNaN_add d (.inr hq))
    | some q' =>
      rw [IsResult_some] at hp hq
      subst hp hq
      have hr := isResult_add d p q
      generalize (arith32 d).add p q = r at hr ⊢
      simp only [Option.bind_some]
      generalize F32.add? p q = r' at hr ⊢
      cases r' with
      | none => exact isNaN_sqrt d hr
      | some r' =>
        rw [IsResult_some] at hr
        subst hr
        exact isResult_sqrt d r

/-- `Frame()` leaves a frame (R146). -/
theorem isFrame_frame (s : State) : IsFrame s.frame := by
  refine ⟨rfl, by simp, fun k z m hz hm => ?_⟩
  rw [State.frame_mag, magnitudes_getElem?] at hm
  rw [State.frame_cbuf] at hz
  rw [hz] at hm
  simp only [Option.map_some, Option.some.injEq] at hm
  subst hm
  exact magnitudeOf_magnitude _ _ _

/-- Every magnitude is a NaN or carries no sign (R24). -/
theorem magnitude_unsigned (d : Draw) (re im : Word) : F32.Unsigned (magnitude (arith32 d) re im) :=
  arith32_sqrt_unsigned d (arith32_add_unsigned d (arith32_mul_self d re) (arith32_mul_self d im))

theorem magnitudes_unsigned (u : DrawUnit) (n : Nat) (bins : List Cplx) :
    ∀ m ∈ magnitudes (arithAt u n) bins, F32.Unsigned m := by
  intro m hm
  obtain ⟨k, hk⟩ := List.getElem?_of_mem hm
  rw [magnitudes_getElem?] at hk
  cases hc : bins[k]? with
  | none => simp [hc] at hk
  | some z =>
    simp only [hc, Option.map_some, Option.some.injEq] at hk
    subst hk
    exact magnitude_unsigned _ _ _

/-! ### The push and the window of `SA.LOAD` -/

theorem exec_saPush_last (x : Word) {s : State} (h : s.cnt = s.build.w - 1) :
    exec (.saPush x) s =
      .next (((s.withWindow (s.wbuf.set s.cnt x)).frame.withCnt 0).respond [0x00000001#32]) := by
  have hf : s.fillsWindow = true := by simp [State.fillsWindow, h]
  simp only [exec, execSaPush, hf, if_true, w2f, b2w]

theorem exec_saPush_more (x : Word) {s : State} (h : s.cnt ≠ s.build.w - 1) :
    exec (.saPush x) s =
      .next (((s.withWindow (s.wbuf.set s.cnt x)).withCnt (s.cnt + 1)).respond [0x00000000#32]) := by
  have hf : s.fillsWindow = false := by simp [State.fillsWindow, h]
  simp only [exec, execSaPush, hf, w2f, b2w, Bool.false_eq_true, if_false]

@[simp] theorem length_loadedWindow (w : Nat) (n : Word) (v : List Word) :
    (loadedWindow w n v).length = w := by
  simp [loadedWindow]

theorem loadedWindow_getElem? {w : Nat} (n : Word) (v : List Word) {i : Nat} (h : i < w) :
    (loadedWindow w n v)[i]? = some (paddedElement n v i) := by
  simp [loadedWindow, h]

/-! ### The thresholds and the guard -/

/-- `SINC_EPS` is positive in every build (V5). -/
theorem sincEps_pos (b : Build) : F32.lt posZero b.sincEps = true := by
  unfold Build.sincEps
  split
  · assumption
  · decide +kernel

/-- `NORM_EPS` is not negative in any build (V6). -/
theorem normEps_nonneg (b : Build) : F32.le posZero b.normEps = true := by
  unfold Build.normEps
  split
  · assumption
  · decide +kernel

/-- A positive binary32 gives itself as `SINC_EPS`, so every positive one is some build's (V5). -/
theorem sincEps_of_pos {b : Build} (h : F32.lt posZero b.sincWord = true) : b.sincEps = b.sincWord := if_pos h

/-- A non-negative binary32 gives itself as `NORM_EPS`, so every one is some build's (V6). -/
theorem normEps_of_nonneg {b : Build} (h : F32.le posZero b.normWord = true) : b.normEps = b.normWord := if_pos h

/-- `Sinc(0) = 1` in every build, for a zero of either sign (R175). -/
theorem sinc_of_isZero (d : Draw) (b : Build) {x : Word} (h : F32.isZero x = true) :
    sinc (arith32 d) b.sincEps x = F32.one := by
  have hx : F32.abs x = posZero := by
    have : x = 0x00000000#32 ∨ x = 0x80000000#32 := by
      rw [F32.isZero_iff] at h
      rw [← F32.pack_sign_mag x, h]
      cases F32.sign x
      · exact .inl (by decide)
      · exact .inr (by decide)
    rcases this with rfl | rfl <;> decide
  have hl : (arith32 d).lt ((arith32 d).abs x) b.sincEps = true := by
    show F32.lt (F32.abs x) b.sincEps = true
    rw [hx]
    exact sincEps_pos b
  rw [sinc, if_pos hl]
  rfl

/-- The guard is the binary32 reading of R171 whatever the NaN draws are. -/
theorem guardOf_arith32 (d : Draw) (t : FilterType) (a b fs : Word) :
    guardOf (arith32 d) t a b fs = guard t a b fs := by
  have h2 : (some F32.two : Option Word) = num F32.two := by decide +kernel
  have h0 : (some posZero : Option Word) = num posZero := by decide +kernel
  have hd : arithNum.div (num fs) arithNum.two = num ((arith32 d).div fs F32.two) := by
    rw [num_div]
    exact congrArg _ h2
  have hz : arithNum.zero = num posZero := h0
  simp only [guard, guardOf, hd, hz, lt_num, gt_num, arith32_lt, arith32_gt]
  rfl

/-! ### Generation and the setters -/

section Generation

variable {F : Type}

@[simp] theorem length_rawTaps (A : ArithAt F) (eps : F) (l : Nat) (t : FilterType) (fa fb : F) :
    (rawTaps A eps l t fa fb).length = l := by
  simp [rawTaps]

@[simp] theorem length_normalise (A : ArithAt F) (e : F) (h : List F) :
    (normalise A e h).length = h.length := by
  unfold normalise
  dsimp only
  split <;> simp

@[simp] theorem length_gen (A : ArithAt F) (eps e : F) (l : Nat) (t : FilterType) (a b fs : F) :
    (gen A eps e l t a b fs).length = l := by
  simp [gen]

end Generation

@[simp] theorem length_coefficients (b : Build) (t : FilterType) (a bb fs : Word) :
    (coefficients b t a bb fs).length = b.l :=
  length_gen _ _ _ _ _ _ _ _

/-- The filter that a setter leaves (R170, R178). -/
def Filter.afterSet (bd : Build) (t : FilterType) (en : Bool) (a b fs : Word) (f : Filter) : Filter :=
  if generates t en a b fs then (f.describe t en a b fs).commit bd.l (coefficients bd t a b fs)
  else f.describe t en a b fs

theorem State.setFilter_eq (s : State) (t : FilterType) (en : Bool) (a b fs : Word) :
    s.setFilter t en a b fs = s.putFilter t ((s.filter t).afterSet s.build t en a b fs) := by
  simp only [State.setFilter, Filter.afterSet]

/-- The operand `b` that the setter of a type passes on: `+0.0` for a type without one (log 17). -/
def bandEdge (t : FilterType) (b : Word) : Word := if t.isBand then b else posZero

theorem guard_bandEdge (t : FilterType) (a b fs : Word) : guard t a (bandEdge t b) fs = guard t a b fs := by
  cases t <;> simp only [guard, guardOf, bandEdge, FilterType.isBand, if_true, Bool.false_eq_true, if_false]

theorem idealTap_unused {F : Type} (A : Arith F) (eps : F) {t : FilterType} (h : t.isBand = false) (n : Int)
    (fa fb fc : F) : idealTap A eps t n fa fb = idealTap A eps t n fa fc := by
  cases t
  · simp only [idealTap]
  · simp only [idealTap]
  · cases h
  · cases h

theorem rawTaps_unused {F : Type} (A : ArithAt F) (eps : F) (l : Nat) {t : FilterType} (h : t.isBand = false)
    (fa fb fc : F) : rawTaps A eps l t fa fb = rawTaps A eps l t fa fc := by
  unfold rawTaps
  refine List.map_congr_left fun i _ => ?_
  rw [idealTap_unused _ _ h _ fa fb fc]

theorem coefficients_bandEdge (bd : Build) (t : FilterType) (a b fs : Word) :
    coefficients bd t a (bandEdge t b) fs = coefficients bd t a b fs := by
  cases h : t.isBand
  · exact congrArg (normalise _ _) (rawTaps_unused _ _ _ h _ _ _)
  · rw [bandEdge, h, if_pos rfl]

/-- Every setter is one operation, whatever `b` is for a type without one (R170). -/
theorem exec_setterOf (t : FilterType) (en : Bool) (a b fs : Word) (s : State) :
    exec (setterOf t en a b fs) s =
      .next (s.putFilter t ((s.filter t).afterSet s.build t en a (bandEdge t b) fs)) := by
  cases t <;>
    simp only [setterOf, exec, execCgSetlp, execCgSethp, execCgSetbs, execCgSetbp, State.setFilter_eq,
      bandEdge, FilterType.isBand, if_true, Bool.false_eq_true, if_false]

/-! ### A stage and the cascade -/

theorem State.stage_runs {s : State} {t : FilterType} (x : Word) (h : (s.filter t).runs = true) :
    s.stage t x =
      (stageOutput t s.fbDraw (s.filter t).coef (shiftIn s.build.l x (s.filter t).dly),
        (s.putFilter t { s.filter t with dly := shiftIn s.build.l x (s.filter t).dly }).countStage) := by
  simp only [State.stage, h, if_true]

theorem State.stage_not_runs {s : State} {t : FilterType} (x : Word) (h : (s.filter t).runs = false) :
    s.stage t x = (x, s) := by
  simp [State.stage, h]

/-- `t` is `s` but for the filters and the count of the stages run. -/
def SameButFilters (s t : State) : Prop := t = { s with bank := t.bank, fbDraw := t.fbDraw }

theorem SameButFilters.trans {s t u : State} (h : SameButFilters s t) (k : SameButFilters t u) :
    SameButFilters s u := by
  unfold SameButFilters at *
  rw [k, h]

theorem SameButFilters.sameControl {s t : State} (h : SameButFilters s t) : SameControl s t := by
  rw [h]
  exact ⟨rfl, rfl, rfl, rfl, rfl, rfl, rfl⟩

theorem SameButFilters.sameAnalyzer {s t : State} (h : SameButFilters s t) : SameAnalyzer s t := by
  rw [h]
  exact ⟨rfl, rfl, rfl, rfl⟩

theorem SameButFilters.rsp {s t : State} (h : SameButFilters s t) : t.rsp = s.rsp := by
  rw [h]

theorem State.stage_frame (s : State) (t : FilterType) (x : Word) : SameButFilters s (s.stage t x).2 := by
  unfold SameButFilters State.stage
  dsimp only
  split
  · simp only [State.putFilter, State.countStage]
  · rfl

/-- Of the filters a stage touches its own delay line only. -/
theorem State.stage_filter (s : State) (t u : FilterType) (x : Word) :
    (s.stage t x).2.filter u =
      if u = t ∧ (s.filter t).runs = true then
        { s.filter t with dly := shiftIn s.build.l x (s.filter t).dly }
      else s.filter u := by
  cases h : (s.filter t).runs
  · rw [State.stage_not_runs x h]
    simp
  · rw [State.stage_runs x h]
    by_cases hu : u = t
    · subst hu
      rw [if_pos ⟨rfl, rfl⟩]
      exact State.putFilter_filter s u _
    · rw [if_neg (fun hc => hu hc.1)]
      exact State.putFilter_filter_ne s _ hu

@[simp] theorem length_shiftIn {l : Nat} (x : Word) (d : List Word) (h : d.length = l) :
    (shiftIn l x d).length = l := by
  simp [shiftIn, h]

theorem shiftIn_eq {l : Nat} (x : Word) {d : List Word} (h : d.length = l) (hl : 1 ≤ l) :
    shiftIn l x d = x :: d.dropLast := by
  unfold shiftIn
  obtain ⟨k, rfl⟩ := Nat.exists_eq_add_of_le' hl
  rw [List.take_succ_cons, List.dropLast_eq_take, h]
  rfl

theorem State.cascade_frame (s : State) (x : Word) : SameButFilters s (s.cascade x).2 :=
  ((State.stage_frame _ _ _).trans (State.stage_frame _ _ _)).trans
    ((State.stage_frame _ _ _).trans (State.stage_frame _ _ _))

/-! ### The masks -/

@[simp] theorem length_maskedMags (s : State) (fs : Word) (m : List Word) :
    (s.maskedMags fs m).length = m.length := by
  simp only [State.maskedMags, List.length_mapIdx]

@[simp] theorem length_maskedBins (s : State) (nfft : Nat) (fs : Word) :
    (s.maskedBins nfft fs).length = s.cbuf.length := by
  simp only [State.maskedBins, List.length_mapIdx]

theorem maskedMags_getElem? (s : State) (fs : Word) (m : List Word) (k : Nat) :
    (s.maskedMags fs m)[k]? = m[k]?.map fun x => if s.zeroBin k fs s.build.w then posZero else x := by
  simp only [State.maskedMags, List.getElem?_mapIdx]

theorem maskedBins_getElem? (s : State) (nfft : Nat) (fs : Word) (k : Nat) :
    (s.maskedBins nfft fs)[k]? = s.cbuf[k]?.map fun z => if s.zeroBin k fs nfft then Cplx.zero else z := by
  simp only [State.maskedBins, List.getElem?_mapIdx]

/-- The bin frequency in terms of the operations of binary32 (R230). -/
theorem binFreq_eq {fs : Word} (h : F32.isNaN fs = false) (k nfft : Nat) :
    binFreq k fs nfft = (F32.mul? (F32.ofNat k) fs).bind fun p => F32.div? p (F32.ofNat nfft) := by
  simp [binFreq, binFreqOf, arithNum, num_of_number h]

theorem binFreq_nan {fs : Word} (h : F32.isNaN fs = true) (k nfft : Nat) : binFreq k fs nfft = none := by
  simp [binFreq, binFreqOf, arithNum, num_of_isNaN h]

/-- The zeroing predicate is the binary32 reading of R230 and R231 whatever the NaN draws are. -/
theorem State.zeroBin_arith32 (d : Draw) (s : State) (k : Nat) (fs : Word) (nfft : Nat) :
    s.zeroBin k fs nfft =
      zeroesOf (arith32 d) (fun t => (s.filter t).en) (fun t => (s.filter t).cutA)
        (fun t => (s.filter t).cutB) (binFreqOf (arith32 d) k fs nfft) := by
  have hf : binFreq k fs nfft = num (binFreqOf (arith32 d) k fs nfft) := by
    simp only [binFreq, binFreqOf, num_div, num_mul, num_ofNat]
  simp only [State.zeroBin, Bank.zeroesFreq, zeroesOf, hf, lt_num, gt_num, le_num, ge_num, arith32_lt,
    arith32_gt, arith32_le, arith32_ge, State.filter]

/-- Which bins are zeroed depends on `EN`, `CUTA` and `CUTB` of the filters alone (R231). -/
theorem State.zeroBin_congr {s t : State}
    (h : ∀ u, (t.filter u).en = (s.filter u).en ∧ (t.filter u).cutA = (s.filter u).cutA ∧
      (t.filter u).cutB = (s.filter u).cutB) (k : Nat) (fs : Word) (nfft : Nat) :
    t.zeroBin k fs nfft = s.zeroBin k fs nfft := by
  simp only [State.filter] at h
  simp only [State.zeroBin, Bank.zeroesFreq, h]

theorem maskedBins_congr {s t : State} (hb : t.bank = s.bank) (hc : t.cbuf = s.cbuf) (nfft : Nat) (fs : Word) :
    t.maskedBins nfft fs = s.maskedBins nfft fs := by
  have h : ∀ k, t.zeroBin k fs nfft = s.zeroBin k fs nfft := fun k =>
    State.zeroBin_congr (fun u => by simp only [State.filter, hb, and_self]) k fs nfft
  simp only [State.maskedBins, hc, h]

/-! ### Every command -/

/-- The state a command leaves. -/
def after (i : Instr) (s : State) : State :=
  match exec i s with
  | .next t => t
  | .fault _ => s
  | .refused _ => s

/-- Every command completes (R250). -/
theorem exec_eq_after (i : Instr) (s : State) : exec i s = .next (after i s) := by
  have h : ∃ t, exec i s = .next t := by cases i <;> exact ⟨_, rfl⟩
  obtain ⟨t, h⟩ := h
  simp only [after, h]

theorem eq_after {i : Instr} {s t : State} (h : exec i s = .next t) : t = after i s := by
  simp only [after, h]

theorem SameControl.refl (s : State) : SameControl s s := ⟨rfl, rfl, rfl, rfl, rfl, rfl, rfl⟩

theorem SameControl.trans {s t u : State} (h : SameControl s t) (k : SameControl t u) : SameControl s u := by
  obtain ⟨h1, h2, h3, h4, h5, h6, h7⟩ := h
  obtain ⟨k1, k2, k3, k4, k5, k6, k7⟩ := k
  exact ⟨k1.trans h1, k2.trans h2, k3.trans h3, k4.trans h4, k5.trans h5, k6.trans h6, k7.trans h7⟩

/-- No command touches the build, the fault state or the command port. -/
theorem sameControl_after (i : Instr) (s : State) : SameControl s (after i s) := by
  cases i
  case saPush x =>
    by_cases h : s.cnt = s.build.w - 1
    · rw [← eq_after (exec_saPush_last x h)]
      exact ⟨rfl, rfl, rfl, rfl, rfl, rfl, rfl⟩
    · rw [← eq_after (exec_saPush_more x h)]
      exact ⟨rfl, rfl, rfl, rfl, rfl, rfl, rfl⟩
  case fbProc x => exact (State.cascade_frame s x).sameControl
  all_goals exact SameControl.refl s

end Sys2Proof.Machine
end

