-- ==== Sys2Proof/Laws/PerInstr.lean ====
section
/-! SUPPORT. Statements made per instruction. Family `FirstWord`: the first word of a command is the `match` value
of its row of R85, with the `EN` bit on top for a setter, and is a legal header of that row. -/

namespace Sys2Proof.Laws.FirstWord

/-- The header of `i` is its row's pattern plus `EN`, and is taken as that row's command (R81, R85). -/
def Statement (i : Instr) : Prop :=
  ∃ h ops, encode i = h :: ops ∧ headerTest h = .legal i.opcode ∧
    h = i.opcode.pattern + (if i.en then 0x00000100#32 else 0x00000000#32)

theorem headerWord_eq (o : Opcode) (en : Bool) :
    headerWord o en = o.pattern + (if en then 0x00000100#32 else 0x00000000#32) := by
  cases o <;> cases en <;> decide

theorem of_command (i : Instr) : Statement i :=
  ⟨_, _, rfl, headerTest_of_command i, headerWord_eq i.opcode i.en⟩

theorem saPush (x : Word) : Statement (.saPush x) := of_command _
theorem saLoad (n : Word) (v : List Word) : Statement (.saLoad n v) := of_command _
theorem saInv : Statement .saInv := of_command _
theorem saRst : Statement .saRst := of_command _
theorem saRdmag : Statement .saRdmag := of_command _
theorem saRdcx : Statement .saRdcx := of_command _
theorem cgSetlp (en : Bool) (cut fs : Word) : Statement (.cgSetlp en cut fs) := of_command _
theorem cgSethp (en : Bool) (cut fs : Word) : Statement (.cgSethp en cut fs) := of_command _
theorem cgSetbs (en : Bool) (lo hi fs : Word) : Statement (.cgSetbs en lo hi fs) := of_command _
theorem cgSetbp (en : Bool) (lo hi fs : Word) : Statement (.cgSetbp en lo hi fs) := of_command _
theorem cgRdfLp : Statement .cgRdfLp := of_command _
theorem cgRdfHp : Statement .cgRdfHp := of_command _
theorem cgRdfBs : Statement .cgRdfBs := of_command _
theorem cgRdfBp : Statement .cgRdfBp := of_command _
theorem fbProc (x : Word) : Statement (.fbProc x) := of_command _
theorem fbRst : Statement .fbRst := of_command _
theorem fbActive : Statement .fbActive := of_command _
theorem swMmask (fs n : Word) (m : List Word) : Statement (.swMmask fs n m) := of_command _
theorem swCmask (nfft fs : Word) : Statement (.swCmask nfft fs) := of_command _

end Sys2Proof.Laws.FirstWord
end

