-- ==== Sys2Proof/Laws/Step.lean ====
section
/-! SUPPORT. What a step can do, said once: the equations of each turn and their inversion. -/

namespace Sys2Proof.Machine

variable {s t : State} {w : Word} {ws : List Word}

/-! ### Taking a command word -/

theorem accept_command {i : Instr} {rest : List Word} (h : decode (s.asm ++ [w]) = .command i rest) :
    accept w s = exec i { s with asm := rest } := by
  simp only [accept, fetch, h, Turn.outcome]

theorem accept_illegal {c : DecodeFault} {h : Word} (hd : decode (s.asm ++ [w]) = .illegal c h) :
    accept w s = .next (s.enterFault c h) := by
  simp only [accept, fetch, hd, Turn.outcome]

theorem accept_incomplete (h : decode (s.asm ++ [w]) = .incomplete) :
    accept w s = .next { s with asm := s.asm ++ [w] } := by
  simp only [accept, fetch, h, Turn.outcome]

/-- The block takes any word, whatever its state (R83, R86). -/
theorem accept_completes (w : Word) (s : State) : ∃ t, accept w s = .next t := by
  cases h : decode (s.asm ++ [w]) with
  | command i rest => exact ⟨_, (accept_command h).trans (exec_eq_after i _)⟩
  | illegal c x => exact ⟨_, accept_illegal h⟩
  | incomplete => exact ⟨_, accept_incomplete h⟩

/-! ### The turns (R265) -/

theorem step_refuse (hb : s.build.ok = false) : step s = .refused .buildOutsideSpec := by
  simp [step, State.turn, hb, Turn.outcome]

theorem step_reset (hb : s.build.ok = true) (hr : s.rst = true) : step s = .next s.hardReset := by
  simp [step, State.turn, hb, hr, Turn.outcome]

theorem step_failStop (hb : s.build.ok = true) (hr : s.rst = false) (hf : s.fault = true) :
    step s = .fault .failStop := by
  simp [step, State.turn, hb, hr, hf, Turn.outcome]

theorem step_wait (hb : s.build.ok = true) (hr : s.rst = false) (hf : s.fault = false) (hc : s.cmdIn = []) :
    step s = .fault .awaitingWord := by
  simp [step, State.turn, hb, hr, hf, hc, Turn.outcome]

theorem step_take (hb : s.build.ok = true) (hr : s.rst = false) (hf : s.fault = false)
    (hc : s.cmdIn = w :: ws) : step s = accept w { s with cmdIn := ws } := by
  simp [step, State.turn, hb, hr, hf, hc, accept]

/-- A step is hardware reset, or it takes a word outside fail-stop (R265). -/
theorem step_cases (h : step s = .next t) :
    s.build.ok = true ∧
      ((s.rst = true ∧ t = s.hardReset) ∨
        (s.rst = false ∧ s.fault = false ∧
          ∃ w ws, s.cmdIn = w :: ws ∧ accept w { s with cmdIn := ws } = .next t)) := by
  rcases Bool.eq_false_or_eq_true s.build.ok with hb | hb
  · refine ⟨hb, ?_⟩
    rcases Bool.eq_false_or_eq_true s.rst with hr | hr
    · rw [step_reset hb hr] at h
      cases h
      exact .inl ⟨hr, rfl⟩
    · rcases Bool.eq_false_or_eq_true s.fault with hf | hf
      · rw [step_failStop hb hr hf] at h
        cases h
      · rcases hc : s.cmdIn with _ | ⟨w, ws⟩
        · rw [step_wait hb hr hf hc] at h
          cases h
        · rw [step_take hb hr hf hc] at h
          exact .inr ⟨hr, hf, w, ws, rfl, h⟩
  · rw [step_refuse hb] at h
    cases h

/-- A taken word completes a command, raises the decode fault, or waits (R62, R88). -/
theorem accept_cases (h : accept w s = .next t) :
    (∃ i rest, decode (s.asm ++ [w]) = .command i rest ∧ t = after i { s with asm := rest }) ∨
      (∃ c x, decode (s.asm ++ [w]) = .illegal c x ∧ t = s.enterFault c x) ∨
      (decode (s.asm ++ [w]) = .incomplete ∧ t = { s with asm := s.asm ++ [w] }) := by
  cases hd : decode (s.asm ++ [w]) with
  | command i rest =>
    rw [accept_command hd] at h
    exact .inl ⟨i, rest, rfl, eq_after h⟩
  | illegal c x =>
    rw [accept_illegal hd] at h
    cases h
    exact .inr (.inl ⟨c, x, rfl, rfl⟩)
  | incomplete =>
    rw [accept_incomplete hd] at h
    cases h
    exact .inr (.inr ⟨rfl, rfl⟩)

/-! ### Where a fault can be in the assembly state -/

/-- A decode fault is the first word's (R88). -/
theorem decode_illegal_head {c : DecodeFault} {x : Word} (h : decode ws = .illegal c x) :
    ∃ r, ws = x :: r ∧ headerTest x = .illegal c := by
  cases ws with
  | nil => cases h
  | cons y r =>
    cases ht : headerTest y with
    | illegal d =>
      rw [decode_cons_illegal _ ht] at h
      cases h
      exact ⟨r, rfl, ht⟩
    | legal o =>
      exfalso
      rw [decode_cons_legal _ ht] at h
      cases o <;> simp only [decodeOperands] at h <;> (repeat' split at h) <;> cases h

/-- A word of a command that has begun never faults: operand words are any words (R83). -/
theorem decode_append_not_illegal {c : DecodeFault} {x : Word} (hn : ws ≠ []) (hi : decode ws = .incomplete) :
    decode (ws ++ [w]) ≠ .illegal c x := by
  intro h
  obtain ⟨r, hr, ht⟩ := decode_illegal_head h
  cases ws with
  | nil => exact hn rfl
  | cons y ys =>
    simp only [List.cons_append, List.cons.injEq] at hr
    rw [hr.1, decode_cons_illegal _ ht] at hi
    cases hi

/-- With the words of an unfinished command and one more, a command takes all of them (R62, R88). -/
theorem decode_append_rest {i : Instr} {rest : List Word} (hi : decode ws = .incomplete)
    (h : decode (ws ++ [w]) = .command i rest) : rest = [] := by
  cases ws with
  | nil =>
    cases ht : headerTest w with
    | illegal c =>
      rw [List.nil_append, decode_cons_illegal _ ht] at h
      cases h
    | legal o =>
      rw [List.nil_append, decode_cons_legal _ ht] at h
      have := (decodeOperands_command h).2.2.2
      exact (List.append_eq_nil_iff.mp this.symm).2
  | cons y ys =>
    cases ht : headerTest y with
    | illegal c =>
      rw [decode_cons_illegal _ ht] at hi
      cases hi
    | legal o =>
      rw [List.cons_append, decode_cons_legal _ ht] at h
      rw [decode_cons_legal _ ht] at hi
      obtain ⟨hw, ho, he, hws⟩ := decodeOperands_command h
      rcases List.eq_nil_or_concat rest with rfl | ⟨r, z, rfl⟩
      · rfl
      · exfalso
        rw [List.concat_eq_append, ← List.append_assoc] at hws
        have hys : ys = i.operands ++ r := by
          have := congrArg List.dropLast hws
          simpa using this
        subst hys
        have hd : decode (headerWord i.opcode i.en :: (i.operands ++ r)) = .command i r := by
          rw [decode_cons_legal _ (headerTest_of_command i), headerEn_headerWord]
          exact decodeOperands_operands r hw
        by_cases hset : o.isSetter = true
        · have hk := decodeOperands_operands r hw
          rw [ho, he hset] at hk
          rw [hk] at hi
          cases hi
        · have hef : headerEn y = i.en := by
            have h1 : headerEn y = false := by
              cases hy : headerEn y
              · rfl
              · obtain ⟨en, hen, hs⟩ := headerTest_legal.mp ht
                rw [hen, headerEn_headerWord] at hy
                exact absurd (hs hy) hset
            have h2 : i.en = false := by
              subst ho
              cases i <;> first | rfl | simp [Instr.opcode, Opcode.isSetter] at hset
            rw [h1, h2]
          have hk := decodeOperands_operands r hw
          rw [ho, ← hef] at hk
          rw [hk] at hi
          cases hi

end Sys2Proof.Machine
end

