-- ==== Sys2Proof/Laws/Port.lean ====
section
/-! SUPPORT. What the operations at the pins can do: the unfinished mask, the words entering the queue, a word
taken, an edge. -/

namespace Sys2Proof.Machine

variable {s : State} {p q : PortState}

/-! ### The unfinished mask -/

theorem State.openMask_eq_some {fs : Word} {m : List Word} :
    s.openMask = some (fs, m) ↔ ∃ h n, s.asm = h :: fs :: n :: m ∧ headerTest h = .legal .swMmask := by
  unfold State.openMask
  constructor
  · intro h
    split at h
    · split at h
      · cases h
        exact ⟨_, _, by assumption, by assumption⟩
      · cases h
    · cases h
  · rintro ⟨h, n, ha, ht⟩
    simp [ha, ht]

theorem State.openMask_nil (h : s.asm = []) : s.openMask = none := by simp [State.openMask, h]

theorem State.earlyWords_nil (h : s.asm = []) : s.earlyWords = [] := by
  simp [State.earlyWords, State.openMask_nil h]

theorem State.earlyWords_eq {h fs n : Word} {m : List Word} (ha : s.asm = h :: fs :: n :: m)
    (ht : headerTest h = .legal .swMmask) : s.earlyWords = s.maskedMags fs m := by
  simp [State.earlyWords, State.openMask, ha, ht]

theorem State.earlyWords_of_not_open (h : s.openMask = none) : s.earlyWords = [] := by
  simp [State.earlyWords, h]

/-- Word `k` of the answer depends on nothing after magnitude `k` (R75). -/
theorem State.maskedMags_take (s : State) (fs : Word) (m : List Word) (k : Nat) :
    s.maskedMags fs (m.take k) = (s.maskedMags fs m).take k := by
  apply List.ext_getElem?
  intro i
  simp only [maskedMags_getElem?, List.getElem?_take]
  by_cases hi : i < k <;> simp [hi]

/-! ### Words entering the queue -/

@[simp] theorem PortState.give_core (b : Bool) : (p.give b).core = p.core := by
  unfold PortState.give
  split <;> rfl

@[simp] theorem PortState.give_sent (b : Bool) : (p.give b).sent = p.sent := by
  unfold PortState.give
  split <;> rfl

theorem PortState.fill_core (d n : Nat) :
    (p.fill d n).core = { p.core with rsp := (p.fill d n).core.rsp } := rfl

@[simp] theorem PortState.fill_earlyWords (d n : Nat) : (p.fill d n).core.earlyWords = p.core.earlyWords := rfl

@[simp] theorem PortState.fill_openMask (d n : Nat) : (p.fill d n).core.openMask = p.core.openMask := rfl

/-- A list is what is taken of it and what is left after that many. -/
theorem take_append_drop_length (l : List Word) (k : Nat) : l.take k ++ l.drop (l.take k).length = l := by
  rw [List.length_take]
  rcases Nat.le_total k l.length with h | h
  · rw [Nat.min_eq_left h, List.take_append_drop]
  · rw [Nat.min_eq_right h, List.drop_length, List.take_of_length_le h, List.append_nil]

/-- Filling the queue moves words from those pending to its end, and neither loses nor makes any. -/
theorem PortState.fill_stream (d n : Nat) :
    (p.fill d n).queue ++ (p.fill d n).pending = p.queue ++ p.pending := by
  have h : ∀ k, (p.pending.take k) ++
      (p.core.rsp.drop (p.pending.take k).length ++
        p.core.earlyWords.drop (p.sent + ((p.pending.take k).length - p.core.rsp.length))) = p.pending := by
    intro k
    rw [← List.drop_drop, ← List.drop_append]
    exact take_append_drop_length _ k
  simp only [PortState.fill, PortState.pending, List.append_assoc] at h ⊢
  exact congrArg _ (h _)

/-- The queue never grows beyond its depth. -/
theorem PortState.fill_queue_length (d n : Nat) :
    (p.fill d n).queue.length ≤ max p.queue.length d := by
  simp only [PortState.fill, List.length_append, List.length_take]
  omega

/-! ### A word taken, an edge -/

theorem PortState.accept_eq {w : Word} {t : State} (h : Machine.accept w p.core = .next t) :
    p.accept w =
      .next (if t.asm.isEmpty then ⟨{ t with rsp := t.rsp.drop p.sent }, p.queue, 0⟩ else { p with core := t }) := by
  simp [PortState.accept, h]

theorem PortState.accept_completes (w : Word) (p : PortState) : ∃ q, p.accept w = .next q := by
  obtain ⟨t, h⟩ := Machine.accept_completes w p.core
  exact ⟨_, PortState.accept_eq h⟩

theorem PortState.edge_reset {d : Nat} {i : PinsIn} {c : Pace} (h : i.rst = true) :
    p.edge d i c = .next ⟨p.core.hardReset, [], 0⟩ := by
  simp [PortState.edge, h]

theorem PortState.edge_taken {d : Nat} {i : PinsIn} {c : Pace} (h : i.rst = false)
    (ht : p.cmdTransfer d i c = true) (ha : (p.give (p.rspTransfer d i c)).accept i.cmdData = .next q) :
    p.edge d i c = .next (q.fill d c.move) := by
  simp [PortState.edge, h, ht, PortState.takeIf, ha]

theorem PortState.edge_not_taken {d : Nat} {i : PinsIn} {c : Pace} (h : i.rst = false)
    (ht : p.cmdTransfer d i c = false) :
    p.edge d i c = .next ((p.give (p.rspTransfer d i c)).fill d c.move) := by
  simp [PortState.edge, h, ht, PortState.takeIf]

/-- Every edge has a next state: no operand, no timing and no host stops the block. -/
theorem PortState.edge_completes (d : Nat) (i : PinsIn) (c : Pace) (p : PortState) :
    ∃ q, p.edge d i c = .next q := by
  rcases Bool.eq_false_or_eq_true i.rst with h | h
  · exact ⟨_, PortState.edge_reset h⟩
  · rcases Bool.eq_false_or_eq_true (p.cmdTransfer d i c) with ht | ht
    · obtain ⟨q, hq⟩ := PortState.accept_completes i.cmdData (p.give (p.rspTransfer d i c))
      exact ⟨_, PortState.edge_taken h ht hq⟩
    · exact ⟨_, PortState.edge_not_taken h ht⟩

/-- A word is taken only out of reset and of fail-stop, with no word of a performed command waiting and with
room for its response (R75, R252, R280, R291). -/
theorem PortState.cmdTransfer_iff {d : Nat} {i : PinsIn} {c : Pace} :
    p.cmdTransfer d i c = true ↔
      i.cmdValid = true ∧ i.rst = false ∧ p.core.fault = false ∧ p.core.rsp = [] ∧ p.hasRoom d = true ∧
        c.take = true := by
  simp [PortState.cmdTransfer, PortState.pins, PortState.cmdReady, and_assoc]

end Sys2Proof.Machine
end

