-- ==== Sys2Proof/Tests/Slice0.lean ====
section
/-! SUPPORT. Tests: refused terms, words written out from R81 and R85, the vectors of 95_test_vectors.md that
no open function touches, and for every statement with hypotheses a witness that meets them. -/

namespace Sys2Proof.Tests

set_option Elab.async false

open Sys2Proof.Machine

/-! ### The small build of 95_test_vectors.md and helpers -/

/-- `W = 8`, `L = 5`, `SINC_EPS = 0x358637BD`, `NORM_EPS = +0.0`. -/
def small : Build := ⟨8, 5, 0x358637BD#32, 0x00000000#32⟩

/-- The small block after reset. -/
def fresh : State := State.resetOf small

/-- The state after the commands of a list, one after the other. -/
def afterAll (is : List Instr) (s : State) : State := is.foldl (fun s i => after i s) s

/-- The words a command answers. -/
def answer (i : Instr) (s : State) : List Word := (after i s).rsp.drop s.rsp.length

/-- The words that one word at the front of the stream leaves in the fault state, if it faults. -/
def faultOf (h : Word) : Bool × BitVec 2 × Word :=
  match accept h fresh with
  | .next t => (t.fault, t.fcode, t.fword)
  | .fault _ => (false, 0#2, 0#32)
  | .refused _ => (false, 0#2, 0#32)

/-! ### Ill-formed terms (R82, R84) -/

theorem test_load_with_a_missing_word_is_refused : (Instr.saLoad 2#32 [0#32]).wf = false := by decide
theorem test_load_with_a_word_too_many_is_refused : (Instr.saLoad 0#32 [0#32]).wf = false := by decide
theorem test_mmask_with_a_missing_word_is_refused : (Instr.swMmask 0#32 3#32 [0#32, 0#32]).wf = false := by
  decide
theorem test_mmask_with_its_words_is_well_formed : (Instr.swMmask 0#32 2#32 [0#32, 0#32]).wf = true := by decide

/-! ### Decoding: a word of every row of R85, written out as `RSV ++ EN ++ OPC` (R81) -/

/-- A header word from its 23 reserved bits, `EN` and `OPC`. -/
def header (en : BitVec 1) (opc : BitVec 8) : Word := 0b00000000000000000000000#23 ++ en ++ opc

theorem test_decode_SA_PUSH :
    decode [header 0b0#1 0b00010000#8, 0x3F800000#32] = .command (.saPush 0x3F800000#32) [] := by decide
theorem test_decode_SA_LOAD :
    decode [header 0b0#1 0b00010001#8, 2#32, 7#32, 8#32, 9#32] = .command (.saLoad 2#32 [7#32, 8#32]) [9#32] := by
  decide
theorem test_decode_SA_INV : decode [header 0b0#1 0b00010010#8] = .command .saInv [] := by decide
theorem test_decode_SA_RST : decode [header 0b0#1 0b00010011#8] = .command .saRst [] := by decide
theorem test_decode_SA_RDMAG : decode [header 0b0#1 0b00010100#8] = .command .saRdmag [] := by decide
theorem test_decode_SA_RDCX : decode [header 0b0#1 0b00010101#8] = .command .saRdcx [] := by decide
theorem test_decode_CG_SETLP :
    decode [header 0b1#1 0b00100000#8, 1#32, 2#32] = .command (.cgSetlp true 1#32 2#32) [] := by decide
theorem test_decode_CG_SETHP :
    decode [header 0b0#1 0b00100001#8, 1#32, 2#32] = .command (.cgSethp false 1#32 2#32) [] := by decide
theorem test_decode_CG_SETBS :
    decode [header 0b1#1 0b00100010#8, 1#32, 2#32, 3#32] = .command (.cgSetbs true 1#32 2#32 3#32) [] := by decide
theorem test_decode_CG_SETBP :
    decode [header 0b0#1 0b00100011#8, 1#32, 2#32, 3#32] = .command (.cgSetbp false 1#32 2#32 3#32) [] := by
  decide
theorem test_decode_CG_RDF_LP : decode [header 0b0#1 0b00101000#8] = .command .cgRdfLp [] := by decide
theorem test_decode_CG_RDF_HP : decode [header 0b0#1 0b00101001#8] = .command .cgRdfHp [] := by decide
theorem test_decode_CG_RDF_BS : decode [header 0b0#1 0b00101010#8] = .command .cgRdfBs [] := by decide
theorem test_decode_CG_RDF_BP : decode [header 0b0#1 0b00101011#8] = .command .cgRdfBp [] := by decide
theorem test_decode_FB_PROC :
    decode [header 0b0#1 0b00110000#8, 5#32] = .command (.fbProc 5#32) [] := by decide
theorem test_decode_FB_RST : decode [header 0b0#1 0b00110001#8] = .command .fbRst [] := by decide
theorem test_decode_FB_ACTIVE : decode [header 0b0#1 0b00110010#8] = .command .fbActive [] := by decide
theorem test_decode_SW_MMASK :
    decode [header 0b0#1 0b01000000#8, 4#32, 1#32, 6#32] = .command (.swMmask 4#32 1#32 [6#32]) [] := by decide
theorem test_decode_SW_CMASK :
    decode [header 0b0#1 0b01000001#8, 4#32, 5#32] = .command (.swCmask 4#32 5#32) [] := by decide

/-- The short streams wait (R88). -/
theorem test_decode_waits :
    decode [0x00000010#32] = .incomplete ∧ decode [0x00000120#32, 0#32] = .incomplete ∧
    decode [0x00000023#32, 0#32, 0#32] = .incomplete ∧ decode [0x00000011#32, 1#32] = .incomplete ∧
    decode [0x00000041#32, 0#32] = .incomplete := by decide

/-- The fault rows of 95_test_vectors.md 2.7. -/
theorem test_illegal_opcodes :
    faultOf 0x00000000#32 = (true, 1#2, 0x00000000#32) ∧ faultOf 0xFFFFFFFF#32 = (true, 1#2, 0xFFFFFFFF#32) ∧
    faultOf 0x00000016#32 = (true, 1#2, 0x00000016#32) ∧ faultOf 0x00000024#32 = (true, 1#2, 0x00000024#32) ∧
    faultOf 0x0000002C#32 = (true, 1#2, 0x0000002C#32) ∧ faultOf 0x00000033#32 = (true, 1#2, 0x00000033#32) ∧
    faultOf 0x00000042#32 = (true, 1#2, 0x00000042#32) := by decide +kernel

theorem test_opcode_is_tested_first :
    faultOf 0x000001FF#32 = (true, 1#2, 0x000001FF#32) ∧ faultOf 0x3F800000#32 = (true, 1#2, 0x3F800000#32) := by
  decide +kernel

theorem test_reserved_bits :
    faultOf 0x00000110#32 = (true, 2#2, 0x00000110#32) ∧ faultOf 0x00000128#32 = (true, 2#2, 0x00000128#32) ∧
    faultOf 0x00000220#32 = (true, 2#2, 0x00000220#32) ∧ faultOf 0x80000030#32 = (true, 2#2, 0x80000030#32) := by
  decide +kernel

/-! ### Transport and text -/

/-- R64: `0x0A0B0C0D` goes as `0D 0C 0B 0A`. -/
theorem test_byte_order : streamBytes [0x0A0B0C0D#32] = [0x0D#8, 0x0C#8, 0x0B#8, 0x0A#8] := by decide

theorem test_bytes_come_back : bytesStream (streamBytes [0x0A0B0C0D#32, 7#32]) = [0x0A0B0C0D#32, 7#32] := by
  decide

/-- R89. -/
theorem test_assembler_text :
    asmText (.cgSetlp true 0x43FA0000#32 0x472C4400#32) = "cg.setlp en=1, 0x43FA0000, 0x472C4400".toList := by
  decide +kernel

/-- R90: `cg.off.bp`. -/
theorem test_pseudo_off :
    (Pseudo.cgOff .bp).expand.flatMap encode = [0x00000023#32, 0#32, 0#32, 0#32] := by decide

/-! ### binary32 (R110 to R116): results from the words of 95_test_vectors.md and IEEE 754 -/

theorem test_add_rounds_to_even : F32.add? 0x4B800000#32 0x3F800000#32 = some 0x4B800000#32 := by decide +kernel
theorem test_add_of_opposites_is_plus_zero : F32.add? 0x3F800000#32 0xBF800000#32 = some 0x00000000#32 := by
  decide +kernel
theorem test_sub_of_subnormals : F32.sub? 0x00800000#32 0x00000001#32 = some 0x007FFFFF#32 := by decide +kernel
theorem test_mul_overflows : F32.mul? 0x7F7FFFFF#32 0x40000000#32 = some 0x7F800000#32 := by decide +kernel
theorem test_mul_underflows_gradually : F32.mul? 0x00800000#32 0x3F000000#32 = some 0x00400000#32 := by
  decide +kernel
theorem test_div_by_three : F32.div? 0x3F800000#32 0x40400000#32 = some 0x3EAAAAAB#32 := by decide +kernel
theorem test_div_by_zero : F32.div? 0xBF800000#32 0x00000000#32 = some 0xFF800000#32 := by decide +kernel
theorem test_div_zero_by_zero_is_nan : F32.div? 0x00000000#32 0x80000000#32 = none := by decide +kernel
theorem test_sqrt_of_two : F32.sqrt? 0x40000000#32 = some 0x3FB504F3#32 := by decide +kernel
theorem test_sqrt_of_minus_zero : F32.sqrt? 0x80000000#32 = some 0x80000000#32 := by decide +kernel
theorem test_zeros_are_equal : F32.le 0x00000000#32 0x80000000#32 = true ∧ F32.lt 0x80000000#32 0#32 = false := by
  decide +kernel
theorem test_integers : F32.ofNat 1024 = 0x44800000#32 ∧ F32.ofInt (-1) = 0xBF800000#32 := by decide +kernel

/-! ### Unit SA -/

/-- S1: the seventh push answers 0 and leaves the magnitudes. -/
theorem test_S1 :
    let s := after (.saPush 0x3F800000#32) { fresh with cnt := 6 }
    s.rsp = [0#32] ∧ s.cnt = 7 ∧ s.wbuf[6]? = some 0x3F800000#32 ∧ s.mag = List.replicate 5 0#32 := by
  decide +kernel

/-- SA-8: the eighth push answers 1 and restarts the count. -/
theorem test_eighth_push :
    let s := after (.saPush 0x40000000#32) { fresh with cnt := 7 }
    s.rsp = [1#32] ∧ s.cnt = 0 ∧ s.wbuf = [0#32, 0#32, 0#32, 0#32, 0#32, 0#32, 0#32, 0x40000000#32] := by
  decide +kernel

/-- SA-5: padding; SA-6: truncation. -/
theorem test_load_pads_and_truncates :
    (after (.saLoad 3#32 [1#32, 2#32, 3#32]) fresh).wbuf = [1#32, 2#32, 3#32, 0#32, 0#32, 0#32, 0#32, 0#32] ∧
    (after (.saLoad 10#32 [1#32, 2#32, 3#32, 4#32, 5#32, 6#32, 7#32, 8#32, 9#32, 10#32]) fresh).wbuf =
      [1#32, 2#32, 3#32, 4#32, 5#32, 6#32, 7#32, 8#32] := by decide +kernel

/-- SA-8: a load keeps the count. -/
theorem test_load_keeps_the_count : (after (.saLoad 0#32 []) { fresh with cnt := 3 }).cnt = 3 := by decide +kernel

/-- A frame with bins `(1, -0.0)`, magnitudes 1 and a count of 3. -/
def framed : State :=
  { fresh with
    cbuf := List.replicate 5 ⟨0x3F800000#32, 0x80000000#32⟩, mag := List.replicate 5 0x3F800000#32, cnt := 3 }

/-- SA-10: `sa.rst` clears the magnitudes and the count, not the bins. -/
theorem test_SA_RST :
    let s := after .saRst framed
    s.mag = List.replicate 5 0#32 ∧ s.cnt = 0 ∧ s.cbuf = framed.cbuf := by decide +kernel

/-- P1: the reads. -/
theorem test_reads :
    answer .saRdmag framed = List.replicate 5 0x3F800000#32 ∧
    (answer .saRdcx framed).take 4 = [0x3F800000#32, 0x80000000#32, 0x3F800000#32, 0x80000000#32] := by
  decide +kernel

/-- P1: `sa.inv` answers `W` words. -/
theorem test_inverse_length : (answer .saInv framed).length = 8 := by decide +kernel

/-! ### Unit CG -/

/-- Which rows of 95_test_vectors.md 2.2 generate. -/
theorem test_guard_lowpass :
    guard .lp 0x3F800000#32 0#32 0x41000000#32 = true ∧ guard .lp 0x00000000#32 0#32 0x41000000#32 = false ∧
    guard .lp 0xBF800000#32 0#32 0x41000000#32 = false ∧ guard .lp 0x40800000#32 0#32 0x41000000#32 = false ∧
    guard .lp 0x407FFFFF#32 0#32 0x41000000#32 = true ∧ guard .lp 0x3F800000#32 0#32 0x00000000#32 = false ∧
    guard .lp 0x3F800000#32 0#32 0xC1000000#32 = false ∧ guard .lp 0x3F800000#32 0#32 0x7FC00000#32 = false ∧
    guard .lp 0x7FC00000#32 0#32 0x41000000#32 = false ∧ guard .lp 0x3F800000#32 0#32 0x7F800000#32 = true := by
  decide +kernel

theorem test_guard_bands :
    guard .bp 0x3F800000#32 0x40400000#32 0x41000000#32 = true ∧
    guard .bs 0x3F800000#32 0x3F800000#32 0x41000000#32 = false ∧
    guard .bs 0x40000000#32 0x3F800000#32 0x41000000#32 = false ∧
    guard .bs 0x3F800000#32 0x40800000#32 0x41000000#32 = false ∧
    guard .bs 0x00000000#32 0x40400000#32 0x41000000#32 = false ∧
    guard .bp 0x3F800000#32 0x7FC00000#32 0x41000000#32 = false := by decide +kernel

/-- The reference instance (R127) on the arguments of CG-1: sine and cosine correctly rounded. -/
def reference : Arith Word :=
  { arith32 ⟨.cg, 0, 0, 0⟩ with
    sin := fun a =>
      if a = 0x3FC90FDB#32 then 0x3F800000#32
      else if a = 0xBFC90FDB#32 then 0xBF800000#32
      else if a = 0x40490FDB#32 then 0xB3BBBD2E#32
      else if a = 0xC0490FDB#32 then 0x33BBBD2E#32
      else 0#32
    cos := fun a =>
      if a = 0x00000000#32 then 0x3F800000#32
      else if a = 0x3FC90FDB#32 then 0xB33BBD2E#32
      else if a = 0x40490FDB#32 then 0xBF800000#32
      else if a = 0x4096CBE4#32 then 0x324CDE2E#32
      else if a = 0x40C90FDB#32 then 0x3F800000#32
      else if a = 0x4116CBE4#32 then 0xBF800000#32
      else if a = 0x41490FDB#32 then 0x3F800000#32
      else 0#32 }

/-- The five window words of 95_test_vectors.md 2.3. -/
theorem test_window :
    (List.range 5).map (window reference 5) =
      [0xB2800000#32, 0x3EAE147C#32, 0x3F7FFFFF#32, 0x3EAE147A#32, 0xB2800000#32] := by decide +kernel

/-- CG-1. -/
theorem test_CG_1 :
    gen (fun _ _ => reference) 0x358637BD#32 0#32 5 .lp 0x3F800000#32 0#32 0x41000000#32 =
      [0x25A6D1F0#32, 0x3E1AAEDC#32, 0x3F32A892#32, 0x3E1AAEDA#32, 0x25A6D1F0#32] := by decide +kernel

/-- CG-2. -/
theorem test_CG_2 :
    gen (fun _ _ => reference) 0x358637BD#32 0#32 5 .hp 0x3F800000#32 0#32 0x41000000#32 =
      [0xA652C10E#32, 0xBEC36BB2#32, 0x3FE1B5D9#32, 0xBEC36BAF#32, 0xA652C10E#32] := by decide +kernel

/-- G-10: normalisation is skipped. -/
theorem test_G_10 :
    gen (fun _ _ => reference) 0x358637BD#32 0#32 5 .lp 0x3F800000#32 0#32 0x7F800000#32 =
      [0x80000000#32, 0#32, 0#32, 0#32, 0x80000000#32] := by decide +kernel

/-- The band setters write both edges, the other two none (R25). -/
theorem test_setters_write_their_edges :
    ((after (.cgSetbs false 1#32 2#32 3#32) fresh).filter .bs).cutB = 2#32 ∧
    ((after (.cgSetbp false 1#32 2#32 3#32) fresh).filter .bp).cutB = 2#32 ∧
    ((after (.cgSethp false 1#32 3#32) fresh).filter .hp).cutB = 0#32 ∧
    ((after (.cgSethp false 1#32 3#32) fresh).filter .hp).fs = 3#32 := by decide +kernel

/-- The taps of CG-1 in the low-pass, those of CG-2 in the high-pass (disabled). -/
def loaded : State :=
  { fresh with
    bank :=
      { fresh.bank with
        lp := ⟨true, true, 0x3F800000#32, 0#32, 0x41000000#32,
          [0x25A6D1F0#32, 0x3E1AAEDC#32, 0x3F32A892#32, 0x3E1AAEDA#32, 0x25A6D1F0#32], List.replicate 5 0#32⟩
        hp := ⟨false, true, 0x3F800000#32, 0#32, 0x41000000#32,
          [0xA652C10E#32, 0xBEC36BB2#32, 0x3FE1B5D9#32, 0xBEC36BAF#32, 0xA652C10E#32], List.replicate 5 0#32⟩ } }

/-- G-18: an invalid setter writes the descriptor and keeps taps and `HASC`. -/
theorem test_G_18 :
    let s := after (.cgSetlp true 0x41100000#32 0x41000000#32) loaded
    (s.filter .lp).en = true ∧ (s.filter .lp).hasc = true ∧ (s.filter .lp).cutA = 0x41100000#32 ∧
    (s.filter .lp).coef = (loaded.filter .lp).coef := by decide +kernel

/-- P2, P4: read-backs with and without coefficients. -/
theorem test_read_back :
    answer .cgRdfLp loaded =
      [3#32, 0x3F800000#32, 0#32, 0x41000000#32,
        0x25A6D1F0#32, 0x3E1AAEDC#32, 0x3F32A892#32, 0x3E1AAEDA#32, 0x25A6D1F0#32] ∧
    (answer .cgRdfHp loaded).take 1 = [2#32] ∧ answer .cgRdfBs loaded = [0#32, 0#32, 0#32, 0#32] := by
  decide +kernel

theorem test_read_back_of_the_band_pass :
    answer .cgRdfBp (after (.cgSetbp true 0x40400000#32 0x3F800000#32 0x41000000#32) fresh) =
      [1#32, 0x40400000#32, 0x3F800000#32, 0x41000000#32] := by decide +kernel

/-! ### Unit FB -/

/-- `loaded` with the delay line `d` in the low-pass. -/
def delayed (d : List Word) : State :=
  { loaded with bank := { loaded.bank with lp := { loaded.bank.lp with dly := d } } }

/-- G-1: a valid setter sets `HASC` and clears its delay line. -/
theorem test_G_1 :
    let s := after (.cgSetlp true 0x3F800000#32 0x41000000#32) (delayed [1#32, 2#32, 3#32, 4#32, 5#32])
    (s.filter .lp).hasc = true ∧ (s.filter .lp).dly = List.replicate 5 0#32 := by decide +kernel

/-- FB-1: the first and the second answer of the impulse response are the first two taps. -/
theorem test_FB_1 :
    answer (.fbProc 0x3F800000#32) loaded = [0x25A6D1F0#32] ∧
    answer (.fbProc 0#32) (delayed [0x3F800000#32, 0#32, 0#32, 0#32, 0#32]) = [0x3E1AAEDC#32] ∧
    ((after (.fbProc 0#32) (delayed [0x3F800000#32, 0#32, 0#32, 0#32, 1#32])).filter .lp).dly =
      [0#32, 0x3F800000#32, 0#32, 0#32, 0#32] := by decide +kernel

/-- FB-4: high-pass, then low-pass. -/
theorem test_FB_4 :
    answer (.fbProc 0x3F800000#32)
      { loaded with bank := { loaded.bank with hp := { loaded.bank.hp with en := true } } } =
      [0x8C895604#32] := by decide +kernel

/-- S6: with no stage that runs, bit for bit. -/
theorem test_S6 :
    answer (.fbProc 0x80000000#32) fresh = [0x80000000#32] ∧
    answer (.fbProc 0x7FC12345#32) fresh = [0x7FC12345#32] ∧
    answer (.fbProc 0x7F800001#32) fresh = [0x7F800001#32] ∧
    answer (.fbProc 0x00000001#32) fresh = [0x00000001#32] := by decide +kernel

/-- FB-7: `fb.rst` clears the delay lines and keeps the taps. -/
theorem test_FB_RST : (after .fbRst (delayed [1#32, 2#32, 3#32, 4#32, 5#32])).bank = loaded.bank := by
  decide +kernel

/-- FB-9. -/
theorem test_FB_9 :
    answer .fbActive fresh = [0#32] ∧
    answer .fbActive (after (.cgSetbs true 0#32 0#32 0#32) fresh) = [1#32] ∧
    answer .fbActive (afterAll [.cgSetbs true 0#32 0#32 0#32, .cgSetbs false 0#32 0#32 0#32] fresh) = [0#32] := by
  decide +kernel

/-! ### Unit SW -/

/-- Five magnitudes of 1 masked at 8000 Hz after the commands of a list. -/
def masked (is : List Instr) : List Word :=
  answer (.swMmask 0x45FA0000#32 5#32 (List.replicate 5 0x3F800000#32)) (afterAll is fresh)

/-- SW-2 to SW-5. -/
theorem test_masks :
    masked [.cgSetlp true 0x44FA0000#32 0x45FA0000#32] =
      [0x3F800000#32, 0x3F800000#32, 0x3F800000#32, 0#32, 0#32] ∧
    masked [.cgSethp true 0x447A0000#32 0x45FA0000#32] =
      [0#32, 0x3F800000#32, 0x3F800000#32, 0x3F800000#32, 0x3F800000#32] ∧
    masked [.cgSetbs true 0x447A0000#32 0x44FA0000#32 0x45FA0000#32] =
      [0x3F800000#32, 0#32, 0#32, 0x3F800000#32, 0x3F800000#32] ∧
    masked [.cgSetbp true 0x447A0000#32 0x453B8000#32 0x45FA0000#32] =
      [0#32, 0x3F800000#32, 0x3F800000#32, 0x3F800000#32, 0#32] := by decide +kernel

/-- SW-14: kept words pass bit for bit, zeroed ones become `+0.0`. -/
theorem test_SW_14 :
    answer (.swMmask 0x45FA0000#32 5#32 [0x7FC00001#32, 0x80000000#32, 0x40600000#32, 0xFF800000#32, 0x7FC00000#32])
      (after (.cgSetlp true 0x44FA0000#32 0x45FA0000#32) fresh) =
      [0x7FC00001#32, 0x80000000#32, 0x40600000#32, 0#32, 0#32] := by decide +kernel

/-- SW-15, SW-17: the complex mask, with `nfft = 8` and with `nfft = 0`. -/
theorem test_complex_mask :
    let s := after (.cgSetlp true 0x44FA0000#32 0x45FA0000#32) framed
    let one : Cplx := ⟨0x3F800000#32, 0x80000000#32⟩
    (after (.swCmask 8#32 0x45FA0000#32) s).cbuf = [one, one, one, Cplx.zero, Cplx.zero] ∧
    (after (.swCmask 0#32 0x45FA0000#32) s).cbuf = [one, Cplx.zero, Cplx.zero, Cplx.zero, Cplx.zero] := by
  decide +kernel

/-- R235: the bin frequencies at the defaults are exact: bin 46 is 1981.0546875 Hz, bin 512 is 22050 Hz. -/
theorem test_bin_frequencies :
    binFreq 46 0x472C4400#32 1024 = some 0x44F7A1C0#32 ∧ binFreq 512 0x472C4400#32 1024 = some 0x46AC4400#32 := by
  decide +kernel

/-! ### The step -/

/-- The state after `n` steps, if each has one. -/
def steps : Nat → State → Option State
  | 0, s => some s
  | n + 1, s =>
    match step s with
    | .next t => steps n t
    | .fault _ => none
    | .refused _ => none

/-- P5: an illegal header in mid-stream. -/
theorem test_P5 :
    (steps 3 { fresh with cmdIn := [0x00000010#32, 0x3F000000#32, 0x00000110#32, 0x3F800000#32] }) =
      some { fresh with
        wbuf := 0x3F000000#32 :: List.replicate 7 0#32, cnt := 1, rsp := [0#32]
        fault := true, fcode := 2#2, fword := 0x00000110#32, cmdIn := [0x3F800000#32] } := by decide +kernel

/-- P5: no step in fail-stop; after `rst` everything is as after reset. -/
theorem test_reset_leaves_fail_stop :
    steps 1 { fresh with fault := true, fcode := 2#2, fword := 0x110#32 } = none ∧
    steps 1 { framed with fault := true, fcode := 2#2, fword := 0x110#32, asm := [], rsp := [1#32], rst := true } =
      some { fresh with rst := true } := by decide +kernel

/-- A vector command is performed at its last word, not before. -/
theorem test_load_waits_for_its_words :
    (steps 3 { fresh with cmdIn := [0x00000011#32, 2#32, 5#32, 6#32] }).map (fun s => (s.asm, s.wbuf)) =
      some ([0x00000011#32, 2#32, 5#32], List.replicate 8 0#32) ∧
    (steps 4 { fresh with cmdIn := [0x00000011#32, 2#32, 5#32, 6#32] }).map (fun s => (s.asm, s.wbuf.take 2)) =
      some ([], [5#32, 6#32]) := by decide +kernel

theorem test_table_words :
    decodeTableWord 32 0x12 = some .saInv ∧ decodeTableWord 64 0x400000000000000010 = some (.saPush 0#32) ∧
    decodeTableWord 32 0x123 = some (.cgSetbp true 0#32 0#32 0#32) ∧ decodeTableWord 32 0x112 = none := by decide

/-- The first instruction after reset. -/
theorem test_first_instruction :
    (steps 1 (State.reset.withFetchWord 32 0x32)).map (fun s => s.rsp) = some [0#32] := by decide +kernel

/-! ### The pins -/

/-- The host offers `w`; it takes a response if `ready`; the block is willing and queues up to `move` words. -/
def offering (w : Word) (ready : Bool) (move : Nat) : PinsIn × Pace := (⟨false, true, w, ready⟩, ⟨true, move, 5#32⟩)

/-- R291: a command of five response words at a queue of two stalls a later one until the host has taken
three. -/
theorem test_pins_stall :
    let run := fun xs => portRun 2 xs (PortState.start fresh)
    let rd := offering 0x14#32 false 5
    let drain := offering 0x14#32 true 5
    (run [rd, rd, drain, drain]).commands = [0x14#32] ∧
    (run [rd, rd, drain, drain, drain, rd]).commands = [0x14#32, 0x14#32] ∧
    (run [rd, rd, drain, drain, drain, rd]).responses = [0#32, 0#32, 0#32] := by decide +kernel

/-- The words of `sw.mmask 8000.0, 2, 7, 9`. -/
def maskWords : List Word := [0x40#32, 0x45FA0000#32, 2#32, 7#32, 9#32]

/-- R75: the first masked word is on offer before the second magnitude is taken, and the words of the finished
command are not answered twice. -/
theorem test_pins_early_word :
    let run := fun k ready => portRun 2 ((maskWords.take k).map fun w => offering w ready 1) (PortState.start fresh)
    (run 4 false).now.queue = [7#32] ∧ (run 4 false).now.core.rsp = [] ∧
    (run 5 false).now.queue = [7#32, 9#32] ∧ (run 5 false).now.core.rsp = [] ∧
    (run 5 true).responses = [7#32] ∧ (run 5 true).now.queue = [9#32] := by decide +kernel

/-- R291: with `n = 2 > RSPQ = 1` a host that takes no response is stuck at its second magnitude. -/
theorem test_pins_deadlock :
    let stuck := portRun 1 (maskWords.map fun w => offering w false 1) (PortState.start fresh)
    stuck.commands = maskWords.take 4 ∧ (stuck.now.pins 1 false ⟨true, 1, 5#32⟩).cmdReady = false ∧
    (stuck.now.pins 1 false ⟨true, 1, 5#32⟩).rspData = 7#32 := by decide +kernel

/-- R280: an edge with `rst` high discards a partial command and the responses; no response is offered. -/
theorem test_pins_reset :
    let tr := portRun 2 [offering 0x32#32 false 1, offering 0x10#32 false 1, (⟨true, true, 7#32, true⟩, ⟨true, 1, 5#32⟩)]
      (PortState.start fresh)
    tr.commands = [] ∧ tr.now = PortState.start fresh ∧
    (tr.now.pins 2 true ⟨true, 1, 5#32⟩).cmdReady = false ∧ (tr.now.pins 2 true ⟨true, 1, 5#32⟩).rspData = 5#32 := by
  decide +kernel

/-! ### Witnesses: for every statement with hypotheses, inputs that meet them -/

/-- The bins after reset are zeros. -/
theorem fresh_bins_zero : ∀ z ∈ fresh.cbuf, F32.isZero z.re = true ∧ F32.isZero z.im = true :=
  fun z hz => by rw [List.eq_of_mem_replicate hz]; decide

theorem fresh_inv : fresh.Inv where
  build_ok := by decide
  wbuf_length := by decide
  cnt_lt := by decide
  cbuf_length := by decide
  mag_length := by decide
  mag_unsigned := fun m hm => .inr (by rw [List.eq_of_mem_replicate hm]; decide)
  filter_inv := fun t => by cases t <;> exact ⟨by decide, by decide, fun _ => rfl, fun _ => rfl⟩
  cutB_lp := rfl
  cutB_hp := rfl
  no_fault := fun _ => ⟨rfl, rfl⟩
  fault_cause := fun h => by cases h
  assembling := rfl

theorem fresh_idle : fresh.Idle := ⟨by decide, rfl, rfl, rfl⟩

/-- `DecodeOfEncodeIsTheCommand`, `CommandsEndAtTheirLastWord`: a vector command of no and of two words. -/
theorem witness_well_formed :
    (Instr.saLoad 0#32 []).wf = true ∧ (Instr.swMmask 5#32 2#32 [1#32, 2#32]).wf = true := by decide

/-- `EncodeOfDecodeIsTheStream`. -/
theorem witness_decodes : decode [0x11#32, 1#32, 7#32, 9#32] = .command (.saLoad 1#32 [7#32]) [9#32] := by decide

/-- `BadHeaderRaisesTheDecodeFault`: each clause, at its bounds; no word falls under two. -/
theorem witness_bad_headers :
    fresh.asm = [] ∧
    (0x42 ∉ [0x10, 0x11, 0x12, 0x13, 0x14, 0x15, 0x20, 0x21, 0x22, 0x23, 0x28, 0x29, 0x2A, 0x2B, 0x30, 0x31, 0x32,
      0x40, 0x41]) ∧
    (0x00000220#32).toNat / 2 ^ 9 = 1 ∧ (0x80000030#32).toNat / 2 ^ 9 ≠ 0 ∧
    (0x00000110#32).toNat / 2 ^ 8 % 2 = 1 ∧ (0x00000110#32).toNat / 2 ^ 9 = 0 ∧
    (0x00000123#32).toNat / 2 ^ 8 % 2 = 1 ∧ (0x00000123#32).toNat % 2 ^ 8 ∈ [0x20, 0x21, 0x22, 0x23] ∧
    (0x00000010#32).toNat / 2 ^ 8 % 2 = 0 := by decide

/-- `CommandsEndAtTheirLastWord`, second clause. -/
theorem witness_whole_command :
    decode [0x23#32, 1#32, 2#32, 3#32] = .command (.cgSetbp false 1#32 2#32 3#32) [] ∧ 3 < 4 := by decide

/-- `StepRunsTheDecodedCommand`: the last word of a load, in a state that meets the invariant's clause. -/
theorem witness_last_word :
    let s := { fresh with asm := [0x11#32, 1#32], cmdIn := [7#32, 9#32] }
    s.build.ok = true ∧ s.rst = false ∧ s.fault = false ∧ s.cmdIn = 7#32 :: [9#32] ∧
    decode (s.asm ++ [7#32]) = .command (.saLoad 1#32 [7#32]) [] ∧ decode s.asm = .incomplete := by
  refine ⟨by decide, rfl, rfl, rfl, by decide, by decide⟩

/-- `UnfinishedCommandWaitsForItsWords`, first clause. -/
theorem witness_unfinished :
    let s := { fresh with asm := [0x11#32], cmdIn := [1#32] }
    s.build.ok = true ∧ s.rst = false ∧ s.fault = false ∧ s.cmdIn = 1#32 :: [] ∧
    decode (s.asm ++ [1#32]) = .incomplete := by
  refine ⟨by decide, rfl, rfl, rfl, by decide⟩

/-- `FaultEntryIsFailStop`. -/
theorem witness_fault_entry :
    let s := { fresh with cmdIn := [0x110#32] }
    s.build.ok = true ∧ s.rst = false ∧ s.fault = false ∧ s.asm = [] ∧ s.cmdIn = 0x110#32 :: [] ∧
    headerTest 0x110#32 = .illegal .reservedBits := by
  refine ⟨by decide, rfl, rfl, rfl, rfl, by decide⟩

/-- `OnlyResetLeavesFailStop`: both clauses. -/
theorem witness_fail_stop :
    let s := { fresh with fault := true, fcode := 1#2 }
    s.fault = true ∧ s.build.ok = true ∧ s.rst = false ∧
      step { s with rst := true } = .next ({ s with rst := true } : State).hardReset := by
  refine ⟨rfl, by decide, rfl, rfl⟩

/-- `ResetStepGivesTheResetValues`. -/
theorem witness_reset : fresh.build.ok = true ∧ ({ fresh with rst := true } : State).rst = true := by decide

/-- `UnfinishedCommandWaitsForItsWords`, second clause: also inside a command. -/
theorem witness_no_word :
    let s := { fresh with asm := [0x10#32] }
    s.build.ok = true ∧ s.rst = false ∧ s.fault = false ∧ s.cmdIn = [] := by
  refine ⟨by decide, rfl, rfl, rfl⟩

/-- `EncodedCommandIsPerformed`, `CommandStreamIsTheComposition`. -/
theorem witness_stream :
    fresh.Idle ∧ ∀ i ∈ [Instr.saLoad 1#32 [7#32], Instr.saInv, Instr.fbProc 5#32], i.wf = true :=
  ⟨fresh_idle, by decide⟩

/-- `EveryStepKeepsTheInvariant`: a state that meets the invariant and has a step. -/
theorem witness_invariant_step :
    fresh.Inv ∧ step { fresh with cmdIn := [0x32#32] } = .next (fresh.respond [0#32]) := ⟨fresh_inv, rfl⟩

/-- `ResetMeetsTheInvariant`: the smallest and the default build are builds. -/
theorem witness_builds : (Build.mk 2 3 0#32 0#32).ok = true ∧ Build.default.ok = true := by decide

/-- `ResponseWordCounts`. -/
theorem witness_response :
    fresh.Inv ∧ (Instr.swMmask 0#32 1#32 [5#32]).wf = true ∧
    exec (.swMmask 0#32 1#32 [5#32]) fresh = .next (after (.swMmask 0#32 1#32 [5#32]) fresh) :=
  ⟨fresh_inv, by decide, exec_eq_after _ _⟩

/-- `UnitsDoNotTouchEachOther` (both clauses), `NoCommandReadsTheResponseStream`,
`DescriptorsChangeOnlyByTheirSetter` (its own setter and another command). -/
theorem witness_next :
    exec .saRst fresh = .next (after .saRst fresh) ∧
    exec (.fbProc 1#32) loaded = .next (after (.fbProc 1#32) loaded) ∧
    isSetterOf .lp (.cgSetlp true 1#32 2#32) = true ∧ isSetterOf .lp (.cgSethp true 1#32 2#32) = false ∧
    (loaded.filter .lp).hasc = true := ⟨rfl, exec_eq_after _ _, rfl, rfl, rfl⟩

/-- `StoredSampleRateIsOnlyReadBack`: its own setter, and a command that is none. -/
theorem witness_not_read_back :
    Instr.fbProc 1#32 ≠ readBackOf .lp ∧ Instr.cgSetlp true 1#32 2#32 ≠ readBackOf .lp ∧
    exec (.fbProc 1#32) loaded = .next (after (.fbProc 1#32) loaded) :=
  ⟨by decide, by decide, exec_eq_after _ _⟩

/-- `PushStoresCountsAndFrames`: the first and the last place of the window. -/
theorem witness_push :
    fresh.wbuf.length = fresh.build.w ∧ fresh.cnt < fresh.build.w ∧ fresh.cnt ≠ fresh.build.w - 1 ∧
    ({ fresh with cnt := 7 } : State).cnt < small.w ∧ ({ fresh with cnt := 7 } : State).cnt = small.w - 1 := by
  decide

/-- `LoadReplacesWindowAndFrame`: elements 0 and 2 are loaded from three words, 3 and 7 are padding. -/
theorem witness_load :
    (Instr.saLoad 3#32 [1#32, 2#32, 3#32]).wf = true ∧ 0 < (3#32).toNat ∧ 2 < (3#32).toNat ∧
    (3#32).toNat ≤ 3 ∧ 7 < fresh.build.w := by decide

/-- `AnalyzerReadsAnswerAndWriteNothing`: bins that are all zero. -/
theorem witness_inverse : ∀ z ∈ fresh.cbuf, F32.isZero z.re = true ∧ F32.isZero z.im = true :=
  fresh_bins_zero

/-- `FewerThanWPushesAnswerZero` (none and `W - 1`), `WPushesGiveOneFrame`. -/
theorem witness_pushes :
    fresh.Inv ∧ fresh.cnt = 0 ∧ ([] : List Word).length < fresh.build.w ∧
    (List.replicate 7 5#32).length < fresh.build.w ∧ (List.replicate 8 5#32).length = fresh.build.w :=
  ⟨fresh_inv, by decide, by decide, by decide, by decide⟩

/-- `SetterDescribesAndGenerates`, `TapsDependOnOperandsAndBuildOnly`: the guard held and not held, for a type
with one cutoff and for a band. -/
theorem witness_generates :
    guard .lp 0x3F800000#32 0#32 0x41000000#32 = true ∧
    guard .bp 0x3F800000#32 0x40400000#32 0x41000000#32 = true ∧
    ¬ (true = true ∧ guard .bs 0x3F800000#32 0x3F800000#32 0x41000000#32 = true) ∧
    loaded.build = fresh.build := by decide +kernel

/-- `GuardIsTheOpenIntervalBelowNyquist`: a NaN, a rate and a cutoff not above zero, the largest cutoff below
Nyquist, one at Nyquist, a rate of `+Inf` with a finite and with an infinite cutoff and edge, and a rate of
`-Inf`. -/
theorem witness_guard :
    F32.isNaN 0x7FC00000#32 = true ∧ F32.gt 0x00000000#32 0x00000000#32 = false ∧
    F32.isNaN 0x407FFFFF#32 = false ∧ F32.isNaN 0x41000000#32 = false ∧ F32.isNaN 0x7F800000#32 = false ∧
    guard .lp 0x407FFFFF#32 0#32 0x41000000#32 = true ∧ guard .lp 0x40800000#32 0#32 0x41000000#32 = false ∧
    guard .lp 0x7F7FFFFF#32 0#32 0x7F800000#32 = true ∧ guard .lp 0x7F800000#32 0#32 0x7F800000#32 = false ∧
    guard .bs 0x00000001#32 0x7F7FFFFF#32 0x7F800000#32 = true ∧
    guard .bs 0x00000001#32 0x7F800000#32 0x7F800000#32 = false ∧
    guard .hp 0x3F800000#32 0#32 0xFF800000#32 = false ∧
    2 ≤ F32.expo 0x41000000#32 ∧ 2 ≤ F32.expo 0x7F800000#32 := by decide +kernel

/-- `GuardIsTheOpenIntervalBelowNyquist`: the converse's premise, for a rate of `+Inf` and a cutoff of 1. -/
theorem witness_guard_inside :
    0 < Ideal.extended 0x3F800000#32 ∧ 2 * Ideal.extended 0x3F800000#32 < Ideal.extended 0x7F800000#32 := by
  have h1 : Ideal.extended 0x3F800000#32 = ((1 : ℝ) : EReal) := by
    have hv : F32.value 0x3F800000#32 = 2 ^ 149 := by decide +kernel
    rw [Ideal.extended, if_pos (by decide), Ideal.real, hv]
    norm_num
  have h2 : Ideal.extended 0x7F800000#32 = ⊤ := by
    rw [Ideal.extended, if_neg (by decide), if_pos (by decide), if_neg (by decide)]
  rw [h1, h2]
  exact ⟨by exact_mod_cast one_pos, by rw [EReal.coe_one, mul_one]; exact EReal.coe_lt_top 2⟩

/-- `SettingTwiceEqualsSettingOnce`: each kind of command. -/
theorem witness_setting :
    exec .saRst framed = .next (after .saRst framed) ∧ exec .fbRst loaded = .next (after .fbRst loaded) ∧
    exec (.swCmask 8#32 5#32) framed = .next (after (.swCmask 8#32 5#32) framed) ∧
    exec (setterOf .hp true 1#32 2#32 3#32) fresh = .next (after (setterOf .hp true 1#32 2#32 3#32) fresh) :=
  ⟨exec_eq_after _ _, exec_eq_after _ _, exec_eq_after _ _, exec_eq_after _ _⟩

/-- `IdealTapFormulas`: the centre tap and another one of three. -/
theorem witness_tap : 1 < 3 ∧ ((1 : ℝ) - (((3 - 1) / 2 : Nat) : ℝ) = 0) ∧ ((0 : ℝ) - (((3 - 1) / 2 : Nat) : ℝ) ≠ 0) := by
  norm_num

/-- `IdealTapsAreSymmetric`: the smallest build. -/
theorem witness_length : 3 % 2 = 1 ∧ 3 ≤ 3 := by decide

/-- `TapsAreNormalisedByTheirSum`, ideal clauses: a low-pass of three taps at half of Nyquist. -/
theorem witness_tap_sum : (rawTaps Ideal.realsAt 0 3 .lp ((2 : ℝ) / (8 / 2)) (0 / (8 / 2))).sum ≠ 0 := by
  have hfa : (2 : ℝ) / (8 / 2) = 1 / 2 := by norm_num
  have hs : Real.sin (Real.pi * (2 * (1 / 2) * (-1))) = 0 := by
    rw [show Real.pi * (2 * (1 / 2) * (-1)) = -Real.pi by ring, Real.sin_neg, Real.sin_pi, neg_zero]
  have hp : Real.sin (Real.pi * (2 * (1 / 2) * 1)) = 0 := by
    rw [show Real.pi * (2 * (1 / 2) * 1) = Real.pi by ring, Real.sin_pi]
  have c1 : Real.cos (2 * Real.pi * 1 / 2) = -1 := by
    rw [show 2 * Real.pi * 1 / 2 = Real.pi by ring, Real.cos_pi]
  have c2 : Real.cos (2 * (2 * Real.pi * 1 / 2)) = 1 := by
    rw [show 2 * (2 * Real.pi * 1 / 2) = 2 * Real.pi by ring, Real.cos_two_pi]
  rw [hfa]
  simp [rawTaps, List.range_succ, idealTap, lpTerm, sinc, window, tapOffset, Ideal.realsAt, Ideal.reals, -mul_neg, -mul_one]
  norm_num at *

/-- `ProcWithoutRunningStageIsIdentity`: disabled, and without coefficients. -/
theorem witness_no_stage :
    (fresh.filter .lp).en = false ∧ (fresh.filter .hp).hasc = false ∧ (loaded.filter .hp).en = false := by decide

/-- `ProcRunsTheCascadeInOrder`: a state with a running and with three idle stages. -/
theorem witness_cascade :
    1 ≤ loaded.build.l ∧ (loaded.filter .lp).runs = true ∧ (loaded.filter .hp).runs = false ∧
    ∀ t, (loaded.filter t).dly.length = loaded.build.l := by
  refine ⟨by decide, by decide, by decide, fun t => by cases t <;> decide⟩

/-- `ActiveAnswersAnyEnabled`: both clauses. -/
theorem witness_active : (∃ t, (loaded.filter t).en = true) ∧ ∀ t, (fresh.filter t).en = false :=
  ⟨⟨.lp, rfl⟩, fun t => by cases t <;> rfl⟩

/-- `DelayLinesChangeOnlyByThreeThings`: each of the three changes one. -/
theorem witness_delay_lines :
    let s := delayed [1#32, 2#32, 3#32, 4#32, 5#32]
    ((after (.fbProc 7#32) s).filter .lp).dly ≠ (s.filter .lp).dly ∧
    ((after .fbRst s).filter .lp).dly ≠ (s.filter .lp).dly ∧
    ((after (.cgSetlp true 0x3F800000#32 0x41000000#32) s).filter .lp).dly ≠ (s.filter .lp).dly := by
  decide +kernel

/-- `TapsAreNormalisedByTheirSum`, binary32 clauses: a sum above a threshold, and one that is not; any build. -/
theorem witness_tap_threshold :
    F32.lt small.normEps (F32.abs 0x3F374696#32) = true ∧ F32.lt small.normEps (F32.abs 0x80000000#32) = false ∧
    F32.lt (Build.mk 8 5 0#32 0x3A83126F#32).normEps (F32.abs 0xB8000000#32) = false := by decide +kernel

/-- `InfiniteRateGivesZeroTaps`: the least and the largest cutoff, and an off-centre tap. -/
theorem witness_infinite_rate :
    small.ok = true ∧ F32.isFinite 0x00000001#32 = true ∧ F32.gt 0x00000001#32 0#32 = true ∧
    F32.isFinite 0x7F7FFFFF#32 = true ∧ 1 ≠ small.c ∧ 1 < small.l := by decide +kernel

/-- `SINC_EPS` and `NORM_EPS` as the spec allows them: a word that is none is read as the default (V5, V6). -/
theorem test_thresholds :
    (Build.mk 8 5 0x00000001#32 0x3A83126F#32).sincEps = 0x00000001#32 ∧
    (Build.mk 8 5 0x00000001#32 0x3A83126F#32).normEps = 0x3A83126F#32 ∧
    (Build.mk 8 5 0x80000001#32 0x80000001#32).sincEps = 0x358637BD#32 ∧
    (Build.mk 8 5 0#32 0x7FC00000#32).normEps = 0x00000000#32 := by decide +kernel

/-- `BinFrequencyIsTheRoundedRatio`: each clause: a NaN rate, a finite one with and without an overflow of
`k * fs`, an exact ratio, an infinite rate, and `nfft = 0` with `k = 0`, with `fs = 0` and with neither. -/
theorem witness_bin_frequency :
    binFreq 1 0x7FC00000#32 8 = none ∧ binFreq 4 0x45FA0000#32 8 = some 0x457A0000#32 ∧
    binFreq 4294967295 0x7F7FFFFF#32 4294967295 = some 0x7F800000#32 ∧
    F32.isFinite 0x457A0000#32 = true ∧ F32.isFinite 0x46FA0000#32 = true ∧
    F32.mul? (F32.ofNat 4) 0x45FA0000#32 = some 0x46FA0000#32 ∧
    binFreq 0 0x7F800000#32 8 = none ∧ binFreq 1 0xFF800000#32 8 = some 0xFF800000#32 ∧
    binFreq 0 0x45FA0000#32 0 = none ∧ binFreq 5 0x80000000#32 0 = none ∧
    binFreq 5 0xC5FA0000#32 0 = some 0xFF800000#32 ∧ binFreq 1 0x00000001#32 0 = some 0x7F800000#32 := by
  decide +kernel

/-- `ZeroedBinsAreOutsideTheBands`: a NaN frequency; a finite and an infinite one, each above an infinite, a
finite and a NaN cutoff or not. -/
theorem witness_bin :
    let lp := fun cut => ({ fresh with bank := { fresh.bank with lp := { fresh.bank.lp with en := true, cutA := cut } } } : State)
    binFreq 0 0x45FA0000#32 0 = none ∧ binFreq 4 0x45FA0000#32 8 = some 0x457A0000#32 ∧
    binFreq 4 0x45FA0000#32 0 = some 0x7F800000#32 ∧
    (lp 0x7F7FFFFF#32).zeroBin 4 0x45FA0000#32 0 = true ∧ (lp 0x7F800000#32).zeroBin 4 0x45FA0000#32 0 = false ∧
    (lp 0xFF800000#32).zeroBin 4 0x45FA0000#32 8 = true ∧ (lp 0x7FC00000#32).zeroBin 4 0x45FA0000#32 0 = false := by
  decide +kernel

/-- `MagnitudeMaskAnswers`, `TheTwoMasksZeroTheSameBins`: a zeroed bin and a kept one. -/
theorem witness_masks :
    let s := { framed with bank := (after (.cgSetlp true 0x447A0000#32 0x45FA0000#32) fresh).bank }
    (Instr.swMmask 0x45FA0000#32 2#32 [7#32, 9#32]).wf = true ∧ (8#32).toNat = s.build.w ∧
    s.zeroBin 1 0x45FA0000#32 8 = false ∧ s.zeroBin 2 0x45FA0000#32 8 = true ∧
    s.cbuf[2]? = some ⟨0x3F800000#32, 0x80000000#32⟩ ∧ (⟨0x3F800000#32, 0x80000000#32⟩ : Cplx) ≠ Cplx.zero := by
  decide +kernel

/-- `SumsAreCorrectlyRounded`, `ProductsAreCorrectlyRounded`, `RootsAreCorrectlyRounded`: the least and the
largest finite numbers, a zero, a divisor that is none, and the two infinities. -/
theorem witness_finite :
    F32.isFinite 0x00000001#32 = true ∧ F32.isFinite 0xFF7FFFFF#32 = true ∧ F32.isZero 0x80000000#32 = true ∧
    F32.isZero 0x00000001#32 = false ∧ F32.sign 0x00000001#32 = false ∧ F32.isFinite 0x80000000#32 = true ∧
    F32.isInf 0x7F800000#32 = true ∧ F32.isInf 0xFF800000#32 = true ∧
    F32.sign 0x7F800000#32 ≠ F32.sign 0xFF800000#32 ∧ F32.sign 0x7F800000#32 = false ∧
    F32.isNaN 0xFF7FFFFF#32 = false ∧ F32.isZero 0xFF7FFFFF#32 = false := by decide +kernel

/-- The same operations with infinite operands and a zero divisor, from R111. -/
theorem test_infinite_operands :
    F32.add? 0x7F800000#32 0xFF7FFFFF#32 = some 0x7F800000#32 ∧
    F32.sub? 0x3F800000#32 0x7F800000#32 = some 0xFF800000#32 ∧
    F32.mul? 0xFF800000#32 0x3F800000#32 = some 0xFF800000#32 ∧
    F32.div? 0x3F800000#32 0x80000000#32 = some 0xFF800000#32 ∧
    F32.div? 0x3F800000#32 0xFF800000#32 = some 0x80000000#32 ∧
    F32.sqrt? 0x7F800000#32 = some 0x7F800000#32 := by decide +kernel

/-- `ComparisonsAreOrdered`: a NaN, two finite numbers, a finite one and an infinity of each sign. -/
theorem witness_comparison :
    F32.isNaN 0x7F800001#32 = true ∧ F32.isFinite 0x7F7FFFFF#32 = true ∧ F32.isInf 0x7F800000#32 = true ∧
    F32.isInf 0xFF800000#32 = true := by decide +kernel

/-- `IntegersConvertCorrectly`: the bounds. -/
theorem witness_small_integers :
    2 ^ 32 - 1 < 2 ^ 32 ∧ 2 ^ 24 - 1 < 2 ^ 24 ∧ ((-16777215 : Int)).natAbs < 2 ^ 24 ∧ (0 : Int).natAbs < 2 ^ 24 := by decide

/-- `OpenFunctionsKeepTheirProperties`, first clause: a finite argument, an infinite one and a NaN. -/
theorem witness_trig :
    F32.isFinite 0x3F800000#32 = true ∧ F32.isFinite 0x7F800000#32 = false ∧
    F32.isFinite 0x7FC00000#32 = false := by decide +kernel

/-- `OpenFunctionsKeepTheirProperties`, second clause: a window and a half spectrum of zeros of both signs. -/
theorem witness_silence :
    (∀ v ∈ List.replicate 8 0x80000000#32, F32.isZero v = true) ∧
    ∀ z ∈ fresh.cbuf, F32.isZero z.re = true ∧ F32.isZero z.im = true :=
  ⟨fun v hv => by rw [List.eq_of_mem_replicate hv]; decide, fresh_bins_zero⟩

/-- A window of eight zeros. -/
def silent : List Word := List.replicate 8 posZero

/-- `TransformsRoundTrip`: the smallest window, and a silent one whose transforms meet the contracts with the
tolerance 0 in every build. -/
theorem witness_round_trip :
    2 % 2 = 0 ∧ small.ok = true ∧ silent.length = small.w ∧
    (∀ v ∈ silent, F32.isFinite v = true) ∧
    Ideal.DftAcc small 0 silent ∧
    Ideal.IdftAcc small 0 (dft small silent) := by
  have real0 : ∀ w, F32.isZero w = true → Ideal.real w = 0 ∧ F32.isFinite w = true := by
    intro w hw
    rw [F32.isZero_iff] at hw
    have hu : F32.units w = 0 := by simp [F32.units, F32.expo, F32.frac, hw]
    exact ⟨by simp [Ideal.real, F32.value, hu], by simp [F32.isFinite, hw]⟩
  have hx : ∀ v ∈ silent, F32.isZero v = true := fun v hv => by
    rw [silent, List.mem_replicate] at hv; rw [hv.2]; decide
  have hs : ∀ n, Ideal.samples silent n = 0 := fun n => by
    rw [Ideal.samples, List.getD_eq_getElem?_getD]
    cases h : silent[n]? with
    | none => exact (real0 _ (by decide)).1
    | some v => exact (real0 _ (hx v (List.mem_of_getElem? h))).1
  have hb := dft_of_zeros small hx
  have hz : ∀ k, F32.isZero ((dft small silent).getD k Cplx.zero).re = true ∧
      F32.isZero ((dft small silent).getD k Cplx.zero).im = true := fun k => by
    rw [List.getD_eq_getElem?_getD]
    cases h : (dft small silent)[k]? with
    | none => exact ⟨by decide, by decide⟩
    | some z => exact hb z (List.mem_of_getElem? h)
  refine ⟨rfl, by decide, rfl, fun v hv => (real0 v (hx v hv)).2, fun _ k _ z hk => ?_, fun _ n _ y hy => ?_⟩
  · obtain ⟨h1, h2⟩ := hb z (List.mem_of_getElem? hk)
    simp [real0 _ h1, real0 _ h2, Ideal.dftRe, Ideal.dftIm, hs]
  · have h1 := idft_of_zeros small hb y (List.mem_of_getElem? hy)
    have h2 : ∀ k, Ideal.binRe (dft small silent) k = 0 := fun k => (real0 _ (hz k).1).1
    have h3 : ∀ k, Ideal.binIm (dft small silent) k = 0 := fun k => (real0 _ (hz k).2).1
    simp [real0 _ h1, Ideal.idft, h2, h3]

/-- `PinsCarryTheSameStream`: a block after reset, and one inside a command. -/
theorem witness_edges :
    decode (PortState.start fresh).core.asm = .incomplete ∧ (PortState.start fresh).sent = 0 ∧
    decode ({ fresh with asm := [0x40#32, 5#32] } : State).asm = .incomplete := by decide

/-- `ResponsesAreHeldAndMustBeDrained`, first clause: a word on offer that is not taken. -/
theorem witness_held :
    let p : PortState := ⟨fresh, [7#32], 0⟩
    let x := offering 0x32#32 false 1
    x.1.rst = false ∧ (p.pins 2 false x.2).rspValid = true ∧ p.rspTransfer 2 x.1 x.2 = false ∧
    ∃ q, p.edge 2 x.1 x.2 = .next q := ⟨rfl, rfl, rfl, PortState.edge_completes _ _ _ _⟩

/-- `ResponsesAreHeldAndMustBeDrained`, second clause: two magnitudes and a queue of one; third clause: a host
that drains, at a queue of one. -/
theorem witness_drained :
    let xs := maskWords.map fun w => offering w false 1
    let ys := List.replicate 1 (offering 0x32#32 true 1)
    let p := PortState.start fresh
    p.core.asm = [] ∧ p.sent = 0 ∧ (∀ x ∈ xs, x.1.rst = false ∧ x.1.rspReady = false) ∧ 0 < (2#32).toNat ∧
    1 < p.queue.length + (2#32).toNat ∧ [0x40#32, 0x45FA0000#32, 2#32] <+: (portRun 1 xs p).commands ∧
    p.core.fault = false ∧
    (∀ y ∈ ys, y.1.rst = false ∧ y.1.cmdValid = true ∧ y.1.rspReady = true ∧ y.2.take = true ∧ 1 ≤ y.2.move) ∧
    2 * p.pending.length + p.queue.length < ys.length := by
  refine ⟨rfl, rfl, ?_, by decide, by decide, by decide +kernel, rfl, ?_, by decide⟩
  · simp [maskWords, offering]
  · simp [offering]

end Sys2Proof.Tests
end

section
/-! SUPPORT. What the commands do to the state (10_state.md), said once: one equation per command, what a command
can do to a filter, and the three parts of the invariant. -/

namespace Sys2Proof.Machine

/-! ### One equation per command -/

/-- A property of every command, with the four setters as one case and the four read-backs as another. -/
theorem command_kinds {motive : Instr → Prop}
    (saPush : ∀ x, motive (.saPush x)) (saLoad : ∀ n v, motive (.saLoad n v)) (saInv : motive .saInv)
    (saRst : motive .saRst) (saRdmag : motive .saRdmag) (saRdcx : motive .saRdcx)
    (setter : ∀ t en a b fs, motive (setterOf t en a b fs)) (readBack : ∀ t, motive (readBackOf t))
    (fbProc : ∀ x, motive (.fbProc x)) (fbRst : motive .fbRst) (fbActive : motive .fbActive)
    (swMmask : ∀ fs n m, motive (.swMmask fs n m)) (swCmask : ∀ nfft fs, motive (.swCmask nfft fs)) :
    ∀ i, motive i
  | .saPush x => saPush x
  | .saLoad n v => saLoad n v
  | .saInv => saInv
  | .saRst => saRst
  | .saRdmag => saRdmag
  | .saRdcx => saRdcx
  | .cgSetlp en cut fs => setter .lp en cut posZero fs
  | .cgSethp en cut fs => setter .hp en cut posZero fs
  | .cgSetbs en lo hi fs => setter .bs en lo hi fs
  | .cgSetbp en lo hi fs => setter .bp en lo hi fs
  | .cgRdfLp => readBack .lp
  | .cgRdfHp => readBack .hp
  | .cgRdfBs => readBack .bs
  | .cgRdfBp => readBack .bp
  | .fbProc x => fbProc x
  | .fbRst => fbRst
  | .fbActive => fbActive
  | .swMmask fs n m => swMmask fs n m
  | .swCmask nfft fs => swCmask nfft fs

@[simp] theorem isSetterOf_setterOf (t u : FilterType) (en : Bool) (a b fs : Word) :
    isSetterOf u (setterOf t en a b fs) = (u == t) := by
  cases t <;> rfl

@[simp] theorem isSetterOf_readBackOf (t u : FilterType) : isSetterOf u (readBackOf t) = false := by
  cases t <;> rfl

theorem after_saPush_last (x : Word) {s : State} (h : s.cnt = s.build.w - 1) :
    after (.saPush x) s =
      ((s.withWindow (s.wbuf.set s.cnt x)).frame.withCnt 0).respond [0x00000001#32] :=
  (eq_after (exec_saPush_last x h)).symm

theorem after_saPush_more (x : Word) {s : State} (h : s.cnt ≠ s.build.w - 1) :
    after (.saPush x) s =
      ((s.withWindow (s.wbuf.set s.cnt x)).withCnt (s.cnt + 1)).respond [0x00000000#32] :=
  (eq_after (exec_saPush_more x h)).symm

theorem after_saLoad (n : Word) (v : List Word) (s : State) :
    after (.saLoad n v) s = (s.withWindow (loadedWindow s.build.w n v)).frame := rfl

theorem after_saInv (s : State) : after .saInv s = s.respond (idft s.build s.cbuf) := by
  show s.respond ((idft s.build s.cbuf).map f2w) = _
  rw [show f2w = id from rfl, List.map_id]

theorem after_saRst (s : State) :
    after .saRst s =
      { s with wbuf := List.replicate s.build.w posZero, cnt := 0, mag := List.replicate s.build.nb posZero } :=
  rfl

theorem after_saRdmag (s : State) : after .saRdmag s = s.respond s.mag := by
  show s.respond (s.mag.map f2w) = _
  rw [show f2w = id from rfl, List.map_id]

theorem after_saRdcx (s : State) : after .saRdcx s = s.respond (cplxWords s.cbuf) := rfl

theorem after_setterOf (t : FilterType) (en : Bool) (a b fs : Word) (s : State) :
    after (setterOf t en a b fs) s =
      s.putFilter t ((s.filter t).afterSet s.build t en a (bandEdge t b) fs) :=
  (eq_after (exec_setterOf t en a b fs s)).symm

theorem after_readBackOf (t : FilterType) (s : State) :
    after (readBackOf t) s = s.respond (s.filter t).readBack := by
  cases t <;> rfl

theorem after_fbProc (x : Word) (s : State) :
    after (.fbProc x) s = (s.cascade x).2.respond [(s.cascade x).1] := rfl

theorem after_fbActive (s : State) : after .fbActive s = s.respond [b2w s.active] := rfl

theorem after_swMmask (fs n : Word) (m : List Word) (s : State) :
    after (.swMmask fs n m) s = s.respond (s.maskedMags fs (m.take n.toNat)) := rfl

theorem after_swCmask (nfft fs : Word) (s : State) :
    after (.swCmask nfft fs) s = { s with cbuf := s.maskedBins nfft.toNat fs } := rfl

@[simp] theorem filter_after_fbRst (s : State) (u : FilterType) :
    (after .fbRst s).filter u = (s.filter u).clearDly s.build.l := by
  cases u <;> rfl

@[simp] theorem build_after (i : Instr) (s : State) : (after i s).build = s.build :=
  (sameControl_after i s).1

/-! ### The units' frames -/

theorem SameAnalyzer.refl (s : State) : SameAnalyzer s s := ⟨rfl, rfl, rfl, rfl⟩

theorem bank_after_saPush (x : Word) (s : State) : (after (.saPush x) s).bank = s.bank := by
  by_cases h : s.cnt = s.build.w - 1
  · rw [after_saPush_last x h]
    rfl
  · rw [after_saPush_more x h]
    rfl

theorem sameAnalyzer_setterOf (t : FilterType) (en : Bool) (a b fs : Word) (s : State) :
    SameAnalyzer s (after (setterOf t en a b fs) s) := by
  rw [after_setterOf]
  exact SameAnalyzer.refl s

theorem sameAnalyzer_readBackOf (t : FilterType) (s : State) : SameAnalyzer s (after (readBackOf t) s) := by
  rw [after_readBackOf]
  exact SameAnalyzer.refl s

theorem sameAnalyzer_fbProc (x : Word) (s : State) : SameAnalyzer s (after (.fbProc x) s) :=
  (State.cascade_frame s x).sameAnalyzer

/-! ### What a command can do to a filter -/

@[simp] theorem State.stage_build (s : State) (t : FilterType) (x : Word) : (s.stage t x).2.build = s.build :=
  (State.stage_frame s t x).sameControl.1

/-- The cascade shifts some word into the delay line of each filter that runs, and leaves the other filters
(R200, R201). -/
theorem State.cascade_filter (s : State) (x : Word) (u : FilterType) :
    ∃ y, (s.cascade x).2.filter u =
      if (s.filter u).runs = true then { s.filter u with dly := shiftIn s.build.l y (s.filter u).dly }
      else s.filter u := by
  simp only [State.cascade, State.stage_filter, State.stage_build]
  cases u <;> simp only [reduceCtorEq, false_and, if_false, true_and] <;> exact ⟨_, rfl⟩

/-- What the command `i` in the build `bd` can make of the filter `f` of type `u`. -/
inductive FilterStep (bd : Build) (i : Instr) (u : FilterType) (f : Filter) : Filter → Prop where
  /-- The filter stays. -/
  | keeps : FilterStep bd i u f f
  /-- Its own setter (R170). -/
  | sets (en : Bool) (a b fs : Word) (hi : i = setterOf u en a b fs) :
    FilterStep bd i u f (f.afterSet bd u en a (bandEdge u b) fs)
  /-- Its stage runs in `FB.PROC` (R200). -/
  | shifts (x y : Word) (hi : i = .fbProc x) (hr : f.runs = true) :
    FilterStep bd i u f { f with dly := shiftIn bd.l y f.dly }
  /-- `FB.RST` (R202). -/
  | clears (hi : i = .fbRst) : FilterStep bd i u f (f.clearDly bd.l)

theorem FilterStep.of_eq {bd : Build} {i : Instr} {u : FilterType} {f g : Filter} (h : g = f) :
    FilterStep bd i u f g :=
  h ▸ .keeps

/-- Every command makes of every filter what `FilterStep` says. -/
theorem filterStep_after (i : Instr) (s : State) (u : FilterType) :
    FilterStep s.build i u (s.filter u) ((after i s).filter u) := by
  cases i using command_kinds with
  | saPush x => exact .of_eq (congrArg (Bank.get · u) (bank_after_saPush x s))
  | setter t en a b fs =>
    rw [after_setterOf]
    by_cases hu : u = t
    · subst hu
      rw [State.putFilter_filter]
      exact .sets en a b fs rfl
    · exact .of_eq (State.putFilter_filter_ne s _ hu)
  | readBack t => exact .of_eq (by rw [after_readBackOf, State.respond_filter])
  | fbProc x =>
    obtain ⟨y, hy⟩ := s.cascade_filter x u
    rw [after_fbProc, State.respond_filter, hy]
    split
    next hr => exact .shifts x y rfl hr
    next => exact .keeps
  | fbRst =>
    rw [filter_after_fbRst]
    exact .clears rfl
  | saLoad | saInv | saRst | saRdmag | saRdcx | fbActive | swMmask | swCmask => exact .keeps

section FilterStep

variable {bd : Build} {i : Instr} {u : FilterType} {f g : Filter}

/-- Only its own setter writes the descriptor, the taps and `HASC` of a filter (R25, R26, R31). -/
theorem FilterStep.only_dly (h : FilterStep bd i u f g) (hi : isSetterOf u i = false) :
    g = { f with dly := g.dly } := by
  cases h with
  | sets en a b fs his => simp [his] at hi
  | keeps | shifts | clears => rfl

@[simp] theorem Filter.afterSet_hasc (t : FilterType) (en : Bool) (a b fs : Word) :
    (f.afterSet bd t en a b fs).hasc = (generates t en a b fs || f.hasc) := by
  unfold Filter.afterSet
  split <;> simp [*]

/-- Nothing clears `HASC` (R31). -/
theorem FilterStep.keeps_hasc (h : FilterStep bd i u f g) (hf : f.hasc = true) : g.hasc = true := by
  cases h with
  | sets => simp [hf]
  | keeps | shifts | clears => exact hf

/-- The second edge of a filter without one is never written (R25). -/
theorem FilterStep.keeps_unused_edge (h : FilterStep bd i u f g) (hu : u.isBand = false) : g.cutB = f.cutB := by
  cases h with
  | sets =>
    unfold Filter.afterSet
    split <;> simp [hu]
  | keeps | shifts | clears => rfl

/-- A setter keeps the shapes: it writes `L` taps and a cleared delay line together with `HASC`, or neither. -/
theorem Filter.Inv.afterSet (hf : f.Inv bd.l) (t : FilterType) (en : Bool) (a b fs : Word) :
    (f.afterSet bd t en a b fs).Inv bd.l := by
  unfold Filter.afterSet
  split
  · exact ⟨by simp, by simp, by simp, by simp⟩
  · exact ⟨hf.coef_length, hf.dly_length, hf.coef_empty, hf.dly_empty⟩

/-- The invariant of a filter is kept: a delay line is shifted only where there are coefficients. -/
theorem FilterStep.keeps_inv (h : FilterStep bd i u f g) (hf : f.Inv bd.l) : g.Inv bd.l := by
  cases h with
  | keeps => exact hf
  | sets => exact hf.afterSet ..
  | shifts x y _ hr =>
    have hc : f.hasc = true := (Bool.and_eq_true_iff.mp hr).2
    exact ⟨hf.coef_length, length_shiftIn y _ hf.dly_length, hf.coef_empty, by simp [hc]⟩
  | clears => exact ⟨hf.coef_length, List.length_replicate, hf.coef_empty, fun _ => rfl⟩

end FilterStep

/-! ### The invariant in three parts -/

/-- The part of the invariant about the analyzer (R21 to R24). -/
structure State.AnalyzerInv (s : State) : Prop where
  wbuf_length : s.wbuf.length = s.build.w
  cnt_lt : s.cnt < s.build.w
  cbuf_length : s.cbuf.length = s.build.nb
  mag_length : s.mag.length = s.build.nb
  mag_unsigned : ∀ m ∈ s.mag, F32.Unsigned m

/-- The part of the invariant about the filters (R25 to R28). -/
structure State.BankInv (s : State) : Prop where
  filter_inv : ∀ t, (s.filter t).Inv s.build.l
  unused_edge : ∀ t : FilterType, t.isBand = false → (s.filter t).cutB = posZero

/-- The part of the invariant about the build, the fault state and the assembly state (R5, R32, R44). -/
structure State.ControlInv (s : State) : Prop where
  build_ok : s.build.ok = true
  no_fault : s.fault = false → s.fcode = 0#2 ∧ s.fword = 0x00000000#32
  fault_cause : s.fault = true → s.asm = [] ∧ ∃ c, headerTest s.fword = .illegal c ∧ s.fcode = c.code
  assembling : decode s.asm = .incomplete

theorem State.inv_iff {s : State} : s.Inv ↔ s.AnalyzerInv ∧ s.BankInv ∧ s.ControlInv := by
  constructor
  · intro h
    refine ⟨⟨h.wbuf_length, h.cnt_lt, h.cbuf_length, h.mag_length, h.mag_unsigned⟩, ⟨h.filter_inv, ?_⟩,
      ⟨h.build_ok, h.no_fault, h.fault_cause, h.assembling⟩⟩
    rintro (_ | _ | _ | _) ht
    · exact h.cutB_lp
    · exact h.cutB_hp
    · cases ht
    · cases ht
  · rintro ⟨ha, hb, hc⟩
    exact ⟨hc.build_ok, ha.wbuf_length, ha.cnt_lt, ha.cbuf_length, ha.mag_length, ha.mag_unsigned,
      hb.filter_inv, hb.unused_edge .lp rfl, hb.unused_edge .hp rfl, hc.no_fault, hc.fault_cause, hc.assembling⟩

/-! ### A command keeps each part -/

section

variable {s t : State}

theorem State.AnalyzerInv.congr (hs : s.AnalyzerInv) (h : SameAnalyzer s t) (hb : t.build = s.build) :
    t.AnalyzerInv := by
  obtain ⟨hw, hn, hc, hm⟩ := h
  exact ⟨by rw [hw, hb, hs.wbuf_length], by rw [hn, hb]; exact hs.cnt_lt, by rw [hc, hb, hs.cbuf_length],
    by rw [hm, hb, hs.mag_length], by rw [hm]; exact hs.mag_unsigned⟩

theorem unsigned_of_replicate {n : Nat} : ∀ m ∈ List.replicate n posZero, F32.Unsigned m := by
  intro m hm
  rw [List.eq_of_mem_replicate hm]
  exact .inr (by decide)

/-- A frame has the shape of the build and magnitudes without a sign (R24, R146). -/
theorem State.AnalyzerInv.frame (hw : s.wbuf.length = s.build.w) (hn : s.cnt < s.build.w) :
    s.frame.AnalyzerInv :=
  ⟨hw, hn, by simp, by simp, magnitudes_unsigned _ _ _⟩

theorem State.AnalyzerInv.after_saPush (hs : s.AnalyzerInv) (x : Word) : (after (.saPush x) s).AnalyzerInv := by
  have hw : (s.wbuf.set s.cnt x).length = s.build.w := by rw [List.length_set, hs.wbuf_length]
  have hn := hs.cnt_lt
  by_cases h : s.cnt = s.build.w - 1
  · rw [after_saPush_last x h]
    have hf := State.AnalyzerInv.frame (s := s.withWindow (s.wbuf.set s.cnt x)) hw hn
    exact ⟨hf.wbuf_length, Nat.zero_lt_of_lt hn, hf.cbuf_length, hf.mag_length, hf.mag_unsigned⟩
  · rw [after_saPush_more x h]
    have hlt : s.cnt + 1 < s.build.w := by omega
    exact ⟨hw, hlt, hs.cbuf_length, hs.mag_length, hs.mag_unsigned⟩

theorem State.AnalyzerInv.after (hs : s.AnalyzerInv) (i : Instr) : (after i s).AnalyzerInv := by
  cases i using command_kinds with
  | saPush x => exact hs.after_saPush x
  | saLoad n v =>
    rw [after_saLoad]
    exact .frame (length_loadedWindow _ n v) hs.cnt_lt
  | saRst =>
    rw [after_saRst]
    exact ⟨List.length_replicate, Nat.zero_lt_of_lt hs.cnt_lt, hs.cbuf_length, List.length_replicate,
      unsigned_of_replicate⟩
  | swCmask nfft fs =>
    rw [after_swCmask]
    have hc : (s.maskedBins nfft.toNat fs).length = s.build.nb := by rw [length_maskedBins, hs.cbuf_length]
    exact ⟨hs.wbuf_length, hs.cnt_lt, hc, hs.mag_length, hs.mag_unsigned⟩
  | setter t en a b fs => exact hs.congr (sameAnalyzer_setterOf t en a b fs s) (build_after _ s)
  | readBack t => exact hs.congr (sameAnalyzer_readBackOf t s) (build_after _ s)
  | fbProc x => exact hs.congr (sameAnalyzer_fbProc x s) (build_after _ s)
  | saInv | saRdmag | saRdcx | fbRst | fbActive | swMmask => exact hs.congr (SameAnalyzer.refl s) rfl

theorem State.BankInv.after (hs : s.BankInv) (i : Instr) : (after i s).BankInv where
  filter_inv t := by
    rw [build_after]
    exact (filterStep_after i s t).keeps_inv (hs.filter_inv t)
  unused_edge t ht := ((filterStep_after i s t).keeps_unused_edge ht).trans (hs.unused_edge t ht)

theorem State.ControlInv.congr (hs : s.ControlInv) (h : SameControl s t) : t.ControlInv := by
  obtain ⟨hb, hf, hc, hw, ha, -, -⟩ := h
  exact ⟨by rw [hb, hs.build_ok], by rw [hf, hc, hw]; exact hs.no_fault,
    by rw [hf, hc, hw, ha]; exact hs.fault_cause, by rw [ha, hs.assembling]⟩

/-- Every command keeps the invariant. -/
theorem State.Inv.after (hs : s.Inv) (i : Instr) : (after i s).Inv := by
  obtain ⟨ha, hb, hc⟩ := State.inv_iff.mp hs
  exact State.inv_iff.mpr ⟨ha.after i, hb.after i, hc.congr (sameControl_after i s)⟩

/-! ### A reset and a taken word keep it -/

theorem Filter.inv_reset (l : Nat) : (Filter.reset l).Inv l :=
  ⟨List.length_replicate, List.length_replicate, fun _ => rfl, fun _ => rfl⟩

theorem Build.two_le_w {b : Build} (h : b.ok = true) : 2 ≤ b.w := by
  simp [Build.ok] at h
  omega

/-- Hardware reset establishes the invariant, whatever the state was (R45). -/
theorem State.inv_hardReset (hb : s.build.ok = true) : s.hardReset.Inv := by
  have hw : 0 < s.build.w := Nat.lt_of_lt_of_le Nat.two_pos (Build.two_le_w hb)
  refine State.inv_iff.mpr ⟨⟨List.length_replicate, hw, List.length_replicate, List.length_replicate,
    unsigned_of_replicate⟩, ⟨fun t => ?_, fun t _ => ?_⟩, ⟨hb, fun _ => ⟨rfl, rfl⟩, fun h => ?_, rfl⟩⟩
  · rw [State.hardReset_filter]
    exact Filter.inv_reset _
  · rw [State.hardReset_filter]
    rfl
  · cases h

/-- The state after reset is a fixed point of hardware reset (R281). -/
theorem State.hardReset_resetOf (b : Build) : (State.resetOf b).hardReset = State.resetOf b := rfl

/-- Only the control part speaks of the two places where command words stand. -/
theorem State.Inv.with_words {asm cmdIn : List Word} (hs : s.Inv) (hf : s.fault = false)
    (ha : decode asm = .incomplete) : ({ s with asm := asm, cmdIn := cmdIn } : State).Inv :=
  { hs with
    fault_cause := fun h => by cases hf.symm.trans h
    assembling := ha }

/-- Fault entry keeps the invariant: the word recorded fails the header test with the cause recorded
(R251, R252). -/
theorem State.Inv.enterFault {c : DecodeFault} {h : Word} (hs : s.Inv) (hc : headerTest h = .illegal c) :
    (s.enterFault c h).Inv :=
  { hs with
    no_fault := fun hf => by cases hf
    fault_cause := fun _ => ⟨rfl, c, hc, rfl⟩
    assembling := rfl }

/-- Taking a word outside fail-stop keeps the invariant. -/
theorem State.Inv.accept {w : Word} (hs : s.Inv) (hf : s.fault = false) (h : accept w s = .next t) : t.Inv := by
  obtain ⟨i, rest, hd, rfl⟩ | ⟨c, x, hd, rfl⟩ | ⟨hd, rfl⟩ := accept_cases h
  · have hr : rest = [] := decode_append_rest hs.assembling hd
    subst hr
    exact (hs.with_words hf rfl).after i
  · obtain ⟨-, -, hx⟩ := decode_illegal_head hd
    exact hs.enterFault hx
  · exact hs.with_words hf hd

end

end Sys2Proof.Machine
end

section
/-! SUPPORT. The stored sample rate (R25): every operation commutes with writing `FS` of a filter. -/

namespace Sys2Proof.Machine

/-! ### Two writes to the bank -/

theorem Bank.set_comm (b : Bank) {t u : FilterType} (h : u ≠ t) (f g : Filter) :
    (b.set t f).set u g = (b.set u g).set t f := by
  cases t <;> cases u <;> first | rfl | exact absurd rfl h

@[simp] theorem State.putFilter_putFilter (s : State) (t : FilterType) (f g : Filter) :
    (s.putFilter t f).putFilter t g = s.putFilter t g :=
  congrArg (fun b => { s with bank := b }) (Bank.set_set s.bank t f g)

theorem State.putFilter_comm (s : State) {t u : FilterType} (h : u ≠ t) (f g : Filter) :
    (s.putFilter t f).putFilter u g = (s.putFilter u g).putFilter t f :=
  congrArg (fun b => { s with bank := b }) (Bank.set_comm s.bank h f g)

/-! ### Another sample rate -/

/-- The state with `FS[t] = v`. -/
def State.withFs (s : State) (t : FilterType) (v : Word) : State := s.putFilter t { s.filter t with fs := v }

variable (s : State) (t : FilterType) (v : Word)

@[simp] theorem State.withFs_filter_same : (s.withFs t v).filter t = { s.filter t with fs := v } :=
  State.putFilter_filter s t _

theorem State.withFs_filter_ne {u : FilterType} (h : u ≠ t) : (s.withFs t v).filter u = s.filter u :=
  State.putFilter_filter_ne s _ h

/-- The other fields of every filter stay. -/
theorem State.withFs_filter (u : FilterType) :
    (s.withFs t v).filter u = { s.filter u with fs := ((s.withFs t v).filter u).fs } := by
  by_cases h : u = t
  · subst h
    rw [State.withFs_filter_same]
  · rw [State.withFs_filter_ne s t v h]

theorem State.withFs_filter_runs (u : FilterType) : ((s.withFs t v).filter u).runs = (s.filter u).runs := by
  rw [State.withFs_filter]
  rfl

theorem State.withFs_active : (s.withFs t v).active = s.active := by
  cases t <;> rfl

theorem State.withFs_zeroBin (k : Nat) (fs : Word) (nfft : Nat) :
    (s.withFs t v).zeroBin k fs nfft = s.zeroBin k fs nfft :=
  State.zeroBin_congr (fun u => by rw [State.withFs_filter]; exact ⟨rfl, rfl, rfl⟩) k fs nfft

theorem State.withFs_maskedMags (fs : Word) (m : List Word) :
    (s.withFs t v).maskedMags fs m = s.maskedMags fs m := by
  simp only [State.maskedMags, State.withFs_zeroBin]
  rfl

theorem State.withFs_maskedBins (nfft : Nat) (fs : Word) :
    (s.withFs t v).maskedBins nfft fs = s.maskedBins nfft fs := by
  simp only [State.maskedBins, State.withFs_zeroBin]
  rfl

/-- Writing another filter and writing the rate commute. -/
theorem State.withFs_putFilter_ne {u : FilterType} (h : u ≠ t) (f : Filter) :
    (s.withFs t v).putFilter u f = (s.putFilter u f).withFs t v := by
  unfold State.withFs
  rw [State.putFilter_comm s h, State.putFilter_filter_ne s f h.symm]

theorem State.putFilter_withFs_same (f : Filter) :
    (s.putFilter t f).withFs t v = s.putFilter t { f with fs := v } := by
  unfold State.withFs
  rw [State.putFilter_filter, State.putFilter_putFilter]

/-- A setter writes the rate itself. -/
theorem Filter.afterSet_with_fs (bd : Build) (en : Bool) (a b fs : Word) (f : Filter) :
    Filter.afterSet bd t en a b fs { f with fs := v } = f.afterSet bd t en a b fs := rfl

/-- Writing a delay line and writing the rate commute, also in one filter. -/
theorem State.withFs_putDly (u : FilterType) (d : List Word) :
    (s.withFs t v).putFilter u { (s.withFs t v).filter u with dly := d } =
      (s.putFilter u { s.filter u with dly := d }).withFs t v := by
  by_cases hu : u = t
  · subst hu
    rw [State.withFs_filter_same, State.putFilter_withFs_same]
    exact State.putFilter_putFilter ..
  · rw [State.withFs_filter_ne s t v hu]
    exact State.withFs_putFilter_ne s t v hu _

/-- A stage neither reads nor writes the rate. -/
theorem State.withFs_stage (u : FilterType) (x : Word) :
    (s.withFs t v).stage u x = ((s.stage u x).1, (s.stage u x).2.withFs t v) := by
  have hruns := s.withFs_filter_runs t v u
  cases hr : (s.filter u).runs
  · rw [State.stage_not_runs x hr, State.stage_not_runs x (hruns.trans hr)]
  · have hcoef : ((s.withFs t v).filter u).coef = (s.filter u).coef := by rw [State.withFs_filter]
    have hdly : ((s.withFs t v).filter u).dly = (s.filter u).dly := by rw [State.withFs_filter]
    rw [State.stage_runs x hr, State.stage_runs x (hruns.trans hr), hcoef, hdly, State.withFs_putDly]
    rfl

theorem State.withFs_cascade (x : Word) :
    (s.withFs t v).cascade x = ((s.cascade x).1, (s.cascade x).2.withFs t v) := by
  simp only [State.cascade, State.withFs_stage]

theorem after_saPush_withFs (x : Word) :
    after (.saPush x) (s.withFs t v) = (after (.saPush x) s).withFs t v := by
  by_cases h : s.cnt = s.build.w - 1
  · rw [after_saPush_last x h, after_saPush_last x (s := s.withFs t v) h]
    rfl
  · rw [after_saPush_more x h, after_saPush_more x (s := s.withFs t v) h]
    rfl

theorem after_setterOf_withFs (u : FilterType) (en : Bool) (a b fs : Word) :
    after (setterOf u en a b fs) (s.withFs t v) =
      if t = u then after (setterOf u en a b fs) s else (after (setterOf u en a b fs) s).withFs t v := by
  rw [after_setterOf, after_setterOf]
  split
  next h =>
    subst h
    rw [State.withFs_filter_same, Filter.afterSet_with_fs]
    exact State.putFilter_putFilter ..
  next h =>
    have hu : u ≠ t := Ne.symm h
    rw [State.withFs_filter_ne s t v hu]
    exact State.withFs_putFilter_ne s t v hu _

/-- Every command but the read-back of a filter commutes with writing that filter's rate, and its setter
overwrites the rate. -/
theorem after_withFs (i : Instr) (h : i ≠ readBackOf t) :
    after i (s.withFs t v) = if isSetterOf t i then after i s else (after i s).withFs t v := by
  cases i using command_kinds with
  | saPush x => exact after_saPush_withFs s t v x
  | setter u en a b fs =>
    simp only [isSetterOf_setterOf, beq_iff_eq]
    exact after_setterOf_withFs s t v u en a b fs
  | readBack u =>
    have hu : u ≠ t := fun hut => h (congrArg readBackOf hut)
    rw [isSetterOf_readBackOf, after_readBackOf, after_readBackOf, State.withFs_filter_ne s t v hu]
    rfl
  | fbProc x =>
    rw [after_fbProc, after_fbProc, State.withFs_cascade]
    rfl
  | fbRst => cases t <;> rfl
  | fbActive =>
    rw [after_fbActive, after_fbActive, State.withFs_active]
    rfl
  | swMmask fs n m =>
    rw [after_swMmask, after_swMmask, State.withFs_maskedMags]
    rfl
  | swCmask nfft fs =>
    rw [after_swCmask, after_swCmask, State.withFs_maskedBins]
    rfl
  | saLoad | saInv | saRst | saRdmag | saRdcx => rfl

end Sys2Proof.Machine
end

section
/-! SUPPORT. The values after reset at the pins and in a filter, and the answer of `FB.ACTIVE`. -/

namespace Sys2Proof.Machine

/-- In reset no word is taken and none is offered, whatever the block and its queue hold (R280). -/
theorem PortState.pins_reset (depth : Nat) (pace : Pace) (p : PortState) :
    (p.pins depth true pace).cmdReady = false ∧ (p.pins depth true pace).rspValid = false :=
  ⟨rfl, rfl⟩

/-- The values of a filter after reset (R45). -/
theorem Filter.reset_values (l : Nat) :
    (Filter.reset l).en = false ∧ (Filter.reset l).hasc = false ∧
      (Filter.reset l).cutA = 0x00000000#32 ∧ (Filter.reset l).cutB = 0x00000000#32 ∧
      (Filter.reset l).fs = 0x00000000#32 ∧
      (Filter.reset l).coef.length = l ∧ (∀ v ∈ (Filter.reset l).coef, v = 0x00000000#32) ∧
      (Filter.reset l).dly.length = l ∧ (∀ v ∈ (Filter.reset l).dly, v = 0x00000000#32) :=
  ⟨rfl, rfl, rfl, rfl, rfl, List.length_replicate, fun _ => List.eq_of_mem_replicate,
    List.length_replicate, fun _ => List.eq_of_mem_replicate⟩

/-- `ACTIVE` is "some filter is enabled" (R34). -/
theorem State.active_iff {s : State} : s.active = true ↔ ∃ ft, (s.filter ft).en = true := by
  simp only [State.active, Bool.or_eq_true]
  constructor
  · rintro (((h | h) | h) | h) <;> exact ⟨_, h⟩
  · rintro ⟨_ | _ | _ | _, h⟩ <;> simp [h]

end Sys2Proof.Machine
end

section
/-! PROOFS. The obligations of the family 10_state: the invariant, the frames, the sample rate, the reset, the held
words and `FB.ACTIVE`. -/

namespace Sys2Proof.Machine

/-- Settles O14: a step is a reset or a taken word (`step_cases`), and each keeps the invariant. -/
theorem everyStepKeepsTheInvariant : Obligations.EveryStepKeepsTheInvariant := by
  intro s t hs h
  obtain ⟨hb, ⟨-, rfl⟩ | ⟨-, hf, w, ws, -, ha⟩⟩ := step_cases h
  · exact State.inv_hardReset hb
  · exact (hs.with_words (cmdIn := ws) hf hs.assembling).accept hf ha

/-- Settles O18, command by command; only `SA.PUSH` and `FB.PROC` branch on the state. -/
theorem unitsDoNotTouchEachOther : Obligations.UnitsDoNotTouchEachOther := by
  intro i s t h
  rw [eq_after h]
  cases i with
  | saPush x => exact bank_after_saPush x s
  | fbProc x => exact sameAnalyzer_fbProc x s
  | saLoad | saInv | saRst | saRdmag | saRdcx | swCmask => rfl
  | cgSetlp | cgSethp | cgSetbs | cgSetbp | cgRdfLp | cgRdfHp | cgRdfBs | cgRdfBp | fbRst | fbActive
  | swMmask => exact SameAnalyzer.refl s

/-- Settles O20: every command commutes with writing the rate, or overwrites it. -/
theorem storedSampleRateIsOnlyReadBack : Obligations.StoredSampleRateIsOnlyReadBack := by
  intro i s u ft v hi h
  rw [eq_after h]
  exact (exec_eq_after i _).trans (congrArg _ (after_withFs s ft v i hi))

/-- Settles O33, from what a command can do to a filter. -/
theorem descriptorsChangeOnlyByTheirSetter : Obligations.DescriptorsChangeOnlyByTheirSetter := by
  intro i s t ft h
  rw [eq_after h]
  have hstep := filterStep_after i s ft
  refine ⟨fun hi => ?_, hstep.keeps_hasc⟩
  rw [hstep.only_dly hi]
  exact ⟨rfl, rfl, rfl, rfl, rfl, rfl⟩

/-- Settles O8: the two turns in which no command is complete. -/
theorem unfinishedCommandWaitsForItsWords : Obligations.UnfinishedCommandWaitsForItsWords := by
  intro s hb hr hf
  refine ⟨fun w ws hc hd => ?_, step_wait hb hr hf⟩
  rw [step_take hb hr hf hc]
  exact accept_incomplete (s := { s with cmdIn := ws }) hd

/-- Settles O11: the step with `rst` high is hardware reset, at the step and at the pins. -/
theorem resetStepGivesTheResetValues : Obligations.ResetStepGivesTheResetValues := by
  intro s hb hr
  refine ⟨s.hardReset, step_reset hb hr, rfl, rfl, rfl,
    List.length_replicate, fun _ => List.eq_of_mem_replicate, rfl,
    List.length_replicate, fun _ => List.eq_of_mem_replicate,
    List.length_replicate, fun z hz => ?bins, fun ft => ?filters, rfl, rfl, rfl, rfl, rfl,
    fun depth pace queue sent => ?pins⟩
  case bins =>
    rw [List.eq_of_mem_replicate hz]
    exact ⟨rfl, rfl⟩
  case filters =>
    rw [State.hardReset_filter]
    exact Filter.reset_values s.build.l
  case pins =>
    obtain ⟨hc, hv⟩ := PortState.pins_reset depth pace ⟨s, queue, sent⟩
    exact ⟨hc, hv, fun i hi => PortState.edge_reset hi⟩

/-- Settles O15: the state after reset is a hardware reset of itself. -/
theorem resetMeetsTheInvariant : Obligations.ResetMeetsTheInvariant := by
  have h (b : Build) (hb : b.ok = true) : (State.resetOf b).Inv :=
    State.hardReset_resetOf b ▸ State.inv_hardReset hb
  exact ⟨h, h Build.default (by decide)⟩

/-- Settles O41: the answer is `ACTIVE`, which is "some filter is enabled". -/
theorem activeAnswersAnyEnabled : Obligations.ActiveAnswersAnyEnabled := by
  intro s
  rw [exec_eq_after, after_fbActive]
  constructor
  · intro h
    rw [State.active_iff.mpr h]
    rfl
  · intro h
    have hno : s.active = false := by
      rw [← Bool.not_eq_true, State.active_iff]
      simp [h]
    rw [hno]
    rfl

end Sys2Proof.Machine
end

section
/-! SUPPORT. The command stream (20_memory.md): the decoder on a part of a stream, the two ports of the block,
and as many steps as a command has words. -/

namespace Sys2Proof

/-! ### The decoder on a part of a stream -/

/-- The words of a command, whatever follows them, decode to the command. -/
theorem decode_encode_append {i : Instr} (hw : i.wf = true) (rest : List Word) :
    decode (encode i ++ rest) = .command i rest := by
  rw [encode, List.cons_append, decode_cons_legal _ (headerTest_of_command i), headerEn_headerWord]
  exact decodeOperands_operands rest hw

/-- Words after a header that is no command change nothing. -/
theorem decode_illegal_append {ws : List Word} {c : DecodeFault} {x : Word} (more : List Word)
    (h : decode ws = .illegal c x) : decode (ws ++ more) = .illegal c x := by
  obtain ⟨r, rfl, hx⟩ := Machine.decode_illegal_head h
  exact decode_cons_illegal _ hx

/-- No part of an unfinished command is a command or a fault. -/
theorem decode_incomplete_of_append {ws more : List Word} (h : decode (ws ++ more) = .incomplete) :
    decode ws = .incomplete := by
  cases hd : decode ws with
  | incomplete => rfl
  | command i rest =>
    rw [decode_command_append more hd] at h
    cases h
  | illegal c x =>
    rw [decode_illegal_append more hd] at h
    cases h

/-- Without its last words a command is unfinished (R62). -/
theorem decode_incomplete_of_command_append {ws more : List Word} {i : Instr} (hm : more ≠ [])
    (h : decode (ws ++ more) = .command i []) : decode ws = .incomplete := by
  cases hd : decode ws with
  | incomplete => rfl
  | command j rest =>
    rw [decode_command_append more hd, Decoded.command.injEq] at h
    exact absurd (List.append_eq_nil_iff.mp h.2).2 hm
  | illegal c x =>
    rw [decode_illegal_append more hd] at h
    cases h

end Sys2Proof

namespace Sys2Proof.Machine

/-! ### The two ports

No command reads the responses still to be taken or the words the host offers: it commutes with putting `old` in
front of the former and with replacing the latter. -/

/-- The state with the responses `old` before those of `s`, and the words `offered` on the command port. -/
def State.atPorts (s : State) (old offered : List Word) : State :=
  { s with rsp := old ++ s.rsp, cmdIn := offered }

section

variable (s : State) (old offered : List Word)

theorem State.respond_atPorts (ws : List Word) :
    (s.atPorts old offered).respond ws = (s.respond ws).atPorts old offered := by
  simp only [State.respond, State.atPorts, List.append_assoc]

theorem State.stage_atPorts (u : FilterType) (x : Word) :
    (s.atPorts old offered).stage u x = ((s.stage u x).1, (s.stage u x).2.atPorts old offered) := by
  cases hr : (s.filter u).runs
  · rw [State.stage_not_runs x hr, State.stage_not_runs (s := s.atPorts old offered) x hr]
  · rw [State.stage_runs x hr, State.stage_runs (s := s.atPorts old offered) x hr]
    rfl

theorem State.cascade_atPorts (x : Word) :
    (s.atPorts old offered).cascade x = ((s.cascade x).1, (s.cascade x).2.atPorts old offered) := by
  simp only [State.cascade, State.stage_atPorts]

theorem after_saPush_atPorts (x : Word) :
    after (.saPush x) (s.atPorts old offered) = (after (.saPush x) s).atPorts old offered := by
  by_cases h : s.cnt = s.build.w - 1
  · rw [after_saPush_last x h, after_saPush_last x (s := s.atPorts old offered) h]
    exact State.respond_atPorts ((s.withWindow (s.wbuf.set s.cnt x)).frame.withCnt 0) ..
  · rw [after_saPush_more x h, after_saPush_more x (s := s.atPorts old offered) h]
    exact State.respond_atPorts ((s.withWindow (s.wbuf.set s.cnt x)).withCnt (s.cnt + 1)) ..

/-- Every command commutes with what the host does at the two ports (R61, R63, R291). -/
theorem after_atPorts (i : Instr) :
    after i (s.atPorts old offered) = (after i s).atPorts old offered := by
  cases i using command_kinds with
  | saPush x => exact after_saPush_atPorts s old offered x
  | setter t en a b fs =>
    rw [after_setterOf, after_setterOf]
    rfl
  | readBack t =>
    rw [after_readBackOf, after_readBackOf]
    exact State.respond_atPorts ..
  | fbProc x =>
    rw [after_fbProc, after_fbProc, State.cascade_atPorts]
    exact State.respond_atPorts ..
  | saLoad | saRst | fbRst | swCmask => rfl
  | saInv | saRdmag | saRdcx | fbActive | swMmask => exact State.respond_atPorts ..

/-- So does taking a command word. -/
theorem accept_atPorts {w : Word} {t : State} (h : accept w s = .next t) :
    accept w (s.atPorts old offered) = .next (t.atPorts old offered) := by
  obtain ⟨i, rest, hd, rfl⟩ | ⟨c, x, hd, rfl⟩ | ⟨hd, rfl⟩ := accept_cases h
  · rw [accept_command (s := s.atPorts old offered) hd, exec_eq_after, ← after_atPorts]
    rfl
  · exact accept_illegal (s := s.atPorts old offered) hd
  · exact accept_incomplete (s := s.atPorts old offered) hd

@[simp] theorem asm_after (i : Instr) : (after i s).asm = s.asm := (sameControl_after i s).2.2.2.2.1

@[simp] theorem cmdIn_after (i : Instr) : (after i s).cmdIn = s.cmdIn := (sameControl_after i s).2.2.2.2.2.1

/-- Taking a word leaves the words that are offered after it. -/
theorem accept_cmdIn {w : Word} {t : State} (h : accept w s = .next t) : t.cmdIn = s.cmdIn := by
  obtain ⟨i, rest, -, rfl⟩ | ⟨c, x, -, rfl⟩ | ⟨-, rfl⟩ := accept_cases h
  · exact cmdIn_after _ i
  · rfl
  · rfl

end

/-! ### Runs of the step -/

/-- A run goes on where an earlier run ended. -/
theorem run_add {m : Nat} (n : Nat) {s t : State} (h : core.run m s = .next t) :
    core.run (m + n) s = core.run n t := by
  induction m generalizing s with
  | zero =>
    cases h
    rw [Nat.zero_add]
  | succ m ih =>
    rw [Nat.succ_add]
    simp only [Host.Core.run] at h ⊢
    split at h
    next u hu => exact ih h
    next => cases h
    next => cases h

/-- A run of one step is that step. -/
theorem run_one (s : State) : core.run 1 s = step s := by
  show core.run (0 + 1) s = core.step s
  simp only [Host.Core.run]
  cases core.step s <;> rfl

/-- The block is out of reset and of fail-stop: it takes the next word that is offered (R265). -/
structure State.Live (s : State) : Prop where
  build_ok : s.build.ok = true
  rst_low : s.rst = false
  no_fault : s.fault = false

/-- The state with the words `ws` on the command port, and no other ones. -/
def State.offering (s : State) (ws : List Word) : State := { s with cmdIn := ws }

theorem after_offering (i : Instr) (s : State) (ws : List Word) :
    after i (s.offering ws) = (after i s).offering ws :=
  after_atPorts s [] ws i

/-- A live block takes the next word that is offered. -/
theorem State.Live.step_offering {s : State} (hs : s.Live) (w : Word) (ws : List Word) :
    step (s.offering (w :: ws)) = accept w (s.offering ws) :=
  step_take (s := s.offering (w :: ws)) hs.build_ok hs.rst_low hs.no_fault rfl

/-- The words of a command but for those taken already, run through the step one by one, perform it: those before
the last are held, and the last one performs it (R62). -/
theorem run_rest_of_command {i : Instr} (rest post : List Word) (hne : post ≠ []) :
    ∀ s : State, s.Live → decode (s.asm ++ post) = .command i [] →
      core.run post.length (s.offering (post ++ rest)) = exec i { s.offering rest with asm := [] } := by
  induction post with
  | nil => exact absurd rfl hne
  | cons w ws ih =>
    intro s hs hd
    have htake := (run_one _).trans (hs.step_offering w (ws ++ rest))
    rcases eq_or_ne ws [] with rfl | hws
    · exact htake.trans (accept_command (s := s.offering rest) hd)
    · rw [List.append_cons] at hd
      have hheld := htake.trans
        (accept_incomplete (s := s.offering (ws ++ rest)) (decode_incomplete_of_command_append hws hd))
      rw [List.length_cons, Nat.add_comm]
      exact (run_add _ hheld).trans (ih hws { s with asm := s.asm ++ [w] } ⟨hs.1, hs.2, hs.3⟩ hd)

theorem State.Idle.live {s : State} (h : s.Idle) : s.Live := ⟨h.build_ok, h.rst_low, h.no_fault⟩

/-- A command leaves the block between two commands. -/
theorem State.Idle.after {s : State} (h : s.Idle) (i : Instr) : (after i s).Idle := by
  obtain ⟨hb, hf, -, -, ha, -, hr⟩ := sameControl_after i s
  exact ⟨hb ▸ h.build_ok, hr ▸ h.rst_low, hf ▸ h.no_fault, ha ▸ h.no_command⟩

/-- As many steps as a command has words perform it (R62). -/
theorem run_encode {s : State} {i : Instr} (hs : s.Idle) (hw : i.wf = true) (rest : List Word) :
    core.run (encode i).length (s.offering (encode i ++ rest)) = .next ((after i s).offering rest) := by
  have hd : decode (s.asm ++ encode i) = .command i [] := by
    simpa [hs.no_command] using decode_encode_append hw []
  have hidle : { s.offering rest with asm := [] } = s.offering rest := by
    rw [← hs.no_command]
    rfl
  have hrun := run_rest_of_command rest (encode i) (List.cons_ne_nil _ _) s hs.live hd
  rw [hidle] at hrun
  exact hrun.trans ((exec_eq_after i _).trans (congrArg _ (after_offering i s rest)))

/-- As many steps as a list of commands has words perform the commands one after the other (R69). -/
theorem run_encodes (rest : List Word) (is : List Instr) (hw : ∀ i ∈ is, i.wf = true) :
    ∀ s : State, s.Idle →
      core.run (is.flatMap encode).length (s.offering (is.flatMap encode ++ rest)) =
        performAll is (s.offering rest) := by
  induction is with
  | nil => exact fun _ _ => rfl
  | cons i is ih =>
    intro s hs
    obtain ⟨hi, his⟩ := List.forall_mem_cons.mp hw
    have hperform : performAll (i :: is) (s.offering rest) = performAll is ((after i s).offering rest) := by
      simp only [performAll, exec_eq_after, after_offering]
    rw [List.flatMap_cons, List.append_assoc, List.length_append, run_add _ (run_encode hs hi _), hperform]
    exact ih his _ (hs.after i)

/-! ### Doing it twice -/

/-- A setter on what it left leaves the same: the descriptor and the taps are functions of its operands and of
what it does not write (R74, R179). -/
theorem Filter.afterSet_afterSet (bd : Build) (t : FilterType) (en : Bool) (a b fs : Word) (f : Filter) :
    (f.afterSet bd t en a b fs).afterSet bd t en a b fs = f.afterSet bd t en a b fs := by
  unfold Filter.afterSet
  split
  · cases ht : t.isBand <;> simp [Filter.commit, Filter.describe, ht]
  · cases ht : t.isBand <;> simp [Filter.describe, ht]

/-- Masking masked bins changes nothing: which bins are zeroed does not depend on the bins (R231, R233). -/
theorem State.maskedBins_twice (s : State) (nfft : Nat) (fs : Word) :
    ({ s with cbuf := s.maskedBins nfft fs } : State).maskedBins nfft fs = s.maskedBins nfft fs := by
  apply List.ext_getElem?
  intro k
  have hz : ({ s with cbuf := s.maskedBins nfft fs } : State).zeroBin k fs nfft = s.zeroBin k fs nfft := rfl
  rw [maskedBins_getElem?, hz, maskedBins_getElem?, Option.map_map]
  cases s.zeroBin k fs nfft <;> rfl

theorem after_setterOf_twice (t : FilterType) (en : Bool) (a b fs : Word) (s : State) :
    after (setterOf t en a b fs) (after (setterOf t en a b fs) s) = after (setterOf t en a b fs) s := by
  simp only [after_setterOf, State.putFilter_filter, State.putFilter_build, Filter.afterSet_afterSet,
    State.putFilter_putFilter]

theorem after_swCmask_twice (nfft fs : Word) (s : State) :
    after (.swCmask nfft fs) (after (.swCmask nfft fs) s) = after (.swCmask nfft fs) s := by
  simp only [after_swCmask, State.maskedBins_twice]

end Sys2Proof.Machine
end

section
/-! SUPPORT. The pins (R61, R75, R291): what the block holds at its pins is what it would hold had it been given
the words transferred as a stream. -/

namespace Sys2Proof.Machine

/-! ### A stream of words taken -/

/-- A stream with one more word. -/
theorem acceptAll_append_singleton {ws : List Word} (w : Word) :
    ∀ {s t : State}, acceptAll ws s = .next t → acceptAll (ws ++ [w]) s = accept w t := by
  induction ws with
  | nil =>
    intro s t h
    cases h
    obtain ⟨u, hu⟩ := accept_completes w s
    simp only [List.nil_append, acceptAll, hu]
  | cons v ws ih =>
    intro s t h
    obtain ⟨u, hu⟩ := accept_completes v s
    simp only [List.cons_append, acceptAll, hu] at h ⊢
    exact ih h

/-- The words of an unfinished command are held, and nothing else happens (R44, R62). -/
theorem acceptAll_incomplete (ws : List Word) :
    ∀ s : State, decode (s.asm ++ ws) = .incomplete → acceptAll ws s = .next { s with asm := s.asm ++ ws } := by
  induction ws with
  | nil =>
    intro s _
    rw [List.append_nil]
    rfl
  | cons w ws ih =>
    intro s h
    rw [List.append_cons] at h ⊢
    simp only [acceptAll, accept_incomplete (decode_incomplete_of_append h)]
    exact ih { s with asm := s.asm ++ [w] } h

/-! ### The unfinished mask and the word after it -/

section

variable {s : State} {w : Word}

/-- The masked words of the first magnitudes are the first masked words (R75). -/
theorem State.maskedMags_prefix (s : State) (fs : Word) (m m' : List Word) :
    s.maskedMags fs m <+: s.maskedMags fs (m ++ m') := by
  have h := State.maskedMags_take s fs (m ++ m') m.length
  rw [List.take_left] at h
  rw [h]
  exact List.take_prefix _ _

/-- One more magnitude adds to the words of an unfinished mask and changes none. -/
theorem State.earlyWords_prefix_of_held : s.earlyWords <+: ({ s with asm := s.asm ++ [w] } : State).earlyWords := by
  cases ho : s.openMask with
  | none =>
    rw [State.earlyWords_of_not_open ho]
    exact List.nil_prefix
  | some x =>
    obtain ⟨fs, m⟩ := x
    obtain ⟨h, n, ha, ht⟩ := State.openMask_eq_some.mp ho
    rw [State.earlyWords_eq ha ht, State.earlyWords_eq (m := m ++ [w]) (by rw [ha]; rfl) ht]
    exact State.maskedMags_prefix s fs m [w]

/-- The command that the last word completes after an unfinished mask is the mask of all the magnitudes. -/
theorem decode_openMask {h fs n : Word} {m : List Word} {i : Instr} (ht : headerTest h = .legal .swMmask)
    (hd : decode (h :: fs :: n :: m) = .command i []) : i = .swMmask fs n m ∧ m.length = n.toNat := by
  rw [decode_cons_legal _ ht] at hd
  obtain ⟨hw, ho, -, hws⟩ := decodeOperands_command hd
  cases i <;> cases ho
  simp only [Instr.operands, List.append_nil, List.cons.injEq] at hws
  obtain ⟨rfl, rfl, rfl⟩ := hws
  exact ⟨rfl, beq_iff_eq.mp hw⟩

/-- The words of an unfinished mask are the first ones of the answer of the command it becomes (R75). -/
theorem State.earlyWords_prefix_of_command {i : Instr} (hr : s.rsp = [])
    (hd : decode (s.asm ++ [w]) = .command i []) (asm : List Word) :
    s.earlyWords <+: (after i { s with asm := asm }).rsp := by
  cases ho : s.openMask with
  | none =>
    rw [State.earlyWords_of_not_open ho]
    exact List.nil_prefix
  | some x =>
    obtain ⟨fs, m⟩ := x
    obtain ⟨h, n, ha, ht⟩ := State.openMask_eq_some.mp ho
    rw [ha] at hd
    obtain ⟨rfl, hm⟩ := decode_openMask ht hd
    rw [State.earlyWords_eq ha ht, after_swMmask, ← hm, List.take_length, State.respond_rsp, hr, List.nil_append]
    exact State.maskedMags_prefix s fs m [w]

/-- What taking a word leaves of a block that waits for it with no response words left: either no command is begun
and the early words are the first ones of those now answered, or the command is still unfinished and they are the
first early words. -/
theorem accept_earlyWords {t : State} (hi : decode s.asm = .incomplete) (hr : s.rsp = []) (h : accept w s = .next t) :
    (t.asm = [] ∧ s.earlyWords <+: t.rsp) ∨
      (t.asm ≠ [] ∧ decode t.asm = .incomplete ∧ t.rsp = [] ∧ s.earlyWords <+: t.earlyWords) := by
  obtain ⟨i, rest, hd, rfl⟩ | ⟨c, x, hd, rfl⟩ | ⟨hd, rfl⟩ := accept_cases h
  · obtain rfl : rest = [] := decode_append_rest hi hd
    exact .inl ⟨asm_after _ i, State.earlyWords_prefix_of_command hr hd []⟩
  · have ha : s.asm = [] := by
      by_contra hne
      exact decode_append_not_illegal hne hi hd
    rw [State.earlyWords_nil ha]
    exact .inl ⟨rfl, List.nil_prefix⟩
  · exact .inr ⟨List.append_ne_nil_of_right_ne_nil _ (List.cons_ne_nil _ _), hd, hr, State.earlyWords_prefix_of_held⟩

end

/-! ### The stream behind the pins -/

/-- The block at its pins is the block `c` that took the same words as a stream, but for the response words: those
`given`, those queued and those pending are the ones of `c`, followed by those of an unfinished mask. -/
structure PortState.Carries (p : PortState) (c : State) (given : List Word) : Prop where
  core : p.core = { c with rsp := p.core.rsp }
  assembling : decode p.core.asm = .incomplete
  sent_le : p.sent ≤ p.core.earlyWords.length
  words : given ++ p.queue ++ p.pending = c.rsp ++ p.core.earlyWords

theorem PortState.length_pending (p : PortState) :
    p.pending.length = p.core.rsp.length + (p.core.earlyWords.length - p.sent) := by
  rw [PortState.pending, List.length_append, List.length_drop]

theorem PortState.give_pending (p : PortState) (b : Bool) : (p.give b).pending = p.pending := by
  simp only [PortState.pending, PortState.give_core, PortState.give_sent]

/-- More early words are more words pending, after those there were. -/
theorem PortState.drop_sent_append {p : PortState} (h : p.sent ≤ p.core.earlyWords.length) (hr : p.core.rsp = [])
    (l : List Word) : (p.core.earlyWords ++ l).drop p.sent = p.pending ++ l := by
  rw [List.drop_append_of_le_length h, PortState.pending, hr, List.nil_append]

section

variable {p q : PortState} {c : State} {given : List Word} {w : Word}

/-- A block that has queued no word of an unfinished mask carries what it still has to answer. -/
theorem PortState.Carries.start (ha : decode p.core.asm = .incomplete) (hs : p.sent = 0) :
    p.Carries { p.core with rsp := p.queue ++ p.core.rsp } [] where
  core := rfl
  assembling := ha
  sent_le := hs ▸ Nat.zero_le _
  words := by rw [PortState.pending, hs, List.drop_zero, List.nil_append, List.append_assoc]

/-- Of the words of `c` all but the early ones not yet queued are given, queued or to be queued. -/
theorem PortState.Carries.words_sent (h : p.Carries c given) :
    given ++ p.queue ++ p.core.rsp = c.rsp ++ p.core.earlyWords.take p.sent := by
  apply List.append_cancel_right (bs := p.core.earlyWords.drop p.sent)
  rw [List.append_assoc _ (List.take _ _), List.take_append_drop, ← h.words, List.append_assoc _ p.core.rsp]
  rfl

/-- A response transfer moves the oldest word of the queue to those given. -/
theorem PortState.Carries.give (h : p.Carries c given) {b : Bool} (idle : Word) (hb : b = true → p.queue ≠ []) :
    (p.give b).Carries c (given ++ if b then [p.queue.headD idle] else []) := by
  refine ⟨by rw [PortState.give_core]; exact h.core, by rw [PortState.give_core]; exact h.assembling,
    by rw [PortState.give_core, PortState.give_sent]; exact h.sent_le, ?_⟩
  rw [PortState.give_pending, PortState.give_core, ← h.words]
  cases b with
  | false => simp [PortState.give]
  | true =>
    obtain ⟨x, xs, hq⟩ := List.exists_cons_of_ne_nil (hb rfl)
    simp [PortState.give, hq]

/-- Filling the queue loses no word, and queues no more words of an unfinished mask than there are. -/
theorem PortState.Carries.fill (h : p.Carries c given) (depth n : Nat) : (p.fill depth n).Carries c given where
  core := by
    rw [PortState.fill_core, h.core]
  assembling := h.assembling
  sent_le := by
    have hsent := h.sent_le
    have hlen := p.length_pending
    rw [PortState.fill_earlyWords]
    simp only [PortState.fill, List.length_take]
    omega
  words := by
    rw [List.append_assoc, PortState.fill_stream, ← List.append_assoc, h.words, PortState.fill_earlyWords]

/-- A word taken at the pins is that word taken from the stream. -/
theorem PortState.Carries.accept (h : p.Carries c given) (hr : p.core.rsp = []) {d : State}
    (hd : Machine.accept w c = .next d) (hq : p.accept w = .next q) : q.Carries d given := by
  obtain ⟨t, ht⟩ := Machine.accept_completes w p.core
  obtain rfl : d = { t with rsp := c.rsp ++ t.rsp } := by
    have hcore : c = p.core.atPorts c.rsp p.core.cmdIn := by
      rw [h.core, hr]
      simp [State.atPorts]
    have hports := accept_atPorts p.core c.rsp p.core.cmdIn ht
    rw [← hcore, hd, ← accept_cmdIn _ ht] at hports
    cases hports
    rfl
  rw [PortState.accept_eq ht] at hq
  cases hq
  obtain ⟨hasm, l, hl⟩ | ⟨hasm, hinc, hrsp, l, hl⟩ := accept_earlyWords h.assembling hr ht
  · rw [if_pos (List.isEmpty_iff.mpr hasm)]
    refine ⟨rfl, by rw [hasm]; rfl, Nat.zero_le _, ?_⟩
    have hnone : ({ t with rsp := t.rsp.drop p.sent } : State).earlyWords = [] := State.earlyWords_nil hasm
    rw [PortState.pending, hnone, List.drop_nil, List.append_nil, List.append_nil, ← hl,
      PortState.drop_sent_append h.sent_le hr, ← List.append_assoc, h.words, List.append_assoc]
  · rw [if_neg (mt List.isEmpty_iff.mp hasm)]
    have hsent : p.sent ≤ t.earlyWords.length := by
      rw [← hl, List.length_append]
      exact Nat.le_add_right_of_le h.sent_le
    refine ⟨rfl, hinc, hsent, ?_⟩
    rw [PortState.pending, hrsp, List.nil_append, List.append_nil, ← hl,
      PortState.drop_sent_append h.sent_le hr, ← List.append_assoc, h.words, List.append_assoc]

end

/-! ### An edge and its record -/

section

variable {depth : Nat} {x : PinsIn × Pace} {p q : PortState} {tr : PortTrace}

/-- Out of reset an edge gives, takes and fills (R61). -/
theorem PortState.edge_cases {i : PinsIn} {pace : Pace} (hr : i.rst = false) (h : p.edge depth i pace = .next q) :
    ∃ r, q = r.fill depth pace.move ∧
      ((p.cmdTransfer depth i pace = true ∧
          (p.give (p.rspTransfer depth i pace)).accept i.cmdData = .next r) ∨
        (p.cmdTransfer depth i pace = false ∧ r = p.give (p.rspTransfer depth i pace))) := by
  cases hc : p.cmdTransfer depth i pace with
  | true =>
    obtain ⟨r, ha⟩ := PortState.accept_completes i.cmdData (p.give (p.rspTransfer depth i pace))
    rw [PortState.edge_taken hr hc ha] at h
    cases h
    exact ⟨r, rfl, .inl ⟨rfl, ha⟩⟩
  | false =>
    rw [PortState.edge_not_taken hr hc] at h
    cases h
    exact ⟨_, rfl, .inr ⟨rfl, rfl⟩⟩

/-- Only a word of the queue is given. -/
theorem PortState.queue_of_rspTransfer {i : PinsIn} {pace : Pace} (h : p.rspTransfer depth i pace = true) :
    p.queue ≠ [] := by
  obtain ⟨-, hv⟩ := Bool.and_eq_true_iff.mp h
  obtain ⟨-, hne⟩ := Bool.and_eq_true_iff.mp hv
  simpa using hne

theorem PortTrace.edge_reset (hr : x.1.rst = true) :
    tr.edge depth x = PortTrace.begin ⟨tr.now.core.hardReset, [], 0⟩ := by
  simp [PortTrace.edge, PortState.edge_reset hr, hr]

theorem PortTrace.edge_next (hr : x.1.rst = false) (hq : tr.now.edge depth x.1 x.2 = .next q) :
    tr.edge depth x =
      { start := tr.start
        commands := tr.commands ++ if tr.now.cmdTransfer depth x.1 x.2 then [x.1.cmdData] else []
        responses := tr.responses ++ if tr.now.rspTransfer depth x.1 x.2 then [tr.now.queue.headD x.2.idle] else []
        now := q } := by
  simp [PortTrace.edge, hq, hr, PortState.pins]

/-- The words transferred since the last reset, taken as a stream, give what the block now holds (R61). -/
def PortTrace.Carries (tr : PortTrace) : Prop :=
  ∃ c, acceptAll tr.commands tr.start = .next c ∧ tr.now.Carries c tr.responses

theorem PortTrace.Carries.begin (ha : decode p.core.asm = .incomplete) (hs : p.sent = 0) :
    (PortTrace.begin p).Carries :=
  ⟨_, rfl, PortState.Carries.start ha hs⟩

/-- Every edge keeps that. -/
theorem PortTrace.Carries.edge (h : tr.Carries) (depth : Nat) (x : PinsIn × Pace) : (tr.edge depth x).Carries := by
  obtain ⟨c, hc, hp⟩ := h
  cases hr : x.1.rst with
  | true =>
    rw [PortTrace.edge_reset hr]
    exact .begin rfl rfl
  | false =>
    obtain ⟨q, hq⟩ := PortState.edge_completes depth x.1 x.2 tr.now
    have hgive := hp.give x.2.idle (PortState.queue_of_rspTransfer (depth := depth) (i := x.1) (pace := x.2))
    rw [PortTrace.edge_next hr hq]
    obtain ⟨r, rfl, ⟨ht, ha⟩ | ⟨ht, rfl⟩⟩ := PortState.edge_cases hr hq
    · obtain ⟨d, hd⟩ := accept_completes x.1.cmdData c
      have hrsp : (tr.now.give (tr.now.rspTransfer depth x.1 x.2)).core.rsp = [] := by
        rw [PortState.give_core]
        exact (PortState.cmdTransfer_iff.mp ht).2.2.2.1
      rw [ht, if_pos rfl]
      exact ⟨d, (acceptAll_append_singleton _ hc).trans hd, (hgive.accept hrsp hd ha).fill depth x.2.move⟩
    · rw [ht, if_neg Bool.false_ne_true, List.append_nil]
      exact ⟨c, hc, hgive.fill depth x.2.move⟩

theorem portRun_carries (depth : Nat) (xs : List (PinsIn × Pace)) (ha : decode p.core.asm = .incomplete)
    (hs : p.sent = 0) : (portRun depth xs p).Carries :=
  List.foldlRecOn xs _ (.begin ha hs) fun _ h x _ => h.edge depth x

end

/-! ### Words are held -/

section

variable {depth : Nat} {i : PinsIn} {pace : Pace} {p q : PortState}

/-- Taking a command word leaves the queue. -/
theorem PortState.accept_queue {w : Word} (h : p.accept w = .next q) : q.queue = p.queue := by
  obtain ⟨t, ht⟩ := Machine.accept_completes w p.core
  rw [PortState.accept_eq ht] at h
  cases h
  split <;> rfl

/-- An edge out of reset gives at most the oldest word of the queue, and adds at its end (R61). -/
theorem PortState.edge_queue (hr : i.rst = false) (h : p.edge depth i pace = .next q) :
    ∃ entering, q.queue = (p.give (p.rspTransfer depth i pace)).queue ++ entering := by
  obtain ⟨r, rfl, ⟨-, ha⟩ | ⟨-, rfl⟩⟩ := PortState.edge_cases hr h
  · rw [← PortState.accept_queue ha]
    exact ⟨_, rfl⟩
  · exact ⟨_, rfl⟩

/-- A response word on offer that is not transferred stays on offer (R61). -/
theorem PortState.edge_holds_response (hr : i.rst = false) (h : p.edge depth i pace = .next q)
    (hv : (p.pins depth false pace).rspValid = true) (ht : p.rspTransfer depth i pace = false) (pace' : Pace) :
    (q.pins depth false pace').rspValid = true ∧
      (q.pins depth false pace').rspData = (p.pins depth false pace).rspData := by
  obtain ⟨entering, hq⟩ := PortState.edge_queue hr h
  rw [ht] at hq
  cases hp : p.queue with
  | nil => simp [PortState.pins, hp] at hv
  | cons x xs =>
    have hq' : q.queue = x :: (xs ++ entering) := hq.trans (congrArg (· ++ entering) hp)
    simp [PortState.pins, hp, hq']

end

/-! ### A host that takes no response -/

/-- The stream of an `SW.MMASK` with a magnitude to come is unfinished (R62). -/
theorem decode_mask_incomplete {fs n : Word} {m : List Word} (h : m.length < n.toNat) :
    decode (0x00000040#32 :: fs :: n :: m) = .incomplete := by
  have ht : headerTest 0x00000040#32 = .legal .swMmask := by decide
  rw [decode_cons_legal _ ht]
  simp [decodeOperands, takeVector, h]

section

variable {depth : Nat} {x : PinsIn × Pace} {s : State} {fs n : Word} {p : PortState} {tr : PortTrace}

/-- Since the block `s` between two commands nothing was reset and no response taken, and of an `SW.MMASK` with `n`
magnitudes fewer than `n` have been taken. -/
structure PortTrace.Undrained (s : State) (fs n : Word) (tr : PortTrace) : Prop where
  carries : tr.Carries
  start : tr.start = s
  untaken : tr.responses = []
  short : [0x00000040#32, fs, n] <+: tr.commands → tr.commands.length < 3 + n.toNat

/-- Then the words taken of the mask are held, and every response word is queued or pending. -/
theorem PortTrace.Undrained.held (h : tr.Undrained s fs n) (hs : s.asm = []) {m : List Word}
    (hm : tr.commands = 0x00000040#32 :: fs :: n :: m) :
    tr.now.core.asm = tr.commands ∧
      tr.now.queue.length + tr.now.pending.length = s.rsp.length + m.length := by
  obtain ⟨⟨c, hc, hp⟩, hstart, huntaken, hshort⟩ := h
  have hlt : m.length < n.toNat := by
    have := hshort ⟨m, hm.symm⟩
    rw [hm] at this
    simp only [List.length_cons] at this
    omega
  have hinc : decode (s.asm ++ tr.commands) = .incomplete := by
    rw [hs, hm]
    exact decode_mask_incomplete hlt
  rw [hstart, acceptAll_incomplete _ s hinc, hs] at hc
  cases hc
  have hasm : tr.now.core.asm = tr.commands := by
    rw [hp.core]
    rfl
  refine ⟨hasm, ?_⟩
  have hwords := congrArg List.length hp.words
  rw [State.earlyWords_eq (hasm.trans hm) (by decide), huntaken] at hwords
  simpa using hwords

/-- An edge without a response taken keeps that, where the words do not fit into the queue: with them all but one of
the magnitudes taken there is no room for the answer to the last (R75, R291). -/
theorem PortTrace.Undrained.edge (h : tr.Undrained s fs n) (hs : s.asm = []) (hn : 0 < n.toNat)
    (hd : depth < s.rsp.length + n.toNat) (hr : x.1.rst = false) (hready : x.1.rspReady = false) :
    (tr.edge depth x).Undrained s fs n := by
  have hcarries := h.carries.edge depth x
  obtain ⟨q, hq⟩ := PortState.edge_completes depth x.1 x.2 tr.now
  rw [PortTrace.edge_next hr hq] at hcarries ⊢
  refine ⟨hcarries, h.start, ?_, ?_⟩
  · simp [PortState.rspTransfer, hready, h.untaken]
  cases ht : tr.now.cmdTransfer depth x.1 x.2 with
  | false => simpa using h.short
  | true =>
    intro hpre
    rw [if_pos rfl] at hpre ⊢
    rcases List.prefix_concat_iff.mp hpre with heq | hpre
    · rw [← heq]
      exact Nat.lt_add_of_pos_right hn
    · obtain ⟨m, hm⟩ := hpre
      have hm : 0x00000040#32 :: fs :: n :: m = tr.commands := hm
      obtain ⟨hasm, hcount⟩ := h.held hs hm.symm
      obtain ⟨-, -, -, -, hroom, -⟩ := PortState.cmdTransfer_iff.mp ht
      have hopen : tr.now.core.openMask = some (fs, m) :=
        State.openMask_eq_some.mpr ⟨_, n, hasm.trans hm.symm, by decide⟩
      simp only [PortState.hasRoom, hopen, Option.isNone_some, Bool.false_or, decide_eq_true_eq] at hroom
      rw [← hm, List.length_append, List.length_cons, List.length_cons, List.length_cons, List.length_singleton]
      omega

theorem portRun_undrained {xs : List (PinsIn × Pace)} (hp : p.core.asm = []) (hsent : p.sent = 0) (hn : 0 < n.toNat)
    (hd : depth < p.queue.length + n.toNat) (hx : ∀ x ∈ xs, x.1.rst = false ∧ x.1.rspReady = false) :
    (portRun depth xs p).Undrained { p.core with rsp := p.queue ++ p.core.rsp } fs n := by
  have hdepth : depth < (p.queue ++ p.core.rsp).length + n.toNat := by
    rw [List.length_append]
    omega
  refine List.foldlRecOn xs _ ⟨.begin (by rw [hp]; rfl) hsent, rfl, rfl, fun h => ?_⟩ fun tr h x hmem => ?_
  · cases List.prefix_nil.mp h
  · exact h.edge hp hn hdepth (hx x hmem).1 (hx x hmem).2

end

/-! ### A host that drains -/

section

variable {depth : Nat} {x : PinsIn × Pace} {p q : PortState} {tr : PortTrace}

/-- The host offers a word and takes responses, and the block is willing and queues a word. -/
def Drains (x : PinsIn × Pace) : Prop :=
  x.1.rst = false ∧ x.1.cmdValid = true ∧ x.1.rspReady = true ∧ x.2.take = true ∧ 1 ≤ x.2.move

/-- The edges that may go by before a command word is taken. -/
def PortState.backlog (p : PortState) : Nat := 2 * p.pending.length + p.queue.length

/-- With nothing pending and nothing queued the block takes the word. -/
theorem PortState.backlog_pos_of_not_taken (hdepth : 1 ≤ depth) (hf : p.core.fault = false) (hx : Drains x)
    (ht : p.cmdTransfer depth x.1 x.2 = false) : 0 < p.backlog := by
  obtain ⟨hr, hvalid, -, htake, -⟩ := hx
  by_contra hzero
  have hpending : p.pending = [] := List.length_eq_zero_iff.mp (by simp only [PortState.backlog] at hzero; omega)
  have hqueue : p.queue.length = 0 := by simp only [PortState.backlog] at hzero; omega
  have hroom : p.hasRoom depth = true := by
    simp [PortState.hasRoom, hpending, hqueue, Nat.zero_lt_of_lt hdepth]
  have hrsp : p.core.rsp = [] := (List.append_eq_nil_iff.mp hpending).1
  rw [PortState.cmdTransfer_iff.mpr ⟨hvalid, hr, hf, hrsp, hroom, htake⟩] at ht
  cases ht

/-- How many words enter the queue. -/
theorem PortState.fill_lengths (p : PortState) (depth n : Nat) :
    (p.fill depth n).queue.length = p.queue.length + min (min n (depth - p.queue.length)) p.pending.length ∧
      (p.fill depth n).queue.length + (p.fill depth n).pending.length = p.queue.length + p.pending.length := by
  have hstream := congrArg List.length (p.fill_stream depth n)
  rw [List.length_append, List.length_append] at hstream
  refine ⟨?_, hstream⟩
  simp only [PortState.fill, List.length_append, List.length_take]

/-- An edge at which a draining host gives no command word shortens the backlog. -/
theorem PortState.edge_shortens_backlog (hdepth : 1 ≤ depth) (hf : p.core.fault = false) (hx : Drains x)
    (ht : p.cmdTransfer depth x.1 x.2 = false) (hq : p.edge depth x.1 x.2 = .next q) :
    q.core.fault = false ∧ q.backlog < p.backlog := by
  have hpos := PortState.backlog_pos_of_not_taken hdepth hf hx ht
  obtain ⟨hr, -, hready, -, hmove⟩ := hx
  rw [PortState.edge_not_taken hr ht] at hq
  cases hq
  refine ⟨by rw [PortState.fill_core, PortState.give_core]; exact hf, ?_⟩
  obtain ⟨hlen, hsum⟩ := (p.give (p.rspTransfer depth x.1 x.2)).fill_lengths depth x.2.move
  rw [PortState.give_pending] at hlen hsum
  have hgive : (p.give (p.rspTransfer depth x.1 x.2)).queue.length = p.queue.length - 1 := by
    cases hqueue : p.queue <;> simp [PortState.give, PortState.rspTransfer, PortState.pins, hready, hr, hqueue]
  simp only [PortState.backlog] at hpos ⊢
  omega

/-- A run that has taken a command word has taken one after any edges without reset. -/
theorem foldl_edge_commands_ne_nil {xs : List (PinsIn × Pace)} (hx : ∀ x ∈ xs, Drains x) (h : tr.commands ≠ []) :
    (xs.foldl (PortTrace.edge depth) tr).commands ≠ [] := by
  refine List.foldlRecOn (motive := fun t : PortTrace => t.commands ≠ []) xs _ h fun t ht x hmem => ?_
  obtain ⟨q, hq⟩ := PortState.edge_completes depth x.1 x.2 t.now
  rw [PortTrace.edge_next (hx x hmem).1 hq]
  exact List.append_ne_nil_of_left_ne_nil ht _

/-- A draining host has a command word taken before more edges have gone by than the backlog has (R291). -/
theorem foldl_edge_progress (hdepth : 1 ≤ depth) (xs : List (PinsIn × Pace)) (hx : ∀ x ∈ xs, Drains x) :
    ∀ tr : PortTrace, tr.now.core.fault = false → tr.now.backlog < xs.length →
      (xs.foldl (PortTrace.edge depth) tr).commands ≠ [] := by
  induction xs with
  | nil => exact fun _ _ h => absurd h (Nat.not_lt_zero _)
  | cons x xs ih =>
    intro tr hf hlt
    obtain ⟨hhead, htail⟩ := List.forall_mem_cons.mp hx
    obtain ⟨q, hq⟩ := PortState.edge_completes depth x.1 x.2 tr.now
    have hnext := PortTrace.edge_next hhead.1 hq
    rw [List.foldl_cons]
    cases ht : tr.now.cmdTransfer depth x.1 x.2 with
    | true =>
      refine foldl_edge_commands_ne_nil htail ?_
      simp [hnext, ht]
    | false =>
      obtain ⟨hfq, hshort⟩ := PortState.edge_shortens_backlog hdepth hf hhead ht hq
      rw [List.length_cons] at hlt
      rw [hnext]
      exact ih htail _ hfq (Nat.lt_of_lt_of_le hshort (Nat.le_of_lt_succ hlt))

end

end Sys2Proof.Machine
end

section
/-! PROOFS. The obligations of the family 20_memory: the command stream, the responses and the pins. -/

namespace Sys2Proof.Machine

/-- Settles O12: the words before the last are held, and the last one performs the command. -/
theorem encodedCommandIsPerformed : Obligations.EncodedCommandIsPerformed := by
  intro s i rest hs hw
  refine (run_encode hs hw rest).trans ?_
  rw [← after_offering]
  exact (exec_eq_after i _).symm

/-- Settles O13, by induction on the list of commands. -/
theorem commandStreamIsTheComposition : Obligations.CommandStreamIsTheComposition :=
  fun s is rest hs hw => run_encodes rest is hw s hs

/-- Settles O19: every command commutes with what stands before its response words. -/
theorem noCommandReadsTheResponseStream : Obligations.NoCommandReadsTheResponseStream := by
  intro i s t old h
  have hports := after_atPorts s old s.cmdIn i
  rw [← eq_after h] at hports
  have hcmd : t.cmdIn = s.cmdIn := by rw [eq_after h, cmdIn_after]
  calc exec i { s with rsp := old ++ s.rsp }
      = .next (t.atPorts old s.cmdIn) := (exec_eq_after i _).trans (congrArg _ hports)
    _ = .next { t with rsp := old ++ t.rsp } := by rw [← hcmd]; rfl

/-- Settles O30: each of these commands writes values that do not depend on what it writes. -/
theorem settingTwiceEqualsSettingOnce : Obligations.SettingTwiceEqualsSettingOnce := by
  intro i s t hi h
  rw [eq_after h, exec_eq_after]
  refine congrArg _ ?_
  obtain rfl | rfl | ⟨nfft, fs, rfl⟩ | ⟨ft, en, a, b, fs, rfl⟩ := hi
  · rfl
  · rfl
  · exact after_swCmask_twice nfft fs s
  · exact after_setterOf_twice ft en a b fs s

/-- Settles O7: the step takes the word, and the words taken are the command. -/
theorem stepRunsTheDecodedCommand : Obligations.StepRunsTheDecodedCommand := by
  intro s w ws rest i hb hr hf hc hd
  refine ⟨?_, fun hi => decode_append_rest hi hd⟩
  rw [step_take hb hr hf hc]
  exact accept_command (s := { s with cmdIn := ws }) hd

/-- Settles O59: what the block at its pins carries is kept by every edge. -/
theorem pinsCarryTheSameStream : Obligations.PinsCarryTheSameStream := by
  intro depth xs p ha hs
  obtain ⟨c, hc, hp⟩ := portRun_carries depth xs ha hs
  exact ⟨c, hc, hp.core, hp.words_sent⟩

/-- Settles O60: an unread queue keeps its head; a mask whose words do not fit finds no room for its last answer; and
a draining host shortens the backlog at every edge that takes no command word. -/
theorem responsesAreHeldAndMustBeDrained : Obligations.ResponsesAreHeldAndMustBeDrained := by
  refine ⟨fun depth i pace pace' p q hr h hv ht => PortState.edge_holds_response hr h hv ht pace', ?stuck, ?drained⟩
  case stuck =>
    intro depth xs p fs n hp hsent hx hn hd tr hpre
    have h : tr.Undrained { p.core with rsp := p.queue ++ p.core.rsp } fs n := portRun_undrained hp hsent hn hd hx
    have ⟨m, hm⟩ := hpre
    exact ⟨(h.held hp hm.symm).1, h.short hpre⟩
  case drained =>
    exact fun depth xs p hdepth hf hx hlt => foldl_edge_progress hdepth xs hx (PortTrace.begin p) hf hlt

end Sys2Proof.Machine
end

section
/-! SUPPORT. The encoding (30_encoding.md): the header test in terms of the fields, the mask and the match of a header
word, and the words of a command. -/

namespace Sys2Proof

/-! ### The rows of the opcode table -/

theorem Opcode.mem_all (o : Opcode) : o ∈ Opcode.all := by
  cases o <;> decide

/-- The low byte of a header word is in the column `OPC` exactly when some row has it. -/
theorem mem_opcodeBytes (h : Word) :
    h.toNat % 2 ^ 8 ∈ (Opcode.all.map fun o => o.byte.toNat) ↔ ∃ o : Opcode, headerOpc h = o.byte := by
  simp only [List.mem_map, Opcode.mem_all, true_and, ← toNat_headerOpc, BitVec.toNat_inj]
  exact exists_congr fun o => eq_comm

/-- The low byte of a header word of the row `o` is a setter's exactly when `o` is a setter. -/
theorem mem_setterBytes {h : Word} {o : Opcode} (ho : headerOpc h = o.byte) :
    h.toNat % 2 ^ 8 ∈ ((Opcode.all.filter Opcode.isSetter).map fun p => p.byte.toNat) ↔ o.isSetter = true := by
  simp only [List.mem_map, List.mem_filter, Opcode.mem_all, true_and, ← toNat_headerOpc, BitVec.toNat_inj, ho]
  constructor
  · rintro ⟨p, hp, hb⟩
    rwa [← Opcode.byte_injective hb]
  · exact fun hs => ⟨o, hs, rfl⟩

/-! ### The header test and the fields -/

theorem headerRsv_eq_zero {h : Word} : headerRsv h = 0#23 ↔ h.toNat / 2 ^ 9 = 0 := by
  rw [← toNat_headerRsv, ← BitVec.toNat_inj]
  rfl

theorem headerEn_eq_true {h : Word} : headerEn h = true ↔ h.toNat / 2 ^ 8 % 2 = 1 := by
  rw [headerEn_eq, decide_eq_true_iff]

/-- A header is legal for the row with its opcode when `RSV` is zero and `EN` is set in a setter only (R86). -/
theorem headerTest_legal_iff {h : Word} {o : Opcode} :
    headerTest h = .legal o ↔
      headerRsv h = 0#23 ∧ (headerEn h && !o.isSetter) = false ∧ headerOpc h = o.byte := by
  rw [headerTest_legal]
  constructor
  · rintro ⟨en, rfl, hen⟩
    simpa using hen
  · rintro ⟨hr, he, ho⟩
    refine ⟨headerEn h, ?_, by simpa using he⟩
    have hf := header_eq_fields h
    rwa [hr, ho] at hf

theorem headerTest_illegalOpcode {h : Word} (hn : ∀ o : Opcode, headerOpc h ≠ o.byte) :
    headerTest h = .illegal .illegalOpcode := by
  cases ho : Opcode.ofByte (headerOpc h) with
  | none => simp only [headerTest, ho]
  | some o => exact absurd (Opcode.ofByte_eq_some ho).symm (hn o)

/-- A word with an opcode of the table that is not legal has a reserved bit set (R86). -/
theorem headerTest_reservedBits {h : Word} {o : Opcode} (ho : headerOpc h = o.byte)
    (hn : headerTest h ≠ .legal o) : headerTest h = .illegal .reservedBits := by
  simp only [headerTest, ho, Opcode.ofByte_byte] at hn ⊢
  split_ifs at hn ⊢
  · rfl
  · rfl
  · exact absurd rfl hn

/-! ### Mask and match -/

/-- Two header words are equal when their fields are (R81). -/
theorem fields_inj {r r' : BitVec 23} {e e' : Bool} {b b' : BitVec 8} :
    r ++ BitVec.ofBool e ++ b = r' ++ BitVec.ofBool e' ++ b' ↔ r = r' ∧ e = e' ∧ b = b' := by
  constructor
  · intro h
    have hb : b = b' := by simpa only [BitVec.extractLsb'_append_eq_right] using congrArg (BitVec.extractLsb' 0 8) h
    subst hb
    rw [BitVec.append_left_inj] at h
    have he : BitVec.ofBool e = BitVec.ofBool e' := by
      simpa only [BitVec.extractLsb'_append_eq_right] using congrArg (BitVec.extractLsb' 0 1) h
    rw [he, BitVec.append_left_inj] at h
    exact ⟨h, by simpa using congrArg BitVec.msb he, rfl⟩
  · rintro ⟨rfl, rfl, rfl⟩
    rfl

theorem Opcode.pattern_eq (o : Opcode) : o.pattern = headerWord o false := by
  simpa using (Laws.FirstWord.headerWord_eq o false).symm

/-- The mask covers `RSV` and `OPC`, and `EN` outside the setters (R85). -/
theorem Opcode.mask_eq (o : Opcode) :
    o.mask = BitVec.allOnes 23 ++ BitVec.ofBool (!o.isSetter) ++ BitVec.allOnes 8 := by
  unfold Opcode.mask
  cases o.isSetter <;> decide

/-- The mask keeps `RSV` and `OPC` of a header word, and `EN` outside the setters. -/
theorem and_mask_eq_fields (h : Word) (o : Opcode) :
    h &&& o.mask = headerRsv h ++ BitVec.ofBool (headerEn h && !o.isSetter) ++ headerOpc h := by
  calc h &&& o.mask
      = (headerRsv h ++ BitVec.ofBool (headerEn h) ++ headerOpc h) &&&
          (BitVec.allOnes 23 ++ BitVec.ofBool (!o.isSetter) ++ BitVec.allOnes 8) :=
        congrArg₂ (· &&& ·) (header_eq_fields h) o.mask_eq
    _ = headerRsv h ++ BitVec.ofBool (headerEn h && !o.isSetter) ++ headerOpc h := by
        simp only [BitVec.and_append, BitVec.and_allOnes, BitVec.ofBool_and_ofBool]

/-- Mask and match of a row select the words that the header test takes for the row (R85, R86). -/
theorem headerTest_legal_iff_mask (h : Word) (o : Opcode) : headerTest h = .legal o ↔ h &&& o.mask = o.pattern := by
  rw [headerTest_legal_iff, and_mask_eq_fields, Opcode.pattern_eq]
  exact fields_inj.symm

/-- The header words that R85 lists: one for each row, and a second one with `EN` for each setter. -/
def legalHeaders : List Nat :=
  [0x10, 0x11, 0x12, 0x13, 0x14, 0x15, 0x20, 0x21, 0x22, 0x23, 0x120, 0x121, 0x122, 0x123,
    0x28, 0x29, 0x2A, 0x2B, 0x30, 0x31, 0x32, 0x40, 0x41]

theorem headerWord_mem_legalHeaders :
    ∀ o ∈ Opcode.all, ∀ en, (en = true → o.isSetter = true) → (headerWord o en).toNat ∈ legalHeaders := by
  decide

theorem headerWord_of_mem_legalHeaders :
    ∀ n ∈ legalHeaders, ∃ o ∈ Opcode.all, ∃ en, n = (headerWord o en).toNat ∧ (en = true → o.isSetter = true) := by
  decide

theorem legal_iff_mem_legalHeaders (h : Word) : (∃ o, headerTest h = .legal o) ↔ h.toNat ∈ legalHeaders := by
  constructor
  · rintro ⟨o, hl⟩
    obtain ⟨en, rfl, hen⟩ := headerTest_legal.mp hl
    exact headerWord_mem_legalHeaders o o.mem_all en hen
  · intro hm
    obtain ⟨o, -, en, hn, hen⟩ := headerWord_of_mem_legalHeaders _ hm
    exact ⟨o, headerTest_legal.mpr ⟨en, BitVec.eq_of_toNat_eq hn, hen⟩⟩

/-! ### The words of a command -/

/-- Only a setter has the `EN` bit (R81). -/
theorem Instr.isSetter_of_en {i : Instr} (h : i.en = true) : i.opcode.isSetter = true := by
  have hl := headerTest_legal_iff.mp (headerTest_of_command i)
  simpa [h] using hl.2.1

/-- A stream that decodes to a command is the words of the command and the rest. -/
theorem eq_encode_append_of_decode {ws rest : List Word} {i : Instr} (h : decode ws = .command i rest) :
    i.wf = true ∧ ws = encode i ++ rest := by
  cases ws with
  | nil => cases h
  | cons w ws =>
    cases ht : headerTest w with
    | illegal c =>
      rw [decode_cons_illegal ws ht] at h
      cases h
    | legal o =>
      rw [decode_cons_legal ws ht] at h
      obtain ⟨hw, rfl, hset, rfl⟩ := decodeOperands_command h
      obtain ⟨en, rfl, hen⟩ := headerTest_legal.mp ht
      rw [headerEn_headerWord] at hset
      have he : i.en = en :=
        Bool.eq_iff_iff.mpr ⟨fun hi => hset (Instr.isSetter_of_en hi) ▸ hi, fun he => (hset (hen he)).trans he⟩
      exact ⟨hw, by rw [encode, he, List.cons_append]⟩

theorem length_of_countMatches {n : Word} {v : List Word} (h : countMatches n v = true) : v.length = n.toNat :=
  beq_iff_eq.mp h

/-- The longest command is an `SW.MMASK` of `2^32 - 1` magnitudes (R80, R82). -/
theorem length_operands_le {i : Instr} (hw : i.wf = true) : i.operands.length ≤ 2 ^ 32 + 1 := by
  cases i with
  | saLoad n v =>
    rw [Instr.operands, List.length_cons, length_of_countMatches hw]
    omega
  | swMmask fs n m =>
    rw [Instr.operands, List.length_cons, List.length_cons, length_of_countMatches hw]
    omega
  | _ => simp [Instr.operands]

end Sys2Proof

namespace Sys2Proof.Machine

/-! ### Taking a header word -/

section

variable {s : State} {h : Word}

/-- A header word that is no command writes the fault registers and nothing else (R252). -/
theorem accept_illegal_header (ha : s.asm = []) {c : DecodeFault} (ht : headerTest h = .illegal c) :
    accept h s = .next { s with fault := true, fcode := c.code, fword := h } := by
  rw [accept_illegal (c := c) (h := h) (by rw [ha]; exact decode_cons_illegal [] ht), State.enterFault, ← ha]

/-- A legal header word raises no fault. -/
theorem accept_legal_header (ha : s.asm = []) {o : Opcode} (ht : headerTest h = .legal o) :
    ∃ t, accept h s = .next t ∧ t.fault = s.fault ∧ t.fcode = s.fcode ∧ t.fword = s.fword := by
  obtain ⟨t, hacc⟩ := accept_completes h s
  refine ⟨t, hacc, ?_⟩
  obtain ⟨i, rest, -, rfl⟩ | ⟨c, x, hd, -⟩ | ⟨-, rfl⟩ := accept_cases hacc
  · obtain ⟨-, hf, hc, hw, -⟩ := sameControl_after i { s with asm := rest }
    exact ⟨hf, hc, hw⟩
  · rw [ha] at hd
    obtain ⟨r, hr, hx⟩ := decode_illegal_head hd
    cases hr
    rw [ht] at hx
    cases hx
  · exact ⟨rfl, rfl, rfl⟩

end

/-! ### The push and the cascade on each other's state -/

section

variable (s t : State) (u : FilterType) (x : Word)

/-- What `SA.PUSH` leaves but for its answer: a frame when the push fills the window, and the sample stored (R140). -/
def State.push : State :=
  let f := (s.withWindow (s.wbuf.set s.cnt x)).frame
  { s with
    wbuf := f.wbuf
    cnt := if s.fillsWindow then 0 else s.cnt + 1
    cbuf := if s.fillsWindow then f.cbuf else s.cbuf
    mag := if s.fillsWindow then f.mag else s.mag
    saDraw := if s.fillsWindow then f.saDraw else s.saDraw }

theorem after_saPush : after (.saPush x) s = (s.push x).respond [b2w s.fillsWindow] := by
  refine (eq_after (i := .saPush x) ?_).symm
  simp only [exec, execSaPush, State.push]
  cases s.fillsWindow <;> rfl

/-- `s` with the filters of `t` and the count of the stages run there. -/
def State.withFilters : State := { s with bank := t.bank, fbDraw := t.fbDraw }

/-- The push reads no filter and no count of stages (R41). -/
theorem State.push_withFilters : (s.withFilters t).push x = (s.push x).withFilters t := rfl

/-- A stage reads the filters, the count of stages and the build, and of these writes the first two (R200). -/
theorem State.stage_withFilters (hb : s.build = t.build) :
    (s.withFilters t).stage u x = ((t.stage u x).1, s.withFilters (t.stage u x).2) := by
  cases hr : (t.filter u).runs
  · rw [State.stage_not_runs x hr, State.stage_not_runs (s := s.withFilters t) x hr]
  · rw [State.stage_runs x hr, State.stage_runs (s := s.withFilters t) x hr, ← hb]
    rfl

/-- So does the cascade: the analyzer is nothing to it (R41, R201). -/
theorem State.cascade_withFilters (hb : s.build = t.build) :
    (s.withFilters t).cascade x = ((t.cascade x).1, s.withFilters (t.cascade x).2) := by
  simp only [State.cascade, State.stage_withFilters, State.stage_build, hb]

theorem State.respond_respond (ws vs : List Word) : (s.respond ws).respond vs = s.respond (ws ++ vs) := by
  simp only [State.respond, List.append_assoc]

/-- `FB.PROC` after `SA.PUSH`: the cascade runs on the filters of `s`, which the push leaves. -/
theorem after_fbProc_after_saPush :
    after (.fbProc x) (after (.saPush x) s) =
      ((s.push x).withFilters (s.cascade x).2).respond [b2w s.fillsWindow, (s.cascade x).1] := by
  have hp : after (.saPush x) s = ((s.push x).respond [b2w s.fillsWindow]).withFilters s := after_saPush s x
  rw [hp, after_fbProc, State.cascade_withFilters ((s.push x).respond _) s x rfl]
  exact State.respond_respond ((s.push x).withFilters (s.cascade x).2) _ _

/-- `SA.PUSH` after `FB.PROC`: the push runs on the window of `s`, which the cascade leaves. -/
theorem after_saPush_after_fbProc :
    after (.saPush x) (after (.fbProc x) s) =
      ((s.push x).withFilters (s.cascade x).2).respond [(s.cascade x).1, b2w s.fillsWindow] := by
  have hc : after (.fbProc x) s = (s.respond [(s.cascade x).1]).withFilters (s.cascade x).2 :=
    congrArg (State.respond · _) (State.cascade_frame s x)
  rw [hc, after_saPush, State.push_withFilters]
  exact State.respond_respond ((s.push x).withFilters (s.cascade x).2) _ _

/-- `SA.RST` and `FB.RST` write different state (R143, R202). -/
theorem after_saRst_after_fbRst : after .saRst (after .fbRst s) = after .fbRst (after .saRst s) := rfl

theorem performAll_pair (i j : Instr) : performAll [i, j] s = .next (after j (after i s)) := by
  simp only [performAll, exec_eq_after]

end

/-! ### Response words -/

theorem Filter.length_readBack {f : Filter} {l : Nat} (hf : f.Inv l) :
    f.readBack.length = if f.hasc then 4 + l else 4 := by
  have hl := hf.coef_length
  cases hh : f.hasc <;> simp [Filter.readBack, hh, hl]
  omega

theorem responseCount_setterOf (s : State) (t : FilterType) (en : Bool) (a b fs : Word) :
    responseCount s (setterOf t en a b fs) = 0 := by
  cases t <;> rfl

theorem responseCount_readBackOf (s : State) (t : FilterType) :
    responseCount s (readBackOf t) = if (s.filter t).hasc then 4 + s.build.l else 4 := by
  cases t <;> rfl

theorem length_respond (s : State) (ws : List Word) : (s.respond ws).rsp.length = s.rsp.length + ws.length :=
  List.length_append

/-- Every command appends as many response words as the opcode table says (R85). -/
theorem length_rsp_after {s : State} (hs : s.Inv) (i : Instr) (hw : i.wf = true) :
    (after i s).rsp.length = s.rsp.length + responseCount s i := by
  cases i using command_kinds with
  | saPush x => rw [after_saPush, length_respond]; rfl
  | saLoad | saRst | fbRst | swCmask => rfl
  | saInv => rw [after_saInv, length_respond, length_idft]; rfl
  | saRdmag => rw [after_saRdmag, length_respond, hs.mag_length]; rfl
  | saRdcx => rw [after_saRdcx, length_respond, length_cplxWords, hs.cbuf_length]; rfl
  | setter t en a b fs => rw [after_setterOf, responseCount_setterOf]; rfl
  | readBack t =>
    rw [after_readBackOf, length_respond, Filter.length_readBack (hs.filter_inv t), responseCount_readBackOf]
  | fbProc x => rw [after_fbProc, length_respond, (State.cascade_frame s x).rsp]; rfl
  | fbActive => rw [after_fbActive, length_respond]; rfl
  | swMmask fs n m =>
    rw [after_swMmask, length_respond, length_maskedMags, ← length_of_countMatches hw, List.take_length,
      length_of_countMatches hw]
    rfl

end Sys2Proof.Machine
end

section
/-! PROOFS. The obligations of the family 30_encoding: the decoder and the encoder, the header test, the response
words, and the pseudo-commands. -/

namespace Sys2Proof.Machine

/-- Settles O1: the header of a command is legal, and its operands decode to it. -/
theorem decodeOfEncodeIsTheCommand : Obligations.DecodeOfEncodeIsTheCommand :=
  fun _ rest hw => decode_encode_append hw rest

/-- Settles O2: a legal header is the header of the command read after it, and its operands are the words taken. -/
theorem encodeOfDecodeIsTheStream : Obligations.EncodeOfDecodeIsTheStream :=
  fun _ _ _ h => eq_encode_append_of_decode h

/-- Settles O3: the lists of opcodes and of setters are columns of the opcode table, and each clause is one answer
of the header test. -/
theorem badHeaderRaisesTheDecodeFault : Obligations.BadHeaderRaisesTheDecodeFault := by
  intro h s ha opc en rsv opcodes setters
  have hopc : opc ∈ opcodes ↔ ∃ o : Opcode, headerOpc h = o.byte := mem_opcodeBytes h
  have hset {o : Opcode} (ho : headerOpc h = o.byte) : opc ∈ setters ↔ o.isSetter = true := mem_setterBytes ho
  have hrsv : rsv = 0 ↔ headerRsv h = 0#23 := headerRsv_eq_zero.symm
  have hen : en = 1 ↔ headerEn h = true := headerEn_eq_true.symm
  refine ⟨fun hn => ?opcode, fun hm hr => ?reserved, fun hm _ he hs => ?enable, fun hm hr he => ?legal⟩
  case opcode => exact accept_illegal_header ha (headerTest_illegalOpcode fun o ho => hn (hopc.mpr ⟨o, ho⟩))
  case reserved =>
    obtain ⟨o, ho⟩ := hopc.mp hm
    refine accept_illegal_header ha (headerTest_reservedBits ho fun hl => hr ?_)
    exact hrsv.mpr (headerTest_legal_iff.mp hl).1
  case enable =>
    obtain ⟨o, ho⟩ := hopc.mp hm
    refine accept_illegal_header ha (headerTest_reservedBits ho fun hl => hs ?_)
    obtain ⟨-, hfree, -⟩ := headerTest_legal_iff.mp hl
    rw [hset ho]
    simpa [hen.mp he] using hfree
  case legal =>
    obtain ⟨o, ho⟩ := hopc.mp hm
    refine accept_legal_header ha (headerTest_legal_iff.mpr ⟨hrsv.mp hr, ?_, ho⟩)
    obtain h0 | hs := he
    · have hf : headerEn h = false := Bool.eq_false_iff.mpr fun h1 => by simp [hen.mpr h1] at h0
      rw [hf, Bool.false_and]
    · rw [(hset ho).mp hs, Bool.not_true, Bool.and_false]

/-- Settles O4: mask and match compare the three fields of the word, as the header test does. -/
theorem matchAndMaskSelectTheCommand : Obligations.MatchAndMaskSelectTheCommand := by
  refine ⟨headerTest_legal_iff_mask, fun h o p ho hp => ?_, legal_iff_mem_legalHeaders⟩
  rw [← headerTest_legal_iff_mask] at ho hp
  exact Header.legal.inj (ho.symm.trans hp)

/-- Settles O5: the counts are those of the operands, and a shorter beginning lacks the last words. -/
theorem commandsEndAtTheirLastWord : Obligations.CommandsEndAtTheirLastWord := by
  refine ⟨fun i hw => ⟨?count, Nat.succ_pos _, Nat.succ_le_succ (length_operands_le hw)⟩, fun ws i k hd hk => ?part⟩
  case count =>
    cases i with
    | saLoad n v =>
      simp only [encode, Instr.operands, List.length_cons, length_of_countMatches hw]
      omega
    | swMmask fs n m =>
      simp only [encode, Instr.operands, List.length_cons, length_of_countMatches hw]
      omega
    | _ => rfl
  case part =>
    refine decode_incomplete_of_command_append (more := ws.drop k) ?_ ((List.take_append_drop k ws).symm ▸ hd)
    exact List.ne_nil_of_length_pos (by rw [List.length_drop]; omega)

/-- Settles O17: one equation of the state left, for each kind of command. -/
theorem responseWordCounts : Obligations.ResponseWordCounts := by
  intro i s t hs hw h
  rw [eq_after h]
  exact length_rsp_after hs i hw

/-- Settles O44: in both orders the state is what the push leaves with the filters that the cascade leaves, and the
two resets write different fields. -/
theorem analyzerAndFilterCommandsCommute : Obligations.AnalyzerAndFilterCommandsCommute := by
  intro x s
  refine ⟨⟨_, _, (s.cascade x).1, b2w s.fillsWindow, performAll_pair s (.saPush x) (.fbProc x),
    performAll_pair s (.fbProc x) (.saPush x), ?_⟩, _, performAll_pair s .fbRst .saRst,
    (performAll_pair s .saRst .fbRst).trans (congrArg _ (after_saRst_after_fbRst s).symm)⟩
  rw [after_fbProc_after_saPush, after_saPush_after_fbProc]
  exact ⟨rfl, rfl, rfl⟩

/-- Settles O6: four streams are encodings, and two begin with a word that the header test refuses. -/
theorem wordsOfTheSpecDecode : Obligations.WordsOfTheSpecDecode :=
  ⟨decode_encode_append (i := .cgSetlp true 0x43FA0000#32 0x472C4400#32) rfl [],
    decode_encode_append (i := .saPush 0x3F800000#32) rfl [],
    decode_encode_append (i := .cgSetbp true 0x3F800000#32 0x40400000#32 0x41000000#32) rfl [],
    decode_encode_append (i := .swCmask 8#32 0x45FA0000#32) rfl [],
    decode_cons_illegal [] (by decide), decode_cons_illegal [] (by decide)⟩

end Sys2Proof.Machine
end

section
/-! SUPPORT. The value of a binary32 word (R110): how units and value depend on exponent, fraction and sign. -/

namespace Sys2Proof.Machine.F32

theorem frac_lt (w : Word) : frac w < 2 ^ 23 := Nat.mod_lt _ (by decide)

/-- Exponent and fraction are the bits 30:0 (R110). -/
theorem mag_eq_expo_frac (w : Word) : mag w = 2 ^ 23 * expo w + frac w := (Nat.div_add_mod _ _).symm

/-! ### The magnitude in units -/

theorem units_of_expo_zero {w : Word} (h : expo w = 0) : units w = frac w := if_pos h

theorem units_of_expo_succ {w : Word} {e : Nat} (h : expo w = e + 1) : units w = (2 ^ 23 + frac w) * 2 ^ e := by
  rw [units, if_neg (by omega), h, Nat.add_sub_cancel]

/-- The units are those of the bits 30:0. -/
theorem units_congr {a b : Word} (h : mag a = mag b) : units a = units b := by
  unfold units expo frac
  rw [h]

/-- The numbers with a smaller exponent lie below a binade. -/
theorem units_lt (w : Word) : units w < 2 ^ 23 * 2 ^ expo w := by
  have hf := frac_lt w
  cases he : expo w with
  | zero => rwa [units_of_expo_zero he, pow_zero, mul_one]
  | succ e =>
    rw [units_of_expo_succ he, pow_succ' 2 e, ← mul_assoc]
    exact Nat.mul_lt_mul_of_pos_right (by omega) (Nat.two_pow_pos e)

/-- Two exponents differ by a factor of two at least. -/
theorem units_lt_units_of_expo_lt {a b : Word} (h : expo a < expo b) : units a < units b := by
  obtain ⟨e, he⟩ := Nat.exists_eq_succ_of_ne_zero (Nat.ne_zero_of_lt h)
  calc units a < 2 ^ 23 * 2 ^ expo a := units_lt a
    _ ≤ 2 ^ 23 * 2 ^ e := Nat.mul_le_mul_left _ (Nat.pow_le_pow_right (by decide) (by omega))
    _ ≤ (2 ^ 23 + frac b) * 2 ^ e := Nat.mul_le_mul_right _ (Nat.le_add_right _ _)
    _ = units b := (units_of_expo_succ he).symm

/-- Within one binade the fraction decides. -/
theorem units_lt_units_of_frac_lt {a b : Word} (he : expo a = expo b) (hf : frac a < frac b) :
    units a < units b := by
  cases hb : expo b with
  | zero => rwa [units_of_expo_zero hb, units_of_expo_zero (he.trans hb)]
  | succ e =>
    rw [units_of_expo_succ hb, units_of_expo_succ (he.trans hb)]
    exact Nat.mul_lt_mul_of_pos_right (by omega) (Nat.two_pow_pos e)

/-- Units grow with the bits 30:0. -/
theorem units_lt_units {a b : Word} (h : mag a < mag b) : units a < units b := by
  rw [mag_eq_expo_frac, mag_eq_expo_frac b] at h
  have ha := frac_lt a
  have hb := frac_lt b
  obtain he | he : expo a < expo b ∨ expo a = expo b := by omega
  · exact units_lt_units_of_expo_lt he
  · exact units_lt_units_of_frac_lt he (by omega)

theorem units_lt_iff {a b : Word} : units a < units b ↔ mag a < mag b := by
  refine ⟨fun h => ?_, units_lt_units⟩
  by_contra hle
  obtain heq | hlt := Nat.eq_or_lt_of_not_lt hle
  · exact h.ne (units_congr heq)
  · exact h.asymm (units_lt_units hlt)

theorem units_le_iff {a b : Word} : units a ≤ units b ↔ mag a ≤ mag b := by
  rw [← not_lt, units_lt_iff, not_lt]

theorem units_eq_zero {w : Word} : units w = 0 ↔ mag w = 0 := by
  have h := units_le_iff (a := w) (b := 0x00000000#32)
  rwa [show units 0x00000000#32 = 0 by decide, show mag 0x00000000#32 = 0 by decide, Nat.le_zero, Nat.le_zero] at h

theorem units_pos {w : Word} (hz : isZero w = false) : 0 < units w := by
  refine Nat.pos_of_ne_zero fun h => ?_
  rw [units_eq_zero, ← isZero_iff, hz] at h
  cases h

/-- Finite numbers are below `2 ^ 277` units. -/
theorem units_lt_of_isFinite {w : Word} (h : isFinite w = true) : units w < 2 ^ 23 * 2 ^ 254 := by
  rw [isFinite_iff] at h
  refine (units_lt w).trans_le (Nat.mul_le_mul_left _ (Nat.pow_le_pow_right (by decide) ?_))
  unfold expo
  omega

/-- The word with `n` of the units of the binade `k`: a significand of 24 bits, or a shorter one in the
subnormal binade; `2 ^ 24` is the carry into the next binade. -/
theorem units_eq_mul_pow {w : Word} {k n : Nat} (hm : mag w = 2 ^ 23 * k + n) (hn : n ≤ 2 ^ 24)
    (hk : k = 0 ∨ 2 ^ 23 ≤ n) : units w = n * 2 ^ k := by
  have hf := frac_lt w
  rw [mag_eq_expo_frac] at hm
  obtain h | h | h : (k = 0 ∧ n < 2 ^ 23) ∨ (2 ^ 23 ≤ n ∧ n < 2 ^ 24) ∨ n = 2 ^ 24 := by omega
  · rw [units_of_expo_zero (by omega), h.1, pow_zero]
    omega
  · rw [units_of_expo_succ (e := k) (by omega)]
    congr 1
    omega
  · rw [units_of_expo_succ (e := k + 1) (by omega), show frac w = 0 by omega, h, pow_succ']
    omega

/-- From the binade `k` on, all numbers are multiples of its unit. -/
theorem pow_dvd_units {w : Word} {k : Nat} (h : k = 0 ∨ k < expo w) : 2 ^ k ∣ units w := by
  obtain rfl | h := h
  · exact one_dvd _
  · obtain ⟨e, he⟩ := Nat.exists_eq_succ_of_ne_zero (Nat.ne_zero_of_lt h)
    rw [units_of_expo_succ he]
    exact (pow_dvd_pow 2 (by omega)).mul_left _

/-! ### The value -/

theorem value_of_pos {w : Word} (h : sign w = false) : value w = units w := by simp [value, h]

theorem value_of_neg {w : Word} (h : sign w = true) : value w = -units w := by simp [value, h]

theorem natAbs_value (w : Word) : (value w).natAbs = units w := by
  cases h : sign w
  · rw [value_of_pos h, Int.natAbs_natCast]
  · rw [value_of_neg h, Int.natAbs_neg, Int.natAbs_natCast]

theorem value_le_units (w : Word) : value w ≤ units w := by
  rw [← natAbs_value]
  exact Int.le_natAbs

theorem pow_dvd_value {w : Word} {k : Nat} (h : k = 0 ∨ k < expo w) : (2 : Int) ^ k ∣ value w := by
  rw [← Int.dvd_natAbs, natAbs_value]
  exact_mod_cast pow_dvd_units h

theorem value_neg (w : Word) : value (neg w) = -value w := by
  have hu := units_congr (mag_neg w)
  have hs := sign_neg w
  cases h : sign w
  · rw [value_of_pos h, value_of_neg (by rw [hs, h]; rfl), hu]
  · rw [value_of_neg h, value_of_pos (by rw [hs, h]; rfl), hu, neg_neg]

theorem isFinite_neg (w : Word) : isFinite (neg w) = isFinite w := by simp only [isFinite, mag_neg]

theorem isInf_neg (w : Word) : isInf (neg w) = isInf w := by simp only [isInf, mag_neg]

theorem neg_pack (s : Bool) {m : Nat} (h : m < 2 ^ 31) : neg (pack s m) = pack (!s) m :=
  ext_sign_mag (by rw [sign_neg, sign_pack _ h, sign_pack _ h]) (by rw [mag_neg, mag_pack _ h, mag_pack _ h])

/-- A real number with a sign bit. -/
def signed (s : Bool) (x : ℝ) : ℝ := if s then -x else x

theorem signed_true (x : ℝ) : signed true x = -x := rfl

theorem signed_false (x : ℝ) : signed false x = x := rfl

theorem signed_mul (s t : Bool) (x y : ℝ) : signed s x * signed t y = signed (s != t) (x * y) := by
  cases s <;> cases t <;> simp [signed]

theorem signed_div (s t : Bool) (x y : ℝ) : signed s x / signed t y = signed (s != t) (x / y) := by
  cases s <;> cases t <;> simp [signed, neg_div, div_neg]

/-- The number of a finite word: its sign, and its units of `2^-149` (R110). -/
theorem real_eq_signed (w : Word) : Ideal.real w = signed (sign w) (units w / 2 ^ 149) := by
  cases h : sign w
  · rw [Ideal.real, value_of_pos h, signed_false, Int.cast_natCast]
  · rw [Ideal.real, value_of_neg h, signed_true, Int.cast_neg, Int.cast_natCast, neg_div]

theorem real_neg (w : Word) : Ideal.real (neg w) = -Ideal.real w := by
  rw [Ideal.real, value_neg, Int.cast_neg, neg_div, Ideal.real]

theorem abs_real (w : Word) : |Ideal.real w| = units w / 2 ^ 149 := by
  have h : (0 : ℝ) ≤ units w / 2 ^ 149 := by positivity
  rw [real_eq_signed]
  cases sign w
  · exact abs_of_nonneg h
  · rw [signed_true, abs_neg, abs_of_nonneg h]

theorem real_eq_zero {w : Word} : Ideal.real w = 0 ↔ isZero w = true := by
  rw [← abs_eq_zero, abs_real, isZero_iff, ← units_eq_zero]
  simp

end Sys2Proof.Machine.F32
end

section
/-! SUPPORT. Rounding (R111, R119): `round` answers the nearest binary32 number, ties to even, in the sense of
`Ideal.RoundsTo`. -/

namespace Sys2Proof.Machine.F32

/-! ### The significand nearest to a real number -/

/-- `y` units lie in the binade `k` above the subnormal one, or in it where `k = 0`, and `n` is the multiple of
that binade's unit `2 ^ k` nearest to `y`, ties to even. -/
structure Nearest (y : ℝ) (k n : Nat) : Prop where
  nonneg : 0 ≤ y
  binade : k = 0 ∨ 2 ^ 23 * 2 ^ k ≤ y
  below : y < 2 ^ 24 * 2 ^ k
  near : |n * 2 ^ k - y| ≤ 2 ^ k / 2
  tie : |n * 2 ^ k - y| = 2 ^ k / 2 → n % 2 = 0

section

variable {y : ℝ} {k n : Nat} (h : Nearest y k n)

include h

/-- The significand has at most 24 bits, or is the carry out of them. -/
theorem Nearest.le_carry : n ≤ 2 ^ 24 := by
  have hp : (0 : ℝ) < 2 ^ k := by positivity
  have hb := h.below
  have hn := (abs_le.mp h.near).2
  have : (n : ℝ) < 2 ^ 24 + 1 := by
    refine lt_of_mul_lt_mul_right ?_ hp.le
    linarith
  exact Nat.lt_succ_iff.mp (by exact_mod_cast this)

/-- Above the subnormal binade the significand has 24 bits. -/
theorem Nearest.normal : k = 0 ∨ 2 ^ 23 ≤ n := by
  refine h.binade.imp_right fun hb => ?_
  have hp : (0 : ℝ) < 2 ^ k := by positivity
  have hn := (abs_le.mp h.near).1
  have : (2 ^ 23 : ℝ) < n + 1 := by
    refine lt_of_mul_lt_mul_right ?_ hp.le
    linarith
  exact Nat.lt_succ_iff.mp (by exact_mod_cast this)

/-- No multiple of the binade's unit is nearer. -/
theorem Nearest.le_multiple (c : Int) :
    |n * 2 ^ k - y| ≤ |c * 2 ^ k - y| ∧ (|n * 2 ^ k - y| = |c * 2 ^ k - y| → c ≠ n → n % 2 = 0) := by
  obtain rfl | hc := eq_or_ne c n
  · exact ⟨le_of_eq (by rw [Int.cast_natCast]), fun _ hne => absurd rfl hne⟩
  · have hp : (0 : ℝ) < 2 ^ k := by positivity
    have hone : (1 : ℝ) ≤ |(c : ℝ) - n| := by exact_mod_cast Int.one_le_abs (sub_ne_zero.mpr hc)
    have hfar : (2 : ℝ) ^ k ≤ |c * 2 ^ k - y| + |n * 2 ^ k - y| :=
      calc (2 : ℝ) ^ k ≤ |(c : ℝ) - n| * 2 ^ k := le_mul_of_one_le_left hp.le hone
        _ = |((c : ℝ) - n) * 2 ^ k| := by rw [abs_mul, abs_of_pos hp]
        _ = |(c * 2 ^ k - y) - (n * 2 ^ k - y)| := by ring_nf
        _ ≤ _ := abs_sub _ _
    have hnear := h.near
    exact ⟨by linarith, fun heq _ => h.tie (by linarith)⟩

/-- No number is nearer: from the binade on they are multiples of its unit, and those below it are farther than
its lower end. -/
theorem Nearest.le_value (z : Word) :
    |n * 2 ^ k - y| ≤ |value z - y| ∧
      (|n * 2 ^ k - y| = |value z - y| → (value z : ℝ) ≠ n * 2 ^ k → n % 2 = 0) := by
  by_cases hz : k = 0 ∨ k < expo z
  · obtain ⟨c, hc⟩ := pow_dvd_value hz
    have hv : (value z : ℝ) = c * 2 ^ k := by rw [hc]; push_cast; ring
    obtain ⟨hle, heq⟩ := h.le_multiple c
    rw [hv]
    exact ⟨hle, fun he hne => heq he fun hcn => hne (by rw [hcn, Int.cast_natCast])⟩
  · obtain ⟨hk, he⟩ := not_or.mp hz
    have hlow : (2 : ℝ) ^ 23 * 2 ^ k ≤ y := h.binade.resolve_left hk
    have hv : (value z : ℝ) < 2 ^ 23 * 2 ^ k := by
      have hu : units z < 2 ^ 23 * 2 ^ k := (units_lt z).trans_le
        (Nat.mul_le_mul_left _ (Nat.pow_le_pow_right (by decide) (Nat.le_of_not_lt he)))
      exact_mod_cast (value_le_units z).trans_lt (by exact_mod_cast hu)
    have hc := (h.le_multiple (2 ^ 23)).1
    rw [abs_of_nonpos (a := ((2 ^ 23 : Int) : ℝ) * 2 ^ k - y) (by push_cast; linarith)] at hc
    rw [abs_of_nonpos (a := (value z : ℝ) - y) (by linarith)]
    push_cast at hc
    exact ⟨by linarith, fun heq => by linarith⟩

/-- The carry out of the significand begins half a unit below it. -/
theorem Nearest.lt_carry_iff : n < 2 ^ 24 ↔ y < (2 ^ 24 - 1 / 2) * 2 ^ k := by
  have hp : (0 : ℝ) < 2 ^ k := by positivity
  obtain ⟨hlow, hhigh⟩ := abs_le.mp h.near
  constructor
  · intro hn
    by_contra! hy
    have hle : (n : ℝ) * 2 ^ k ≤ (2 ^ 24 - 1) * 2 ^ k := by
      have : (n : ℝ) + 1 ≤ 2 ^ 24 := by exact_mod_cast hn
      exact mul_le_mul_of_nonneg_right (by linarith) hp.le
    have htie : (n : ℝ) * 2 ^ k = (2 ^ 24 - 1) * 2 ^ k := by linarith
    have heven : n % 2 = 0 := h.tie (by rw [abs_of_nonpos (by linarith)]; linarith)
    have hodd : n + 1 = 2 ^ 24 := by
      have := mul_right_cancel₀ hp.ne' htie
      exact_mod_cast eq_sub_iff_add_eq.mp this
    omega
  · intro hy
    have : (n : ℝ) < 2 ^ 24 := by
      refine lt_of_mul_lt_mul_right ?_ hp.le
      linarith
    exact_mod_cast this

/-- The packed significand is below infinity exactly up to half a unit above the largest finite number (R111). -/
theorem Nearest.lt_inf_iff : 2 ^ 23 * k + n < 0x7F800000 ↔ y < (2 ^ 25 - 1) * 2 ^ 252 := by
  obtain hk | rfl | hk := lt_trichotomy k 253
  · have hn := h.le_carry
    have hy : (2 : ℝ) ^ k ≤ 2 ^ 252 := pow_le_pow_right₀ (by norm_num) (by omega)
    exact iff_of_true (by omega) (by linarith [h.below])
  · calc 2 ^ 23 * 253 + n < 0x7F800000 ↔ n < 2 ^ 24 := by omega
      _ ↔ y < (2 ^ 24 - 1 / 2) * 2 ^ 253 := h.lt_carry_iff
      _ ↔ y < (2 ^ 25 - 1) * 2 ^ 252 := by norm_num
  · have hn : 2 ^ 23 ≤ n := h.normal.resolve_left (by omega)
    have hb : (2 : ℝ) ^ 23 * 2 ^ k ≤ y := h.binade.resolve_left (by omega)
    have hy : (2 : ℝ) ^ 254 ≤ 2 ^ k := pow_le_pow_right₀ (by norm_num) (by omega)
    exact iff_of_false (by omega) (by linarith)

/-- Below the threshold the packed significand has the units that the significand says. -/
theorem Nearest.units_pack (s : Bool) (hy : y < (2 ^ 25 - 1) * 2 ^ 252) :
    isFinite (pack s (2 ^ 23 * k + n)) = true ∧ units (pack s (2 ^ 23 * k + n)) = n * 2 ^ k := by
  have hlt := h.lt_inf_iff.mpr hy
  have hm : mag (pack s (2 ^ 23 * k + n)) = 2 ^ 23 * k + n := mag_pack s (by omega)
  exact ⟨by rwa [isFinite_iff, hm], units_eq_mul_pow hm h.le_carry h.normal⟩

/-- The packed significand, or infinity from the threshold on, is the number nearest to `y` units. -/
theorem Nearest.roundsTo : Ideal.RoundsTo (y / 2 ^ 149) (pack false (min (2 ^ 23 * k + n) 0x7F800000)) := by
  have hnn : 0 ≤ y / 2 ^ 149 := div_nonneg h.nonneg (by positivity)
  have hthr : y / 2 ^ 149 < (2 ^ 25 - 1) * 2 ^ 103 ↔ y < (2 ^ 25 - 1) * 2 ^ 252 := by
    rw [div_lt_iff₀ (by positivity)]
    norm_num
  have hdiff (v : ℝ) : |v / 2 ^ 149 - y / 2 ^ 149| = |v - y| / 2 ^ 149 := by
    rw [← sub_div, abs_div, abs_of_pos (a := (2 : ℝ) ^ 149) (by positivity)]
  rw [Ideal.RoundsTo, abs_of_nonneg hnn]
  constructor
  · intro hx
    have hy := hthr.mp hx
    have hm := h.lt_inf_iff.mpr hy
    obtain ⟨hfin, hunits⟩ := h.units_pack false hy
    rw [min_eq_left hm.le]
    have hreal : Ideal.real (pack false (2 ^ 23 * k + n)) = n * 2 ^ k / 2 ^ 149 := by
      rw [real_eq_signed, sign_pack _ (by omega), hunits, signed_false]
      push_cast
      rfl
    refine ⟨hfin, fun z _ => ?_⟩
    obtain ⟨hle, heq⟩ := h.le_value z
    rw [hreal, Ideal.real, hdiff, hdiff, mag_pack _ (by omega)]
    refine ⟨div_le_div_of_nonneg_right hle (by positivity), fun he hne => ?_⟩
    have hn : n % 2 = 0 := heq ((div_left_inj' (by positivity)).mp he) fun hv => hne (by rw [hv])
    omega
  · intro hx
    have hm : ¬2 ^ 23 * k + n < 0x7F800000 := fun hlt => hx.not_gt (hthr.mpr (h.lt_inf_iff.mp hlt))
    rw [min_eq_right (Nat.le_of_not_lt hm)]
    exact ⟨by decide, iff_of_false (by decide) hnn.not_gt⟩

/-- A multiple of the binade's unit is its own nearest one. -/
theorem Nearest.exact {c : Nat} (hc : y = c * 2 ^ k) : n * 2 ^ k = y := by
  have hle := (h.le_multiple c).1
  rw [hc, Int.cast_natCast, sub_self, abs_zero] at hle
  rw [hc]
  exact sub_eq_zero.mp (abs_nonpos_iff.mp hle)

/-- A root between two integers rounds as the number halfway between them does, where the unit is even: no
multiple of half the unit lies in between. -/
theorem Nearest.of_half {q : Nat} {x : ℝ} (hy : y = q + 1 / 2) (hk : 1 ≤ k) (hq : (q : ℝ) < x)
    (hx : x < q + 1) : Nearest x k n := by
  obtain ⟨j, rfl⟩ : ∃ j, k = j + 1 := ⟨k - 1, by omega⟩
  have hhalf : (2 : ℝ) ^ (j + 1) / 2 = 2 ^ j := by rw [pow_succ]; ring
  have hbelow (c : Int) (hc : (c : ℝ) ≤ y) : (c : ℝ) < x := by
    have : c < q + 1 := by exact_mod_cast (show (c : ℝ) < q + 1 by linarith)
    have : (c : ℝ) ≤ q := by exact_mod_cast Int.lt_add_one_iff.mp this
    linarith
  have habove (c : Int) (hc : y ≤ c) : x < c := by
    have : (q : Int) < c := by exact_mod_cast (show (q : ℝ) < c by linarith)
    have : (q : ℝ) + 1 ≤ c := by exact_mod_cast Int.add_one_le_iff.mpr this
    linarith
  obtain ⟨hlow, hhigh⟩ := abs_le.mp h.near
  rw [hhalf] at hlow hhigh
  have hlow' := hbelow (n * 2 ^ (j + 1) - 2 ^ j) (by push_cast; linarith)
  have hhigh' := habove (n * 2 ^ (j + 1) + 2 ^ j) (by push_cast; linarith)
  push_cast at hlow' hhigh'
  have hstrict : |n * 2 ^ (j + 1) - x| < 2 ^ (j + 1) / 2 := by
    rw [hhalf]
    exact abs_lt.mpr ⟨by linarith, by linarith⟩
  refine ⟨(Nat.cast_nonneg q).trans hq.le, .inr ?_, ?_, hstrict.le, fun htie => absurd htie hstrict.ne⟩
  · have hb := hbelow (2 ^ 23 * 2 ^ (j + 1)) (by push_cast; linarith [h.binade.resolve_left (by omega)])
    push_cast at hb
    linarith
  · have ha := habove (2 ^ 24 * 2 ^ (j + 1)) (by push_cast; linarith [h.below])
    push_cast at ha
    linarith

end

/-! ### `round` -/

/-- The number of binades above the subnormal one that `round` reads off the integer part. -/
def binadeOf (num den : Nat) : Nat := Nat.log2 (num / den) - 23

/-- The significand that `round` computes. -/
def significandOf (num den : Nat) : Nat := nearestEven num (den * 2 ^ binadeOf num den)

theorem round_eq (neg : Bool) (num den : Nat) :
    round neg num den = pack neg (min (2 ^ 23 * binadeOf num den + significandOf num den) 0x7F800000) := rfl

/-- The binade is the one of the integer part. -/
theorem binadeOf_bounds (num den : Nat) :
    (binadeOf num den = 0 ∨ 2 ^ 23 * 2 ^ binadeOf num den ≤ num / den) ∧
      num / den < 2 ^ 24 * 2 ^ binadeOf num den := by
  rw [← pow_add, ← pow_add]
  constructor
  · refine (Nat.eq_zero_or_pos _).imp_right fun hpos => ?_
    have hlog : 23 + binadeOf num den = Nat.log2 (num / den) := by
      unfold binadeOf at hpos ⊢
      omega
    rw [hlog]
    exact Nat.log2_self_le fun hq => by simp [binadeOf, hq] at hpos
  · refine Nat.lt_log2_self.trans_le (Nat.pow_le_pow_right (by decide) ?_)
    unfold binadeOf
    omega

/-- `round` takes the nearest significand in the binade of the number (R111). -/
theorem nearest_round (num : Nat) {den : Nat} (hden : 0 < den) :
    Nearest (num / den) (binadeOf num den) (significandOf num den) := by
  obtain ⟨hbinade, hbelow⟩ := binadeOf_bounds num den
  have hd : (0 : ℝ) < den := by exact_mod_cast hden
  obtain ⟨hlow, hhigh, htie⟩ := nearestEven_near num (Nat.mul_pos hden (Nat.two_pow_pos (binadeOf num den)))
  set k := binadeOf num den
  set n := significandOf num den
  have hnum : (num : ℝ) = num / den * den := (div_mul_cancel₀ _ hd.ne').symm
  refine ⟨by positivity, hbinade.imp_right fun hb => ?binade, ?below, abs_le.mpr ⟨?low, ?high⟩, fun ht => htie ?tie⟩
  case binade =>
    calc (2 : ℝ) ^ 23 * 2 ^ k ≤ (num / den : Nat) := by exact_mod_cast hb
      _ ≤ num / den := Nat.cast_div_le
  case below =>
    rw [div_lt_iff₀ hd]
    exact_mod_cast (Nat.div_lt_iff_lt_mul hden).mp hbelow
  case low =>
    have hlow' : (2 : ℝ) * num ≤ 2 * (den * 2 ^ k) * n + den * 2 ^ k := by exact_mod_cast hlow
    refine le_of_mul_le_mul_right ?_ hd
    linarith
  case high =>
    have hhigh' : (2 : ℝ) * (den * 2 ^ k) * n ≤ 2 * num + den * 2 ^ k := by exact_mod_cast hhigh
    refine le_of_mul_le_mul_right ?_ hd
    linarith
  case tie =>
    refine ((abs_eq (by positivity)).mp ht).symm.imp (fun h => ?_) fun h => ?_
    · have : (2 : ℝ) * num = 2 * (den * 2 ^ k) * n + den * 2 ^ k := by linear_combination 2 * hnum - 2 * den * h
      exact_mod_cast this
    · have : (2 : ℝ) * (den * 2 ^ k) * n = 2 * num + den * 2 ^ k := by linear_combination 2 * den * h - 2 * hnum
      exact_mod_cast this

/-! ### Correct rounding -/

theorem isInf_sign_neg {x : ℝ} {r : Word} (h : isInf r = true ∧ (sign r = true ↔ x < 0))
    (hx : x ≠ 0) : isInf (neg r) = true ∧ (sign (neg r) = true ↔ -x < 0) := by
  obtain ⟨hinf, hsign⟩ := h
  rw [isInf_neg, sign_neg, Bool.not_eq_true', ← Bool.not_eq_true, hsign, not_lt, neg_lt_zero]
  exact ⟨hinf, ⟨fun hle => lt_of_le_of_ne hle hx.symm, le_of_lt⟩⟩

/-- Rounding to nearest does not depend on the sign. -/
theorem roundsTo_neg {x : ℝ} {r : Word} (h : Ideal.RoundsTo x r) : Ideal.RoundsTo (-x) (neg r) := by
  obtain ⟨hfin, hinf⟩ := h
  have hdist (u v : Word) (huv : Ideal.real u = -Ideal.real v) :
      |Ideal.real u - -x| = |Ideal.real v - x| := by
    rw [huv, ← abs_neg]
    ring_nf
  rw [Ideal.RoundsTo, abs_neg]
  refine ⟨fun hlt => ?_, fun hle => isInf_sign_neg (hinf hle) ?_⟩
  · obtain ⟨hr, hnear⟩ := hfin hlt
    refine ⟨by rwa [isFinite_neg], fun z hz => ?_⟩
    obtain ⟨hle, htie⟩ := hnear (neg z) (by rwa [isFinite_neg])
    have hzn : Ideal.real z = -Ideal.real (neg z) := by rw [real_neg, neg_neg]
    rw [hdist _ _ (real_neg r), hdist _ _ hzn, mag_neg]
    exact ⟨hle, fun he hne => htie he fun heq => hne (by rw [hzn, heq, real_neg])⟩
  · rintro rfl
    norm_num at hle

/-- `round` is rounding to nearest, ties to even, of `num / den` units with the given sign (R111). -/
theorem roundsTo_round (neg : Bool) (num : Nat) {den : Nat} (hden : 0 < den) :
    Ideal.RoundsTo (signed neg (num / den / 2 ^ 149)) (round neg num den) := by
  have h := (nearest_round num hden).roundsTo
  rw [round_eq]
  cases neg
  · exact h
  · have hn := roundsTo_neg h
    rwa [neg_pack _ (by omega)] at hn

/-- A number of units that is a multiple of its binade's unit, far below the threshold, is not changed. -/
theorem round_exact (neg : Bool) {num c : Nat} (hc : num = c * 2 ^ binadeOf num 1)
    (hlt : num < 2 ^ 24 * 2 ^ 252) :
    isFinite (round neg num 1) = true ∧ units (round neg num 1) = num := by
  have h := nearest_round num one_pos
  have hy : ((num : ℝ) / (1 : Nat)) = num := by simp
  rw [hy] at h
  have hthr : (num : ℝ) < (2 ^ 25 - 1) * 2 ^ 252 :=
    calc (num : ℝ) < 2 ^ 24 * 2 ^ 252 := by exact_mod_cast hlt
      _ < (2 ^ 25 - 1) * 2 ^ 252 := by norm_num
  obtain ⟨hfin, hunits⟩ := h.units_pack neg hthr
  rw [round_eq, min_eq_left (h.lt_inf_iff.mpr hthr).le]
  refine ⟨hfin, hunits.trans ?_⟩
  exact_mod_cast h.exact (c := c) (by exact_mod_cast hc)

end Sys2Proof.Machine.F32
end

section
/-! SUPPORT. The operations on numbers (R111, R113, R115): when they answer none, and what they answer on each kind of
operands. -/

namespace Sys2Proof.Machine.F32

/-! ### The kinds of words -/

theorem isFinite_of_isZero {w : Word} (h : isZero w = true) : isFinite w = true := by
  rw [isZero_iff] at h
  rw [isFinite_iff, h]
  decide

/-- A word is a finite number, an infinity or a NaN (R110). -/
theorem kinds (w : Word) : isFinite w = true ∨ isInf w = true ∨ isNaN w = true := by
  rw [isFinite_iff, isInf_iff, isNaN_iff]
  omega

theorem isNaN_of_isInf {w : Word} (h : isInf w = true) : isNaN w = false := by
  rw [isInf_iff] at h
  rw [isNaN, h]
  decide

theorem isZero_of_isInf {w : Word} (h : isInf w = true) : isZero w = false := by
  rw [isInf_iff] at h
  rw [isZero, h]
  decide

theorem isFinite_of_number {w : Word} (hn : isNaN w = false) (hi : isInf w = false) : isFinite w = true := by
  obtain h | h | h := kinds w
  · exact h
  · rw [hi] at h; cases h
  · rw [hn] at h; cases h

theorem isInf_inf (s : Bool) : isInf (inf s) = true := by cases s <;> decide

theorem isZero_pack_zero (s : Bool) : isZero (pack s 0) = true := by cases s <;> decide

section

variable {a b : Word}

/-! ### Sum and difference -/

/-- A sum of numbers is none for two opposite infinities only. -/
theorem sumOf_eq_none : sumOf a b = none ↔ isInf a = true ∧ isInf b = true ∧ sign a ≠ sign b := by
  unfold sumOf
  cases isInf a <;> cases isInf b <;> simp

theorem add?_of_numbers (ha : isNaN a = false) (hb : isNaN b = false) : add? a b = sumOf a b := by
  rw [add?, ha, hb]; rfl

theorem sub?_of_numbers (ha : isNaN a = false) (hb : isNaN b = false) : sub? a b = sumOf a (neg b) := by
  rw [sub?, ha, hb]; rfl

theorem add?_eq_none : add? a b = none ↔
    isNaN a = true ∨ isNaN b = true ∨ (isInf a = true ∧ isInf b = true ∧ sign a ≠ sign b) := by
  cases ha : isNaN a
  · cases hb : isNaN b
    · rw [add?_of_numbers ha hb, sumOf_eq_none]
      simp
    · simp [add?, hb]
  · simp [add?, ha]

theorem sub?_eq_none : sub? a b = none ↔
    isNaN a = true ∨ isNaN b = true ∨ (isInf a = true ∧ isInf b = true ∧ sign a = sign b) := by
  cases ha : isNaN a
  · cases hb : isNaN b
    · rw [sub?_of_numbers ha hb, sumOf_eq_none, isInf_neg, sign_neg]
      simp
    · simp [sub?, hb]
  · simp [sub?, ha]

/-- An infinite first operand is the sum, unless the second is its opposite. -/
theorem sumOf_inf_left (ha : isInf a = true) (h : isInf b = true → sign a = sign b) : sumOf a b = some a := by
  rw [sumOf, if_pos ha, if_neg]
  simpa using h

theorem sumOf_inf_right (ha : isInf a = false) (hb : isInf b = true) : sumOf a b = some b := by
  rw [sumOf, if_neg (by simp [ha]), if_pos hb]

/-- The value of an exact sum, as its sign and its units. -/
theorem signed_natAbs (z : Int) : signed (decide (z < 0)) z.natAbs = z := by
  obtain h | h := lt_or_ge z 0
  · rw [decide_eq_true h, signed_true, Nat.cast_natAbs, abs_of_neg h, Int.cast_neg, neg_neg]
  · rw [decide_eq_false h.not_gt, signed_false, Nat.cast_natAbs, abs_of_nonneg h]

theorem signed_div_right (s : Bool) (x y : ℝ) : signed s (x / y) = signed s x / y := by
  cases s
  · rfl
  · exact (neg_div y x).symm

theorem round_zero (s : Bool) : round s 0 1 = pack s 0 := by cases s <;> decide

/-- The sum of two finite numbers is the exact sum rounded, and an exact zero is `-0.0` for two `-0.0` only. -/
theorem sumOf_finite (ha : isFinite a = true) (hb : isFinite b = true) :
    ∃ r, sumOf a b = some r ∧ Ideal.RoundsTo (Ideal.real a + Ideal.real b) r ∧
      (Ideal.real a + Ideal.real b = 0 → (sign r = true ↔ sign a = true ∧ sign b = true)) := by
  have hreal : Ideal.real a + Ideal.real b = ((value a + value b : Int) : ℝ) / 2 ^ 149 := by
    rw [Ideal.real, Ideal.real, Int.cast_add, add_div]
  rw [sumOf, isInf_of_isFinite ha, isInf_of_isFinite hb, hreal]
  refine ⟨_, rfl, ?_⟩
  generalize value a + value b = z
  split
  next hz =>
    have h := roundsTo_round (sign a && sign b) 0 one_pos
    rw [round_zero, signed_div_right, signed_div_right] at h
    have h0 : signed (sign a && sign b) ((0 : Nat) : ℝ) = 0 := by simp [signed]
    rw [h0] at h
    rw [hz, sign_pack _ (by decide), Bool.and_eq_true]
    exact ⟨by simpa using h, fun _ => Iff.rfl⟩
  next hz =>
    have h := roundsTo_round (decide (z < 0)) z.natAbs one_pos
    rw [Nat.cast_one, div_one, signed_div_right, signed_natAbs] at h
    refine ⟨h, fun h0 => absurd ?_ hz⟩
    simpa using h0

/-! ### Product and quotient -/

theorem mul?_of_infinite (ha : isNaN a = false) (hb : isNaN b = false) (hi : isInf a = true ∨ isInf b = true) :
    mul? a b = if isZero a || isZero b then none else some (inf (sign a != sign b)) := by
  rw [← Bool.or_eq_true] at hi
  simp [mul?, ha, hb, hi]

theorem mul?_of_finite (ha : isFinite a = true) (hb : isFinite b = true) :
    mul? a b = some (round (sign a != sign b) (units a * units b) scale) := by
  simp [mul?, isNaN_of_isFinite, isInf_of_isFinite, ha, hb]

theorem mul?_eq_none : mul? a b = none ↔ isNaN a = true ∨ isNaN b = true ∨
    (isZero a = true ∧ isInf b = true) ∨ (isInf a = true ∧ isZero b = true) := by
  cases ha : isNaN a
  · cases hb : isNaN b
    · by_cases hi : isInf a = true ∨ isInf b = true
      · rw [mul?_of_infinite ha hb hi]
        obtain hi | hi := hi <;> simp [hi, isZero_of_isInf hi]
      · obtain ⟨hia, hib⟩ := not_or.mp hi
        rw [Bool.not_eq_true] at hia hib
        rw [mul?_of_finite (isFinite_of_number ha hia) (isFinite_of_number hb hib), hia, hib]
        simp
    · simp [mul?, hb]
  · simp [mul?, ha]

/-- An infinity times a number that is no zero is an infinity. -/
theorem mul?_infinite (h : (isInf a = true ∧ isNaN b = false ∧ isZero b = false) ∨
    (isInf b = true ∧ isNaN a = false ∧ isZero a = false)) : mul? a b = some (inf (sign a != sign b)) := by
  obtain ⟨hi, hn, hz⟩ | ⟨hi, hn, hz⟩ := h
  · simp [mul?_of_infinite (isNaN_of_isInf hi) hn (.inl hi), isZero_of_isInf hi, hz]
  · simp [mul?_of_infinite hn (isNaN_of_isInf hi) (.inr hi), isZero_of_isInf hi, hz]

theorem div?_of_infinite (ha : isInf a = true) (hb : isInf b = true) : div? a b = none := by
  simp [div?, ha, hb]

theorem div?_inf_left (ha : isInf a = true) (hb : isFinite b = true) :
    div? a b = some (inf (sign a != sign b)) := by
  simp [div?, isNaN_of_isInf ha, ha, isNaN_of_isFinite hb, isInf_of_isFinite hb]

theorem div?_inf_right (ha : isFinite a = true) (hb : isInf b = true) :
    div? a b = some (pack (sign a != sign b) 0) := by
  simp [div?, isNaN_of_isInf hb, hb, isNaN_of_isFinite ha, isInf_of_isFinite ha]

theorem div?_zero (ha : isFinite a = true) (hb : isZero b = true) :
    div? a b = if isZero a then none else some (inf (sign a != sign b)) := by
  have hf := isFinite_of_isZero hb
  simp [div?, isNaN_of_isFinite, isInf_of_isFinite, ha, hf, hb]

theorem div?_of_finite (ha : isFinite a = true) (hb : isFinite b = true) (hz : isZero b = false) :
    div? a b = some (round (sign a != sign b) (scale * units a) (units b)) := by
  simp [div?, isNaN_of_isFinite, isInf_of_isFinite, ha, hb, hz]

theorem div?_eq_none : div? a b = none ↔ isNaN a = true ∨ isNaN b = true ∨
    (isZero a = true ∧ isZero b = true) ∨ (isInf a = true ∧ isInf b = true) := by
  obtain ha | ha | ha := kinds a
  · obtain hb | hb | hb := kinds b
    · cases hz : isZero b
      · simp [div?_of_finite ha hb hz, isNaN_of_isFinite, isInf_of_isFinite, ha, hb]
      · simp [div?_zero ha hz, isNaN_of_isFinite, isInf_of_isFinite, ha, hb]
    · simp [div?_inf_right ha hb, isNaN_of_isFinite ha, isInf_of_isFinite ha, isNaN_of_isInf hb, isZero_of_isInf hb]
    · simp [div?, hb]
  · obtain hb | hb | hb := kinds b
    · simp [div?_inf_left ha hb, isNaN_of_isInf ha, isZero_of_isInf ha, isNaN_of_isFinite hb, isInf_of_isFinite hb]
    · simp [div?_of_infinite ha hb, ha, hb]
    · simp [div?, hb]
  · simp [div?, ha]

theorem scale_eq : (scale : ℝ) = 2 ^ 149 := by norm_num [scale]

/-- The product of two finite numbers is the exact product rounded. -/
theorem mul?_roundsTo (ha : isFinite a = true) (hb : isFinite b = true) :
    ∃ r, mul? a b = some r ∧ Ideal.RoundsTo (Ideal.real a * Ideal.real b) r ∧ sign r = (sign a != sign b) := by
  have h := roundsTo_round (sign a != sign b) (units a * units b) (den := scale) (by decide)
  refine ⟨_, mul?_of_finite ha hb, ?_, sign_round _ _ _⟩
  rw [real_eq_signed, real_eq_signed, signed_mul]
  rwa [Nat.cast_mul, scale_eq, mul_div_right_comm, mul_div_assoc] at h

/-- The quotient of two finite numbers, the divisor no zero, is the exact quotient rounded. -/
theorem div?_roundsTo (ha : isFinite a = true) (hb : isFinite b = true) (hz : isZero b = false) :
    ∃ r, div? a b = some r ∧ Ideal.RoundsTo (Ideal.real a / Ideal.real b) r ∧ sign r = (sign a != sign b) := by
  have h := roundsTo_round (sign a != sign b) (scale * units a) (units_pos hz)
  refine ⟨_, div?_of_finite ha hb hz, ?_, sign_round _ _ _⟩
  rw [real_eq_signed, real_eq_signed, signed_div, div_div_div_cancel_right₀ (by positivity)]
  rwa [Nat.cast_mul, scale_eq, mul_div_assoc, mul_div_cancel_left₀ _ (by positivity)] at h

/-! ### Root -/

theorem sqrt?_of_isZero (h : isZero a = true) : sqrt? a = some a := by
  simp [sqrt?, isNaN_of_isFinite (isFinite_of_isZero h), h]

theorem sqrt?_of_isInf (h : isInf a = true) (hs : sign a = false) : sqrt? a = some a := by
  simp [sqrt?, isNaN_of_isInf h, isZero_of_isInf h, h, hs]

theorem sqrt?_of_finite (h : isFinite a = true) (hz : isZero a = false) (hs : sign a = false) :
    let v := scale * units a
    let q := natSqrt v
    sqrt? a = some (round false (2 * q + if q * q = v then 0 else 1) 2) := by
  simp [sqrt?, isNaN_of_isFinite, isInf_of_isFinite, h, hz, hs]

theorem sqrt?_eq_none : sqrt? a = none ↔ isNaN a = true ∨ (sign a = true ∧ isZero a = false) := by
  unfold sqrt?
  split
  next hn => simp [hn]
  next hn =>
    split
    next hz => simp [hn, hz]
    next hz =>
      split
      next hs => simp [hz, hs]
      next hs => split <;> simp [hn, hs]

/-- Half a unit added for a root that is no integer makes the root round as the exact one does (R111). -/
theorem roundsTo_root {v q : Nat} (hlow : q * q ≤ v) (hhigh : v < (q + 1) * (q + 1)) (hq : 2 ^ 24 ≤ q) :
    Ideal.RoundsTo (Real.sqrt v / 2 ^ 149) (round false (2 * q + if q * q = v then 0 else 1) 2) := by
  split
  next heq =>
    have h := roundsTo_round false (2 * q) (den := 2) (by decide)
    rw [signed_false, Nat.cast_mul, Nat.cast_ofNat, mul_div_cancel_left₀ _ two_ne_zero] at h
    rwa [← heq, Nat.cast_mul, Real.sqrt_mul_self (Nat.cast_nonneg q), Nat.add_zero]
  next hne =>
    have hhalf : ((2 * q + 1 : Nat) : ℝ) / (2 : Nat) = q + 1 / 2 := by push_cast; ring
    have hk : 1 ≤ binadeOf (2 * q + 1) 2 := by
      have hb := (binadeOf_bounds (2 * q + 1) 2).2
      refine Nat.one_le_iff_ne_zero.mpr fun h0 => ?_
      rw [h0] at hb
      omega
    refine ((nearest_round (2 * q + 1) (den := 2) (by decide)).of_half hhalf hk ?_ ?_).roundsTo
    · refine Real.lt_sqrt_of_sq_lt ?_
      rw [sq]
      exact_mod_cast lt_of_le_of_ne hlow hne
    · refine (Real.sqrt_lt' (by positivity)).mpr ?_
      rw [sq]
      exact_mod_cast hhigh

/-- The root of a positive finite number is the exact root rounded. -/
theorem sqrt?_roundsTo (h : isFinite a = true) (hz : isZero a = false) (hs : sign a = false) :
    ∃ r, sqrt? a = some r ∧ Ideal.RoundsTo (Real.sqrt (Ideal.real a)) r ∧ sign r = false := by
  refine ⟨_, sqrt?_of_finite h hz hs, ?_, sign_round _ _ _⟩
  have hroot : Real.sqrt (Ideal.real a) = Real.sqrt (scale * units a : Nat) / 2 ^ 149 := by
    rw [real_eq_signed, hs, signed_false, Nat.cast_mul, scale_eq,
      show (units a : ℝ) / 2 ^ 149 = 2 ^ 149 * units a / (2 ^ 149) ^ 2 by field_simp,
      Real.sqrt_div' _ (by positivity), Real.sqrt_sq (by positivity)]
  have hv : scale * units a < 2 ^ 213 * 2 ^ 213 := by
    calc scale * units a < scale * (2 ^ 23 * 2 ^ 254) :=
          Nat.mul_lt_mul_of_pos_left (units_lt_of_isFinite h) (by decide)
      _ = 2 ^ 213 * 2 ^ 213 := by decide
  obtain ⟨hlow, hhigh⟩ := natSqrt_spec hv
  rw [hroot]
  refine roundsTo_root hlow hhigh ?_
  by_contra! hq
  have hsq : (natSqrt (scale * units a) + 1) * (natSqrt (scale * units a) + 1) ≤ 2 ^ 24 * 2 ^ 24 :=
    Nat.mul_le_mul hq hq
  have hone : scale * 1 ≤ scale * units a := Nat.mul_le_mul_left _ (units_pos hz)
  have hs : (2 ^ 24 * 2 ^ 24 : Nat) < scale * 1 := by decide
  omega

/-! ### Comparisons -/

/-- The order of the keys is the order of the values. -/
theorem key_lt_iff : key a < key b ↔ value a < value b := by
  have h1 := units_lt_iff (a := a) (b := b)
  have h2 := units_lt_iff (a := b) (b := a)
  have ha := units_eq_zero (w := a)
  have hb := units_eq_zero (w := b)
  unfold key value
  split <;> split <;> omega

theorem lt_of_numbers (ha : isNaN a = false) (hb : isNaN b = false) : lt a b = decide (key a < key b) := by
  simp [lt, ha, hb]

theorem le_of_numbers (ha : isNaN a = false) (hb : isNaN b = false) : le a b = !lt b a := by
  simp only [le, lt, ha, hb, Bool.not_false, Bool.true_and, ← decide_not, not_lt]

theorem lt_finite (ha : isFinite a = true) (hb : isFinite b = true) : lt a b = true ↔ value a < value b := by
  rw [lt_of_numbers (isNaN_of_isFinite ha) (isNaN_of_isFinite hb), decide_eq_true_iff, key_lt_iff]

theorem le_finite (ha : isFinite a = true) (hb : isFinite b = true) : le a b = true ↔ value a ≤ value b := by
  rw [le_of_numbers (isNaN_of_isFinite ha) (isNaN_of_isFinite hb), Bool.not_eq_true', ← Bool.not_eq_true,
    lt_finite hb ha, not_lt]

theorem key_of_isInf (h : isInf a = true) : key a = if sign a then -0x7F800000 else 0x7F800000 := by
  rw [isInf_iff] at h
  rw [key, h]
  rfl

/-- The key of a finite number lies between those of the infinities. -/
theorem key_of_isFinite (h : isFinite a = true) : -0x7F800000 < key a ∧ key a < 0x7F800000 := by
  rw [isFinite_iff] at h
  unfold key
  split <;> omega

/-- A finite number is below `+Inf` only. -/
theorem lt_inf_right (ha : isFinite a = true) (hb : isInf b = true) : lt a b = !sign b := by
  have hk := key_of_isFinite ha
  rw [lt_of_numbers (isNaN_of_isFinite ha) (isNaN_of_isInf hb), key_of_isInf hb]
  cases sign b
  · exact decide_eq_true hk.2
  · exact decide_eq_false hk.1.not_gt

/-- Only `-Inf` is below a finite number. -/
theorem lt_inf_left (ha : isInf a = true) (hb : isFinite b = true) : lt a b = sign a := by
  have hk := key_of_isFinite hb
  rw [lt_of_numbers (isNaN_of_isInf ha) (isNaN_of_isFinite hb), key_of_isInf ha]
  cases sign a
  · exact decide_eq_false hk.2.not_gt
  · exact decide_eq_true hk.1

/-- Of two infinities only `-Inf` is below, and only `+Inf` is not. -/
theorem lt_inf_inf (ha : isInf a = true) (hb : isInf b = true) : lt a b = (sign a && !sign b) := by
  rw [lt_of_numbers (isNaN_of_isInf ha) (isNaN_of_isInf hb), key_of_isInf ha, key_of_isInf hb]
  cases sign a <;> cases sign b <;> rfl

theorem lt_nan (h : isNaN a = true ∨ isNaN b = true) : lt a b = false := by
  obtain h | h := h <;> simp [lt, h]

theorem le_nan (h : isNaN a = true ∨ isNaN b = true) : le a b = false := by
  obtain h | h := h <;> simp [le, h]

end

/-! ### Integers -/

/-- `u2f(n)` is `n` rounded (R115). -/
theorem ofNat_roundsTo (n : Nat) : Ideal.RoundsTo n (ofNat n) := by
  have h := roundsTo_round false (scale * n) one_pos
  rwa [signed_false, Nat.cast_one, div_one, Nat.cast_mul, scale_eq, mul_div_cancel_left₀ _ (by positivity)] at h

/-- An integer of 24 bits lies at most 149 binades above the subnormal one. -/
theorem binadeOf_integer {n : Nat} (hn : n < 2 ^ 24) : binadeOf (scale * n) 1 ≤ 149 := by
  have hlt : scale * n < 2 ^ (149 + 24) := by
    rw [pow_add]
    exact Nat.mul_lt_mul_of_pos_left hn (by decide)
  obtain rfl | hn0 := Nat.eq_zero_or_pos n
  · exact Nat.zero_le _
  · have hlog : Nat.log2 (scale * n) < 149 + 24 :=
      (Nat.log2_lt (Nat.mul_pos (by decide) hn0).ne').mpr hlt
    rw [binadeOf, Nat.div_one]
    omega

/-- An integer of 24 bits is a multiple of its binade's unit, and so is exact (R115). -/
theorem round_integer (s : Bool) {n : Nat} (hn : n < 2 ^ 24) :
    isFinite (round s (scale * n) 1) = true ∧ units (round s (scale * n) 1) = scale * n := by
  have hk := binadeOf_integer hn
  refine round_exact s (c := 2 ^ (149 - binadeOf (scale * n) 1) * n) ?_ ?_
  · calc scale * n = 2 ^ (149 - binadeOf (scale * n) 1 + binadeOf (scale * n) 1) * n := by
          rw [Nat.sub_add_cancel hk, scale]
      _ = _ := by rw [pow_add, mul_right_comm]
  · calc scale * n < scale * 2 ^ 24 := Nat.mul_lt_mul_of_pos_left hn (by decide)
      _ < 2 ^ 24 * 2 ^ 252 := by decide

theorem ofInt_exact {z : Int} (hz : z.natAbs < 2 ^ 24) :
    isFinite (ofInt z) = true ∧ value (ofInt z) = z * 2 ^ 149 := by
  obtain ⟨hf, hu⟩ := round_integer (decide (z < 0)) hz
  refine ⟨hf, ?_⟩
  have hs : sign (ofInt z) = decide (z < 0) := sign_round _ _ _
  have hv : (units (ofInt z) : Int) = 2 ^ 149 * z.natAbs := by exact_mod_cast hu
  obtain h | h := lt_or_ge z 0
  · rw [value_of_neg (hs.trans (decide_eq_true h)), hv, Int.ofNat_natAbs_of_nonpos h.le]
    ring
  · rw [value_of_pos (hs.trans (decide_eq_false h.not_gt)), hv, Int.natAbs_of_nonneg h, mul_comm]

theorem ofNat_exact {n : Nat} (hn : n < 2 ^ 24) :
    isFinite (ofNat n) = true ∧ value (ofNat n) = n * 2 ^ 149 := by
  have h : ofInt n = ofNat n := by
    rw [ofInt, decide_eq_false (Int.natCast_nonneg n).not_gt, Int.natAbs_natCast, ofNat]
  rw [← h]
  exact ofInt_exact hn

end Sys2Proof.Machine.F32
end

section
/-! SUPPORT. The open functions (R117, R126): the range of a trigonometric result, and the contracts of the transforms
on zeros. -/

namespace Sys2Proof.Machine

theorem isResult_sub (d : Draw) (a b : Word) : IsResult (F32.sub? a b) ((arith32 d).sub a b) :=
  isResult_orDraw d .sub a b _

theorem isResult_div (d : Draw) (a b : Word) : IsResult (F32.div? a b) ((arith32 d).div a b) :=
  isResult_orDraw d .div a b _

/-- `TRIG_RANGE` (R117). -/
theorem trigResult_of_isFinite {a : Word} (r : Word) (h : F32.isFinite a = true) :
    |Ideal.real (trigResult a r)| ≤ 1 ∧ F32.isFinite (trigResult a r) = true := by
  have hm : F32.mag (trigResult a r) ≤ F32.mag F32.one := by
    rw [trigResult, if_pos h]
    split
    · assumption
    · decide
  have hu : F32.units (trigResult a r) ≤ 2 ^ 149 := F32.units_le_iff.mpr hm
  refine ⟨?_, (F32.isFinite_iff _).mpr (hm.trans_lt (by decide))⟩
  rw [F32.abs_real, div_le_one (by positivity)]
  exact_mod_cast hu

theorem trigResult_of_not_isFinite {a : Word} (r : Word) (h : F32.isFinite a = false) :
    F32.isNaN (trigResult a r) = true := by
  rw [trigResult, if_neg (by simp [h])]
  exact F32.isNaN_asNaN r

/-! ### The contracts on zeros -/

/-- What holds of every element of a list and of the default holds of every element read. -/
theorem getD_of_forall {α : Type} {p : α → Prop} {l : List α} {d : α} (hl : ∀ x ∈ l, p x) (hd : p d) (n : Nat) :
    p (l.getD n d) := by
  rw [List.getD_eq_getElem?_getD]
  cases h : l[n]? with
  | none => exact hd
  | some x => exact hl x (List.mem_of_getElem? h)

theorem samples_of_zeros {x : List Word} (h : ∀ v ∈ x, F32.isZero v = true) (n : Nat) : Ideal.samples x n = 0 :=
  F32.real_eq_zero.mpr (getD_of_forall h (by decide) n)

theorem bins_of_zeros {c : List Cplx} (h : ∀ z ∈ c, F32.isZero z.re = true ∧ F32.isZero z.im = true) (k : Nat) :
    Ideal.binRe c k = 0 ∧ Ideal.binIm c k = 0 :=
  (getD_of_forall h (by decide) k).imp F32.real_eq_zero.mpr F32.real_eq_zero.mpr

/-- The forward transform of a window of zeros meets its contract with every tolerance (R126). -/
theorem dftAcc_of_zeros (b : Build) (tol : ℝ) {x : List Word} (h : ∀ v ∈ x, F32.isZero v = true) :
    Ideal.DftAcc b tol x := by
  intro _ k _ z hz
  obtain ⟨hre, him⟩ := dft_of_zeros b h z (List.mem_of_getElem? hz)
  refine ⟨F32.isFinite_of_isZero hre, F32.isFinite_of_isZero him, ?_⟩
  simp [F32.real_eq_zero.mpr hre, F32.real_eq_zero.mpr him, Ideal.dftRe, Ideal.dftIm, samples_of_zeros h]

/-- The inverse transform of a half spectrum of zeros meets its contract with every tolerance (R126). -/
theorem idftAcc_of_zeros (b : Build) (tol : ℝ) {c : List Cplx}
    (h : ∀ z ∈ c, F32.isZero z.re = true ∧ F32.isZero z.im = true) : Ideal.IdftAcc b tol c := by
  intro _ n _ y hy
  have hz := idft_of_zeros b h y (List.mem_of_getElem? hy)
  refine ⟨F32.isFinite_of_isZero hz, ?_⟩
  simp [F32.real_eq_zero.mpr hz, Ideal.idft, Ideal.binSum, bins_of_zeros h]

end Sys2Proof.Machine
end

section
/-! PROOFS. The obligations of the family 40_numerics: the rounded operations, the invalid ones, the comparisons, the
conversions, and the open functions. -/

namespace Sys2Proof.Machine

/-- Settles O50: the exact sum rounded, with `-b` for `b` in a difference. -/
theorem sumsAreCorrectlyRounded : Obligations.SumsAreCorrectlyRounded := by
  intro a b
  refine ⟨fun ha hb => ?finite, fun ha hb => ?left, fun ha hb => ?right, fun ha hb => ?both⟩
  case finite =>
    have hna := F32.isNaN_of_isFinite ha
    have hnb := F32.isNaN_of_isFinite hb
    rw [F32.add?_of_numbers hna hnb, F32.sub?_of_numbers hna hnb]
    have hsub := F32.sumOf_finite (b := F32.neg b) ha (by rwa [F32.isFinite_neg])
    rw [F32.real_neg, ← sub_eq_add_neg, F32.sign_neg, Bool.not_eq_true'] at hsub
    exact ⟨F32.sumOf_finite ha hb, hsub⟩
  case left =>
    have hna := F32.isNaN_of_isInf ha
    have hnb := F32.isNaN_of_isFinite hb
    have hib := F32.isInf_of_isFinite hb
    rw [F32.add?_of_numbers hna hnb, F32.sub?_of_numbers hna hnb]
    exact ⟨F32.sumOf_inf_left ha fun h => absurd h (by simp [hib]),
      F32.sumOf_inf_left ha fun h => absurd h (by simp [F32.isInf_neg, hib])⟩
  case right =>
    have hna := F32.isNaN_of_isFinite ha
    have hnb := F32.isNaN_of_isInf hb
    have hia := F32.isInf_of_isFinite ha
    have hneg : F32.isInf (F32.neg b) = true := by rwa [F32.isInf_neg]
    rw [F32.add?_of_numbers hna hnb, F32.sub?_of_numbers hna hnb]
    exact ⟨F32.sumOf_inf_right hia hb, F32.neg b, F32.sumOf_inf_right hia hneg, hneg, F32.sign_neg b⟩
  case both =>
    have hna := F32.isNaN_of_isInf ha
    have hnb := F32.isNaN_of_isInf hb
    rw [F32.add?_of_numbers hna hnb, F32.sub?_of_numbers hna hnb]
    refine ⟨fun hs => F32.sumOf_inf_left ha fun _ => hs, fun hs => F32.sumOf_inf_left ha fun _ => ?_⟩
    rw [F32.sign_neg]
    exact Bool.eq_not.mpr hs

/-- Settles O51: one equation of the product and of the quotient for each kind of operands. -/
theorem productsAreCorrectlyRounded : Obligations.ProductsAreCorrectlyRounded := by
  intro a b s
  refine ⟨fun ha hb => ⟨F32.mul?_roundsTo ha hb, F32.div?_roundsTo ha hb, fun hza hzb => ?zeroDivisor⟩,
    fun h => ?product, fun ha hb => ?dividend, fun ha hb => ?divisor⟩
  case zeroDivisor =>
    refine ⟨_, ?_, F32.isInf_inf s, F32.sign_inf s⟩
    rw [F32.div?_zero ha hzb, hza]
    rfl
  case product => exact ⟨_, F32.mul?_infinite h, F32.isInf_inf s, F32.sign_inf s⟩
  case dividend => exact ⟨_, F32.div?_inf_left ha hb, F32.isInf_inf s, F32.sign_inf s⟩
  case divisor => exact ⟨_, F32.div?_inf_right ha hb, F32.isZero_pack_zero s, F32.sign_pack s (by decide)⟩

/-- Settles O52: `natSqrt` is the integer root, and the half unit added rounds as the exact root. -/
theorem rootsAreCorrectlyRounded : Obligations.RootsAreCorrectlyRounded :=
  fun _ => ⟨F32.sqrt?_of_isZero, F32.sqrt?_roundsTo, F32.sqrt?_of_isInf⟩

/-- Settles O53, operation by operation. -/
theorem invalidOperationsGiveNaN : Obligations.InvalidOperationsGiveNaN :=
  fun _ _ => ⟨F32.add?_eq_none, F32.sub?_eq_none, F32.mul?_eq_none, F32.div?_eq_none, F32.sqrt?_eq_none⟩

/-- Settles O54: a draw is read as a NaN, and no operation answers a NaN word as its number. -/
theorem resultsAreNumbersOrNaN : Obligations.ResultsAreNumbersOrNaN := by
  intro d a b
  refine ⟨isResult_add d a b, isResult_sub d a b, isResult_mul d a b, isResult_div d a b, isResult_sqrt d a, ?_⟩
  rintro r (h | h | h | h | h)
  · exact F32.add?_not_nan h
  · exact F32.sub?_not_nan h
  · exact F32.mul?_not_nan h
  · exact F32.div?_not_nan h
  · exact F32.sqrt?_not_nan h

/-- Settles O55: the comparisons are those of the keys, and `fle` is the negation of the reversed `flt` on numbers. -/
theorem comparisonsAreOrdered : Obligations.ComparisonsAreOrdered := by
  intro a b
  refine ⟨fun h => ?nan, fun ha hb => ?finite, fun ha hb => ?right, fun ha hb => ?left, fun ha hb => ?both⟩
  case nan => exact ⟨F32.lt_nan h, F32.le_nan h, F32.lt_nan h.symm, F32.le_nan h.symm⟩
  case finite => exact ⟨F32.lt_finite ha hb, F32.le_finite ha hb, F32.lt_finite hb ha, F32.le_finite hb ha⟩
  case right =>
    have hna := F32.isNaN_of_isFinite ha
    have hnb := F32.isNaN_of_isInf hb
    simp [F32.gt, F32.ge, F32.le_of_numbers, hna, hnb, F32.lt_inf_right ha hb, F32.lt_inf_left hb ha]
  case left =>
    have hna := F32.isNaN_of_isInf ha
    have hnb := F32.isNaN_of_isFinite hb
    simp [F32.gt, F32.ge, F32.le_of_numbers, hna, hnb, F32.lt_inf_left ha hb, F32.lt_inf_right hb ha]
  case both =>
    have hna := F32.isNaN_of_isInf ha
    have hnb := F32.isNaN_of_isInf hb
    simp [F32.gt, F32.ge, F32.le_of_numbers, hna, hnb, F32.lt_inf_inf ha hb, F32.lt_inf_inf hb ha, Bool.or_comm]

/-- Settles O56: an integer is rounded as a number of units, and one of 24 bits needs no rounding. -/
theorem integersConvertCorrectly : Obligations.IntegersConvertCorrectly :=
  ⟨fun n _ => F32.ofNat_roundsTo n, fun _ => F32.ofNat_exact, fun _ => F32.ofInt_exact⟩

/-- Settles O57: the enforced range of a trigonometric result, and zeros for zeros. -/
theorem openFunctionsKeepTheirProperties : Obligations.OpenFunctionsKeepTheirProperties := by
  refine ⟨fun a => ⟨fun h => ?range, fun h => ?nan⟩, fun b tol => ⟨fun _ => dftAcc_of_zeros b tol,
    fun _ => idftAcc_of_zeros b tol⟩⟩
  case range =>
    obtain ⟨hsin, hfs⟩ := trigResult_of_isFinite (Config.sinBits a) h
    obtain ⟨hcos, hfc⟩ := trigResult_of_isFinite (Config.cosBits a) h
    exact ⟨hsin, hcos, hfs, hfc⟩
  case nan => exact ⟨trigResult_of_not_isFinite _ h, trigResult_of_not_isFinite _ h⟩

end Sys2Proof.Machine
end

section
/-! SUPPORT. Unit SA (41_spectral_analyzer): what a list of commands does, a run of pushes, the window of `SA.LOAD`,
and the magnitude of a silent bin. -/

namespace Sys2Proof.Machine

/-! ### Lists of commands -/

/-- The state that a list of commands leaves. -/
def afterAll (is : List Instr) (s : State) : State := is.foldl (fun t i => after i t) s

/-- Every list of commands completes (R69, R250). -/
theorem performAll_eq_afterAll (is : List Instr) (s : State) : performAll is s = .next (afterAll is s) := by
  induction is generalizing s with
  | nil => rfl
  | cons i is ih =>
    simp only [performAll, exec_eq_after, ih]
    rfl

theorem afterAll_concat (is : List Instr) (i : Instr) (s : State) :
    afterAll (is ++ [i]) s = after i (afterAll is s) :=
  List.foldl_concat _ _ _ _

/-! ### Pushes that do not fill the window -/

section

variable (s : State) (x : Word) (xs : List Word)

theorem wbuf_after_saPush : (after (.saPush x) s).wbuf = s.wbuf.set s.cnt x := by
  rw [after_saPush]
  rfl

/-- `s` after pushes of `xs` that do not fill the window: the samples stand from place `CNT` on, and each is answered
by 0 (R140). -/
def State.pushed : State :=
  { s with
    wbuf := s.wbuf.take s.cnt ++ xs ++ s.wbuf.drop (s.cnt + xs.length)
    cnt := s.cnt + xs.length
    rsp := s.rsp ++ List.replicate xs.length 0x00000000#32 }

theorem State.pushed_nil : s.pushed [] = s := by
  simp [State.pushed]

variable {s xs}

/-- As many pushes as the window has places replace it. -/
theorem State.wbuf_pushed_all (hcnt : s.cnt = 0) (h : xs.length = s.wbuf.length) : (s.pushed xs).wbuf = xs := by
  simp [State.pushed, hcnt, h]

/-- One more sample stands after the earlier ones. -/
theorem State.set_pushed (h : s.cnt + xs.length < s.wbuf.length) :
    (s.pushed xs).wbuf.set (s.pushed xs).cnt x = (s.pushed (xs ++ [x])).wbuf := by
  have hdrop : s.wbuf.drop (s.cnt + xs.length) =
      s.wbuf[s.cnt + xs.length] :: s.wbuf.drop (s.cnt + (xs.length + 1)) :=
    List.drop_eq_getElem_cons h
  have hlen : (s.wbuf.take s.cnt ++ xs).length = s.cnt + xs.length := by
    rw [List.length_append, List.length_take, Nat.min_eq_left (by omega)]
  simp only [State.pushed, List.length_append, List.length_singleton, hdrop]
  rw [List.set_append_right _ _ hlen.le, hlen, Nat.sub_self, List.set_cons_zero]
  simp only [List.append_assoc, List.singleton_append]

theorem State.pushed_concat (h : s.cnt + xs.length < s.wbuf.length) :
    (((s.pushed xs).withWindow ((s.pushed xs).wbuf.set (s.pushed xs).cnt x)).withCnt
      ((s.pushed xs).cnt + 1)).respond [0x00000000#32] = s.pushed (xs ++ [x]) := by
  rw [State.set_pushed x h]
  simp [State.pushed, State.withWindow, State.withCnt, State.respond, List.replicate_succ', Nat.add_assoc]

/-- Pushes that leave the window with a place to fill (R140, R147 item 1). -/
theorem afterAll_pushes (hw : s.wbuf.length = s.build.w) (h : s.cnt + xs.length < s.build.w) :
    afterAll (xs.map Instr.saPush) s = s.pushed xs := by
  induction xs using List.reverseRecOn with
  | nil => exact s.pushed_nil.symm
  | append_singleton xs x ih =>
    rw [List.length_append, List.length_singleton] at h
    have hmore : (s.pushed xs).cnt ≠ (s.pushed xs).build.w - 1 := by
      show s.cnt + xs.length ≠ s.build.w - 1
      omega
    rw [List.map_append, List.map_singleton, afterAll_concat, ih (by omega), after_saPush_more x hmore]
    exact State.pushed_concat x (by omega)

/-- The push after them that fills the window frames it (R140, R147 item 2). -/
theorem afterAll_pushes_fill (hw : s.wbuf.length = s.build.w) (h : s.cnt + xs.length + 1 = s.build.w) :
    afterAll ((xs ++ [x]).map Instr.saPush) s =
      (((s.pushed xs).withWindow (s.pushed (xs ++ [x])).wbuf).frame.withCnt 0).respond [0x00000001#32] := by
  have hlast : (s.pushed xs).cnt = (s.pushed xs).build.w - 1 := Nat.eq_sub_of_add_eq h
  rw [List.map_append, List.map_singleton, afterAll_concat, afterAll_pushes hw (by omega),
    after_saPush_last x hlast, State.set_pushed x (by omega)]

end

/-! ### The window of `SA.LOAD` -/

theorem paddedElement_of_lt {n : Word} {v : List Word} {i : Nat} (hv : v.length = n.toNat) (h : i < n.toNat) :
    some (paddedElement n v i) = v[i]? := by
  rw [← hv] at h
  simp [paddedElement, u32, ← hv, h]

theorem paddedElement_of_le {n : Word} (v : List Word) {i : Nat} (h : n.toNat ≤ i) :
    paddedElement n v i = posZero :=
  if_neg (Nat.not_lt.mpr h)

/-- The window that `sa.load 0` leaves (R141 (a)). -/
theorem loadedWindow_nothing (w : Nat) : loadedWindow w 0#32 [] = List.replicate w posZero := by
  refine List.eq_replicate_iff.mpr ⟨length_loadedWindow _ _ _, fun v hv => ?_⟩
  obtain ⟨i, -, rfl⟩ := List.mem_map.mp hv
  exact paddedElement_of_le [] (Nat.zero_le i)

/-! ### The magnitude of a silent bin -/

theorem F32.mul?_self_of_isZero {a : Word} (h : F32.isZero a = true) : F32.mul? a a = some posZero := by
  have hf := F32.isFinite_of_isZero h
  have hu : F32.units a = 0 := F32.units_eq_zero.mpr ((F32.isZero_iff a).mp h)
  rw [F32.mul?_of_finite hf hf, bne_self_eq_false, hu]
  decide

/-- A bin whose parts are zeros of either sign has the magnitude `+0.0` (R126, R146). -/
theorem MagnitudeOf.of_zeros {re im m : Word} (hre : F32.isZero re = true) (him : F32.isZero im = true)
    (h : MagnitudeOf re im m) : m = posZero := by
  have hadd : F32.add? posZero posZero = some posZero := by decide
  have hsqrt : F32.sqrt? posZero = some posZero := F32.sqrt?_of_isZero (by decide)
  simpa only [MagnitudeOf, F32.mul?_self_of_isZero hre, F32.mul?_self_of_isZero him, Option.bind_some, hadd, hsqrt,
    IsResult_some] using h

/-- So has every bin of a frame of zeros. -/
theorem IsFrame.mag_of_zeros {t : State} (h : IsFrame t)
    (hz : ∀ z ∈ t.cbuf, F32.isZero z.re = true ∧ F32.isZero z.im = true) : ∀ m ∈ t.mag, m = posZero := by
  obtain ⟨-, hlen, hmag⟩ := h
  intro m hm
  obtain ⟨k, hk, rfl⟩ := List.mem_iff_getElem.mp hm
  have hkc : k < t.cbuf.length := hlen ▸ hk
  obtain ⟨hre, him⟩ := hz _ (List.getElem_mem hkc)
  exact (hmag k _ _ (List.getElem?_eq_getElem hkc) (List.getElem?_eq_getElem hk)).of_zeros hre him

end Sys2Proof.Machine
end

section
/-! SUPPORT. The ideal transforms (R124, R125): the inverse transform as a sum over the half spectrum, the round trip
over the reals, its error in a build, and the magnitudes of the ideal bins (R142, R147). -/

namespace Sys2Proof.Ideal

open Sys2Proof.Machine

/-! ### Sums over a half spectrum -/

/-- The sum over a whole spectrum of which only the bins `0..w/2` are stored: every bin but the two ends stands for
two (R125). -/
noncomputable def halfSum (w : Nat) (f : Nat → ℝ) : ℝ := f 0 + f (w / 2) + 2 * ∑ k ∈ Finset.Ico 1 (w / 2), f k

section

variable {w : Nat}

theorem halfSum_sub (f g : Nat → ℝ) : halfSum w f - halfSum w g = halfSum w fun k => f k - g k := by
  simp only [halfSum, Finset.sum_sub_distrib]
  ring

theorem halfSum_sum (x : Nat → ℝ) (f : Nat → Nat → ℝ) :
    halfSum w (fun k => ∑ m ∈ Finset.range w, x m * f k m) =
      ∑ m ∈ Finset.range w, x m * halfSum w fun k => f k m := by
  simp only [halfSum, mul_add, Finset.sum_add_distrib, Finset.mul_sum]
  rw [Finset.sum_comm]
  simp only [mul_left_comm]

theorem cast_half (hw : w % 2 = 0) : ((w / 2 : Nat) : ℝ) = w / 2 :=
  Nat.cast_div_charZero (Nat.dvd_of_mod_eq_zero hw)

/-- The half spectrum stands for `w` bins. -/
theorem halfSum_const (hw : w % 2 = 0) (h2 : 2 ≤ w) (b : ℝ) : halfSum w (fun _ => b) = w * b := by
  have h1 : 1 ≤ w / 2 := by omega
  rw [halfSum, Finset.sum_const, Nat.card_Ico, nsmul_eq_mul, Nat.cast_sub h1, cast_half hw]
  ring

theorem abs_halfSum_le (hw : w % 2 = 0) (h2 : 2 ≤ w) {f : Nat → ℝ} {b : ℝ} (h : ∀ k ≤ w / 2, |f k| ≤ b) :
    |halfSum w f| ≤ w * b := by
  have hmid : |∑ k ∈ Finset.Ico 1 (w / 2), f k| ≤ ∑ k ∈ Finset.Ico 1 (w / 2), b :=
    (Finset.abs_sum_le_sum_abs _ _).trans (Finset.sum_le_sum fun k hk => h k (Finset.mem_Ico.mp hk).2.le)
  have h0 := h 0 (Nat.zero_le _)
  have hh := h (w / 2) le_rfl
  rw [← halfSum_const hw h2 b, halfSum, halfSum]
  rw [abs_le] at h0 hh hmid ⊢
  constructor <;> linarith

end

/-! ### The inverse transform -/

/-- What bin `k` adds to sample `n` of the inverse transform (R125). -/
noncomputable def synth (w : Nat) (re im : Nat → ℝ) (n k : Nat) : ℝ :=
  re k * Real.cos (2 * Real.pi * k * n / w) - im k * Real.sin (2 * Real.pi * k * n / w)

section

variable {w : Nat}

/-- The two ends of R125 are no exceptions: their sines vanish. -/
theorem idft_eq_halfSum (hw : w % 2 = 0) (h2 : 2 ≤ w) (re im : Nat → ℝ) (n : Nat) :
    idft w re im n = halfSum w (synth w re im n) / w := by
  have hw0 : (w : ℝ) ≠ 0 := by positivity
  have hangle : 2 * Real.pi * (w / 2 : Nat) * n / w = n * Real.pi := by
    rw [cast_half hw]
    field_simp
  have hfirst : synth w re im n 0 = re 0 := by simp [synth]
  have hlast : synth w re im n (w / 2) = (-1) ^ n * re (w / 2) := by
    rw [synth, hangle, Real.cos_nat_mul_pi, Real.sin_nat_mul_pi]
    ring
  rw [halfSum, hfirst, hlast]
  rfl

/-- The forward transform's bin `k`, added back at sample `n`, correlates the window with one cosine. -/
theorem synth_dft (x : Nat → ℝ) (n k : Nat) :
    synth w (dftRe w x) (dftIm w x) n k =
      ∑ m ∈ Finset.range w, x m * Real.cos (k * (2 * Real.pi * (m - n) / w)) := by
  simp only [synth, dftRe, dftIm, neg_mul, sub_neg_eq_add, Finset.sum_mul, ← Finset.sum_add_distrib]
  refine Finset.sum_congr rfl fun m _ => ?_
  rw [show (k : ℝ) * (2 * Real.pi * (m - n) / w) = 2 * Real.pi * k * m / w - 2 * Real.pi * k * n / w by ring,
    Real.cos_sub]
  ring

/-- The cosines of the multiples of an angle telescope against the sine of its half. -/
theorem sin_mul_cosines (t : ℝ) {h : Nat} (h1 : 1 ≤ h) :
    Real.sin (t / 2) * (1 + Real.cos (h * t) + 2 * ∑ k ∈ Finset.Ico 1 h, Real.cos (k * t)) =
      Real.sin (h * t) * Real.cos (t / 2) := by
  induction h, h1 using Nat.le_induction with
  | base =>
    have ht : t = 2 * (t / 2) := by ring
    simp only [Nat.cast_one, one_mul, Finset.Ico_self, Finset.sum_empty]
    generalize t / 2 = u at ht ⊢
    rw [ht, Real.cos_two_mul, Real.sin_two_mul]
    ring
  | succ h h1 ih =>
    have hsin := Real.sin_sub_sin ((h + 1 : ℝ) * t) (h * t)
    have hcos := Real.cos_add_cos ((h + 1 : ℝ) * t) (h * t)
    rw [show ((h + 1 : ℝ) * t - h * t) / 2 = t / 2 by ring] at hsin hcos
    rw [Finset.sum_Ico_succ_top h1, Nat.cast_add_one]
    linear_combination ih - Real.cos (t / 2) * hsin + Real.sin (t / 2) * hcos

/-- The cosines of two samples are orthogonal over the half spectrum. -/
theorem halfSum_cos (hw : w % 2 = 0) (h2 : 2 ≤ w) {m n : Nat} (hm : m < w) (hn : n < w) :
    halfSum w (fun k => Real.cos (k * (2 * Real.pi * (m - n) / w))) = if m = n then (w : ℝ) else 0 := by
  have hw0 : (0 : ℝ) < w := by positivity
  split
  next h =>
    subst h
    simpa using halfSum_const hw h2 1
  next h =>
    have htel := sin_mul_cosines (2 * Real.pi * (m - n) / w) (h := w / 2) (by omega)
    have hend : Real.sin ((w / 2 : Nat) * (2 * Real.pi * (m - n) / w)) = 0 := by
      rw [cast_half hw, show (w : ℝ) / 2 * (2 * Real.pi * (m - n) / w) = ((m - n : Int) : ℝ) * Real.pi by
        push_cast
        field_simp]
      exact Real.sin_int_mul_pi _
    have hne : Real.sin (2 * Real.pi * (m - n) / w / 2) ≠ 0 := by
      have hd : ((m : ℝ) - n) ≠ 0 := sub_ne_zero.mpr (Nat.cast_injective.ne h)
      have hlow : -(w : ℝ) < m - n := by
        have : (n : ℝ) < w := Nat.cast_lt.mpr hn
        linarith [Nat.cast_nonneg (α := ℝ) m]
      have hhigh : (m : ℝ) - n < w := by
        have : (m : ℝ) < w := Nat.cast_lt.mpr hm
        linarith [Nat.cast_nonneg (α := ℝ) n]
      rw [show 2 * Real.pi * (m - n) / w / 2 = Real.pi * ((m - n) / w) by ring, Ne,
        Real.sin_eq_zero_iff_of_lt_of_lt]
      · exact mul_ne_zero Real.pi_ne_zero (div_ne_zero hd hw0.ne')
      · rw [← mul_neg_one]
        exact mul_lt_mul_of_pos_left ((lt_div_iff₀ hw0).mpr (by linarith)) Real.pi_pos
      · exact mul_lt_of_lt_one_right Real.pi_pos ((div_lt_one hw0).mpr hhigh)
    rw [hend, zero_mul] at htel
    simpa [halfSum] using (mul_eq_zero.mp htel).resolve_left hne

/-- The round trip over the reals (R142 (d), R147 item 4). -/
theorem idft_dft (hw : w % 2 = 0) (h2 : 2 ≤ w) (x : Nat → ℝ) {n : Nat} (hn : n < w) :
    idft w (dftRe w x) (dftIm w x) n = x n := by
  have hw0 : (w : ℝ) ≠ 0 := by positivity
  have hsum : halfSum w (synth w (dftRe w x) (dftIm w x) n) = x n * w :=
    calc halfSum w (synth w (dftRe w x) (dftIm w x) n)
        = ∑ m ∈ Finset.range w, x m * halfSum w fun k => Real.cos (k * (2 * Real.pi * (m - n) / w)) := by
          rw [← halfSum_sum]
          exact congrArg _ (funext (synth_dft x n))
      _ = ∑ m ∈ Finset.range w, if m = n then x m * w else 0 :=
          Finset.sum_congr rfl fun m hm => by
            rw [halfSum_cos hw h2 (Finset.mem_range.mp hm) hn, mul_ite, mul_zero]
      _ = x n * w := by rw [Finset.sum_ite_eq' , if_pos (Finset.mem_range.mpr hn)]
  rw [idft_eq_halfSum hw h2, hsum, mul_div_cancel_right₀ _ hw0]

/-- The inverse transform keeps an error of the bins within twice its bound. -/
theorem abs_idft_sub_le (hw : w % 2 = 0) (h2 : 2 ≤ w) {re im re' im' : Nat → ℝ} {e : ℝ}
    (hre : ∀ k ≤ w / 2, |re k - re' k| ≤ e) (him : ∀ k ≤ w / 2, |im k - im' k| ≤ e) (n : Nat) :
    |idft w re im n - idft w re' im' n| ≤ 2 * e := by
  have hw0 : (0 : ℝ) < w := by positivity
  have hterm : ∀ k ≤ w / 2, |synth w re im n k - synth w re' im' n k| ≤ 2 * e := by
    intro k hk
    have hcos := mul_le_of_le_one_right (abs_nonneg (re k - re' k)) (Real.abs_cos_le_one (2 * Real.pi * k * n / w))
    have hsin := mul_le_of_le_one_right (abs_nonneg (im k - im' k)) (Real.abs_sin_le_one (2 * Real.pi * k * n / w))
    rw [← abs_mul] at hcos hsin
    calc |synth w re im n k - synth w re' im' n k|
        = |(re k - re' k) * Real.cos (2 * Real.pi * k * n / w) -
            (im k - im' k) * Real.sin (2 * Real.pi * k * n / w)| := by
          congr 1
          simp only [synth]
          ring
      _ ≤ |re k - re' k| + |im k - im' k| := (abs_sub _ _).trans (add_le_add hcos hsin)
      _ ≤ 2 * e := by linarith [hre k hk, him k hk]
  rw [idft_eq_halfSum hw h2, idft_eq_halfSum hw h2, ← sub_div, halfSum_sub, abs_div, abs_of_pos hw0,
    div_le_iff₀ hw0, mul_comm]
  exact abs_halfSum_le hw h2 hterm

/-! ### The magnitudes of the ideal bins -/

/-- The two parts of bin `k` are those of one complex sum (R124). -/
theorem dft_eq_complex (x : Nat → ℝ) (k : Nat) :
    ∑ n ∈ Finset.range w, (x n : ℂ) * Complex.exp (-((2 * Real.pi * k * n / w : ℝ) : ℂ) * Complex.I) =
      ⟨dftRe w x k, dftIm w x k⟩ := by
  apply Complex.ext
  · simp only [Complex.re_sum, Complex.re_ofReal_mul, ← Complex.ofReal_neg, Complex.exp_ofReal_mul_I_re,
      Real.cos_neg, dftRe]
  · simp only [Complex.im_sum, Complex.im_ofReal_mul, ← Complex.ofReal_neg, Complex.exp_ofReal_mul_I_im,
      Real.sin_neg, mul_neg, Finset.sum_neg_distrib, dftIm]

theorem magnitude_reals (re im : ℝ) : magnitude reals re im = ‖(⟨re, im⟩ : ℂ)‖ := by
  rw [Complex.norm_def, Complex.normSq_mk]
  rfl

/-- The magnitude of bin `k` (R146, R147 item 5). -/
theorem magnitudes_dftBins (x : Nat → ℝ) {k : Nat} (hk : k ≤ w / 2) :
    (magnitudes realsAt (dftBins w x))[k]? = some ‖(⟨dftRe w x k, dftIm w x k⟩ : ℂ)‖ := by
  have hbin : (dftBins w x)[k]? = some ⟨dftRe w x k, dftIm w x k⟩ := by
    simp [dftBins, Nat.lt_succ_of_le hk]
  rw [magnitudes_getElem?, hbin, Option.map_some]
  exact congrArg some (magnitude_reals _ _)

theorem length_magnitudes_dftBins (x : Nat → ℝ) : (magnitudes realsAt (dftBins w x)).length = w / 2 + 1 := by
  simp [dftBins]

/-- Every magnitude is that of one of the bins. -/
theorem exists_bin_of_mem {x : Nat → ℝ} {m : ℝ} (h : m ∈ magnitudes realsAt (dftBins w x)) :
    ∃ k ≤ w / 2, m = ‖(⟨dftRe w x k, dftIm w x k⟩ : ℂ)‖ := by
  obtain ⟨k, hk, hm⟩ := List.mem_iff_getElem.mp h
  rw [length_magnitudes_dftBins] at hk
  refine ⟨k, Nat.le_of_lt_succ hk, ?_⟩
  rw [← hm, ← Option.some_inj, ← List.getElem?_eq_getElem, magnitudes_dftBins x (Nat.le_of_lt_succ hk)]

/-- The magnitudes vanish on the window of zeros alone: the bins determine the window (R147 item 5). -/
theorem magnitudes_dftBins_zero_iff (hw : w % 2 = 0) (h2 : 2 ≤ w) (x : Nat → ℝ) :
    (∀ m ∈ magnitudes realsAt (dftBins w x), m = 0) ↔ ∀ n < w, x n = 0 := by
  constructor
  · intro hmag n hn
    have hbin : ∀ k ≤ w / 2, dftRe w x k = 0 ∧ dftIm w x k = 0 := fun k hk => by
      have hm := hmag _ (List.mem_of_getElem? (magnitudes_dftBins x hk))
      exact Complex.ext_iff.mp (norm_eq_zero.mp hm)
    have hround : |idft w (dftRe w x) (dftIm w x) n - idft w 0 0 n| ≤ 2 * 0 :=
      abs_idft_sub_le hw h2 (fun k hk => by simp [(hbin k hk).1]) (fun k hk => by simp [(hbin k hk).2]) n
    rw [idft_dft hw h2 x hn] at hround
    simpa [idft] using hround
  · intro hx m hm
    obtain ⟨k, -, rfl⟩ := exists_bin_of_mem hm
    have hsum (f : Nat → ℝ) : ∑ n ∈ Finset.range w, x n * f n = 0 :=
      Finset.sum_eq_zero fun n hn => by rw [hx n (Finset.mem_range.mp hn), zero_mul]
    have hre : dftRe w x k = 0 := hsum _
    have him : dftIm w x k = 0 := neg_eq_zero.mpr (hsum _)
    rw [hre, him, norm_eq_zero]
    rfl

end

end Sys2Proof.Ideal
end

section
/-! SUPPORT. The round trip in a build whose transforms meet their contracts (R126, R142, R147). -/

namespace Sys2Proof.Machine

theorem Build.even_w {b : Build} (h : b.ok = true) : b.w % 2 = 0 := by
  simp [Build.ok] at h
  omega

section

variable {b : Build} {tol : ℝ} {x : List Word} (hx : ∀ v ∈ x, F32.isFinite v = true) (hd : Ideal.DftAcc b tol x)

include hx hd

/-- What `DFT_ACC` says of the bins as numbers (R126). -/
theorem dft_bins_near {k : Nat} (hk : k ≤ b.w / 2) :
    |Ideal.binRe (dft b x) k - Ideal.dftRe b.w (Ideal.samples x) k| ≤
        tol * ∑ j ∈ Finset.range b.w, |Ideal.samples x j| ∧
      |Ideal.binIm (dft b x) k - Ideal.dftIm b.w (Ideal.samples x) k| ≤
        tol * ∑ j ∈ Finset.range b.w, |Ideal.samples x j| := by
  have hnb : k < b.nb := Nat.lt_succ_of_le hk
  have hlt : k < (dft b x).length := hnb.trans_eq (length_dft b x).symm
  have hget : (dft b x)[k]? = some ((dft b x).getD k Cplx.zero) := by
    rw [List.getD_eq_getElem _ _ hlt, List.getElem?_eq_getElem hlt]
  obtain ⟨-, -, hre, him⟩ := hd hx k hnb _ hget
  exact ⟨hre, him⟩

theorem dft_bins_finite : ∀ z ∈ dft b x, F32.isFinite z.re = true ∧ F32.isFinite z.im = true := by
  intro z hz
  obtain ⟨k, hk⟩ := List.getElem?_of_mem hz
  have hlt := (List.getElem?_eq_some_iff.mp hk).1
  obtain ⟨hre, him, -⟩ := hd hx k (hlt.trans_eq (length_dft b x)) z hk
  exact ⟨hre, him⟩

/-- The ideal inverse transform of a build's bins is near the window (R126, R142 (d)). -/
theorem idft_of_dft_near (hb : b.ok = true) {n : Nat} (hn : n < b.w) :
    |Ideal.idft b.w (Ideal.binRe (dft b x)) (Ideal.binIm (dft b x)) n - Ideal.samples x n| ≤
      2 * (tol * ∑ j ∈ Finset.range b.w, |Ideal.samples x j|) := by
  have hw := Build.even_w hb
  have h2 := Build.two_le_w hb
  have h := Ideal.abs_idft_sub_le hw h2 (fun _ hk => (dft_bins_near hx hd hk).1)
    (fun _ hk => (dft_bins_near hx hd hk).2) n
  rwa [Ideal.idft_dft hw h2 _ hn] at h

/-- The round trip in a build: the error of the inverse transform, and twice that of the forward one (R147 item 4). -/
theorem idft_dft_near (hb : b.ok = true) (hi : Ideal.IdftAcc b tol (dft b x)) {n : Nat} {y v : Word}
    (hy : (idft b (dft b x))[n]? = some y) (hv : x[n]? = some v) :
    F32.isFinite y = true ∧
      |Ideal.real y - Ideal.real v| ≤
        tol * (2 * ∑ j ∈ Finset.range b.w, |Ideal.samples x j| + Ideal.binSum b.w (dft b x)) := by
  have hn : n < b.w := (List.getElem?_eq_some_iff.mp hy).1.trans_eq (length_idft b _)
  have hsample : Ideal.samples x n = Ideal.real v := by
    rw [Ideal.samples, List.getD_eq_getElem?_getD, hv, Option.getD_some]
  obtain ⟨hfin, hinv⟩ := hi (dft_bins_finite hx hd) n hn y hy
  have hfwd := idft_of_dft_near hx hd hb hn
  rw [hsample] at hfwd
  refine ⟨hfin, (abs_sub_le _ _ _).trans ((add_le_add hinv hfwd).trans_eq ?_)⟩
  ring

end

end Sys2Proof.Machine
end

section
/-! PROOFS. The obligations of the family 41_spectral_analyzer: the commands of unit SA, the runs of
pushes, and the transforms. -/

namespace Sys2Proof.Machine

/-- Settles O21: both pushes store the sample; the one that fills the window computes the frame. -/
theorem pushStoresCountsAndFrames : Obligations.PushStoresCountsAndFrames := by
  intro x s hw hlt
  refine ⟨after (.saPush x) s, exec_eq_after _ s, ?stored, fun j hj => ?others, bank_after_saPush x s,
    sameControl_after _ s, fun hmore => ?more, fun hlast => ?last⟩
  case stored => rw [wbuf_after_saPush, List.getElem?_set_self (hw ▸ hlt)]
  case others => rw [wbuf_after_saPush, List.getElem?_set_ne hj.symm]
  case more =>
    rw [after_saPush_more x hmore]
    exact ⟨rfl, rfl, rfl, rfl⟩
  case last =>
    rw [after_saPush_last x hlast]
    exact ⟨rfl, isFrame_frame (s.withWindow (s.wbuf.set s.cnt x)), length_dft _ _, rfl⟩

/-- Settles O22: the window is loaded element by element, then framed. -/
theorem loadReplacesWindowAndFrame : Obligations.LoadReplacesWindowAndFrame := by
  intro n v s hwf
  refine ⟨(s.withWindow (loadedWindow s.build.w n v)).frame, exec_eq_after _ s, length_loadedWindow _ n v,
    fun i hi hn => ?loaded, fun i hi hn => ?padded, isFrame_frame _, length_dft _ _, rfl, rfl, rfl,
    SameControl.refl s⟩
  case loaded =>
    exact (loadedWindow_getElem? n v hi).trans (paddedElement_of_lt (length_of_countMatches hwf) hn)
  case padded => exact (loadedWindow_getElem? n v hi).trans (congrArg some (paddedElement_of_le v hn))

/-- Settles O23: each read is one response. -/
theorem analyzerReadsAnswerAndWriteNothing : Obligations.AnalyzerReadsAnswerAndWriteNothing := by
  intro s
  refine ⟨⟨?inverse, length_idft _ _, idft_of_zeros s.build⟩, ?magnitudes, cplxWords s.cbuf, ?bins,
    length_cplxWords _, fun k z => cplxWords_getElem?⟩
  case inverse => exact (exec_eq_after _ s).trans (congrArg _ (after_saInv s))
  case magnitudes => exact (exec_eq_after _ s).trans (congrArg _ (after_saRdmag s))
  case bins => exact (exec_eq_after _ s).trans (congrArg _ (after_saRdcx s))

/-- Settles O24: `SA.RST` writes three fields. -/
theorem analyzerResetKeepsTheBins : Obligations.AnalyzerResetKeepsTheBins := by
  intro s
  exact ⟨_, (exec_eq_after _ s).trans (congrArg _ (after_saRst s)), List.length_replicate,
    fun _ => List.eq_of_mem_replicate, rfl, List.length_replicate, fun _ => List.eq_of_mem_replicate, rfl, rfl, rfl,
    SameControl.refl s⟩

/-- Settles O25: none of the pushes fills the window. -/
theorem fewerThanWPushesAnswerZero : Obligations.FewerThanWPushesAnswerZero := by
  intro s xs hs hcnt hlt
  refine ⟨s.pushed xs, ?_, rfl, ?_, rfl, rfl, rfl⟩
  · rw [performAll_eq_afterAll, afterAll_pushes hs.wbuf_length (by omega)]
  · exact (congrArg (· + xs.length) hcnt).trans (Nat.zero_add _)

/-- Settles O26: all pushes but the last leave the window with one place, and the last one fills it. -/
theorem wPushesGiveOneFrame : Obligations.WPushesGiveOneFrame := by
  intro s xs hs hcnt hlen
  have hw := hs.wbuf_length
  obtain rfl | ⟨ys, x, rfl⟩ := List.eq_nil_or_concat' xs
  · exact absurd hs.cnt_lt (by rw [← hlen]; exact Nat.not_lt_zero _)
  · have hlen' : ys.length + 1 = s.build.w := by simpa using hlen
    have hfill := afterAll_pushes_fill (xs := ys) x hw (by omega)
    refine ⟨_, (performAll_eq_afterAll _ s).trans (congrArg _ hfill), ?answers, rfl,
      State.wbuf_pushed_all hcnt (hlen.trans hw.symm), isFrame_frame (State.withWindow _ _), rfl⟩
    rw [← hlen']
    rfl

/-- Settles O27: a window of `+0.0` has silent bins, and these have magnitudes `+0.0`. -/
theorem loadOfNothingGivesTheZeroFrame : Obligations.LoadOfNothingGivesTheZeroFrame := by
  intro s
  have hwindow := loadedWindow_nothing s.build.w
  have hbins : ∀ z ∈ dft s.build (loadedWindow s.build.w 0#32 []),
      F32.isZero z.re = true ∧ F32.isZero z.im = true := by
    rw [hwindow]
    refine dft_of_zeros s.build fun v hv => ?_
    rw [List.eq_of_mem_replicate hv]
    decide
  refine ⟨(s.withWindow (loadedWindow s.build.w 0#32 [])).frame, exec_eq_after _ s, fun v hv => ?_, hbins,
    (isFrame_frame _).mag_of_zeros hbins, (length_magnitudes _ _).trans (length_dft _ _)⟩
  exact List.eq_of_mem_replicate (hwindow ▸ hv)

/-- Settles O58: over the reals by the orthogonality of the cosines, in a build by the linearity of the inverse
transform. -/
theorem transformsRoundTrip : Obligations.TransformsRoundTrip := by
  refine ⟨fun w x hw h2 => ?ideal, fun b tol x hb _ hx hd hi n y v => idft_dft_near hx hd hb hi⟩
  refine ⟨fun n => Ideal.idft_dft hw h2 x, fun k hk => ?bins, Ideal.length_magnitudes_dftBins x, fun m hm => ?nonneg,
    Ideal.magnitudes_dftBins_zero_iff hw h2 x⟩
  case bins =>
    rw [Ideal.dft_eq_complex]
    exact Ideal.magnitudes_dftBins x hk
  case nonneg =>
    obtain ⟨k, -, rfl⟩ := Ideal.exists_bin_of_mem hm
    exact norm_nonneg _

end Sys2Proof.Machine
end

section
/-! SUPPORT. The setters and the read-backs of unit CG (42_coeff_gen): what a setter leaves in its filter, and the
words of a read-back. -/

namespace Sys2Proof.Machine

/-! ### What a setter leaves (R170, R178) -/

section

variable {bd : Build} {t : FilterType} {en : Bool} {a b fs : Word} {f : Filter}

theorem Filter.afterSet_of_generates (h : generates t en a b fs = true) :
    f.afterSet bd t en a b fs = (f.describe t en a b fs).commit bd.l (coefficients bd t a b fs) :=
  if_pos h

theorem Filter.afterSet_of_not_generates (h : ¬generates t en a b fs = true) :
    f.afterSet bd t en a b fs = f.describe t en a b fs :=
  if_neg h

/-- The descriptor is the operands', whether the setter generates or not (R170). -/
theorem Filter.afterSet_descriptor (bd : Build) (t : FilterType) (en : Bool) (a b fs : Word) (f : Filter) :
    (f.afterSet bd t en a b fs).en = en ∧ (f.afterSet bd t en a b fs).cutA = a ∧
      (f.afterSet bd t en a b fs).cutB = (if t.isBand then b else f.cutB) ∧
      (f.afterSet bd t en a b fs).fs = fs := by
  by_cases h : generates t en a b fs = true
  · rw [Filter.afterSet_of_generates h]
    exact ⟨rfl, rfl, rfl, rfl⟩
  · rw [Filter.afterSet_of_not_generates h]
    exact ⟨rfl, rfl, rfl, rfl⟩

/-- The setter of a type generates exactly when it enables and the guard of its operands holds (R170). -/
theorem generates_bandEdge : generates t en a (bandEdge t b) fs = true ↔ en = true ∧ guard t a b fs = true := by
  rw [generates, guard_bandEdge, Bool.and_eq_true]

theorem isBand_iff : t.isBand = true ↔ t = .bs ∨ t = .bp := by
  cases t <;> decide

theorem isBand_eq_false_iff : t.isBand = false ↔ t = .lp ∨ t = .hp := by
  cases t <;> decide

theorem bandEdge_of_isBand (h : t.isBand = true) : bandEdge t b = b := if_pos h

end

theorem filter_after_setterOf (t : FilterType) (en : Bool) (a b fs : Word) (s : State) :
    (after (setterOf t en a b fs) s).filter t = (s.filter t).afterSet s.build t en a (bandEdge t b) fs := by
  rw [after_setterOf, State.putFilter_filter]

/-- The taps that an enabling setter with the guard leaves. -/
theorem coef_after_setterOf {t : FilterType} {a b fs : Word} (h : guard t a b fs = true) (s : State) :
    ((after (setterOf t true a b fs) s).filter t).coef = coefficients s.build t a b fs := by
  rw [filter_after_setterOf, Filter.afterSet_of_generates (generates_bandEdge.mpr ⟨rfl, h⟩), Filter.commit_coef,
    coefficients_bandEdge]

/-- The flags word as a number (R184). -/
theorem flagsWord_eq (f : Filter) :
    flagsWord f = BitVec.ofNat 32 ((if f.en then 1 else 0) + (if f.hasc then 2 else 0)) := by
  unfold flagsWord
  cases f.en <;> cases f.hasc <;> decide

theorem Filter.readBack_eq (f : Filter) :
    f.readBack = [flagsWord f, f.cutA, f.cutB, f.fs] ++ if f.hasc then f.coef else [] := by
  rw [Filter.readBack, show f2w = id from rfl, List.map_id]
  rfl

end Sys2Proof.Machine
end

section
/-! SUPPORT. Words as extended real numbers (R113), the half of a rate, and the guard (R171). -/

namespace Sys2Proof.Machine.F32

/-! ### The extended number of a word (R110, R113) -/

section

variable {a b : Word}

theorem extended_of_isFinite (h : isFinite a = true) : Ideal.extended a = (Ideal.real a : EReal) := if_pos h

theorem extended_of_isInf (h : isInf a = true) : Ideal.extended a = if sign a then ⊥ else ⊤ := by
  have hf : ¬isFinite a = true := fun hf => by simp [isInf_of_isFinite hf] at h
  rw [Ideal.extended, if_neg hf, if_pos h]

theorem extended_posZero : Ideal.extended posZero = 0 := by
  rw [extended_of_isFinite (by decide), real_eq_zero.mpr (by decide), EReal.coe_zero]

theorem isFinite_or_isInf (h : isNaN a = false) : isFinite a = true ∨ isInf a = true :=
  (kinds a).imp_right fun hk => hk.resolve_right (by simp [h])

theorem lt_iff_real (ha : isFinite a = true) (hb : isFinite b = true) :
    lt a b = true ↔ Ideal.real a < Ideal.real b := by
  rw [lt_finite ha hb, Ideal.real, Ideal.real, div_lt_div_iff_of_pos_right (by positivity), Int.cast_lt]

/-- `flt` is the order of the extended numbers (R113). -/
theorem lt_iff_extended (ha : isNaN a = false) (hb : isNaN b = false) :
    lt a b = true ↔ Ideal.extended a < Ideal.extended b := by
  obtain ha | ha := isFinite_or_isInf ha <;> obtain hb | hb := isFinite_or_isInf hb
  · rw [lt_iff_real ha hb, extended_of_isFinite ha, extended_of_isFinite hb, EReal.coe_lt_coe_iff]
  · rw [lt_inf_right ha hb, extended_of_isFinite ha, extended_of_isInf hb]
    cases sign b <;> simp
  · rw [lt_inf_left ha hb, extended_of_isInf ha, extended_of_isFinite hb]
    cases sign a <;> simp
  · rw [lt_inf_inf ha hb, extended_of_isInf ha, extended_of_isInf hb]
    cases sign a <;> cases sign b <;> simp

/-- Nothing is above `+Inf`. -/
theorem not_lt_of_posInf (ha : isInf a = true) (hs : sign a = false) : lt a b = false := by
  obtain hb | hb | hb := kinds b
  · rw [lt_inf_left ha hb, hs]
  · rw [lt_inf_inf ha hb, hs, Bool.false_and]
  · exact lt_nan (.inr hb)

theorem not_isNaN_of_lt (h : lt a b = true) : isNaN a = false ∧ isNaN b = false := by
  simp only [lt, Bool.and_eq_true, Bool.not_eq_true'] at h
  exact h.1

theorem gt_posZero_iff (ha : isNaN a = false) : gt a posZero = true ↔ 0 < Ideal.extended a := by
  rw [gt, lt_iff_extended (by decide) ha, extended_posZero]

end

/-! ### The half of a rate -/

section

variable {fs half top : Word}

theorem real_two : Ideal.real two = 2 := by
  have hv : value two = 2 ^ 150 := by decide +kernel
  rw [Ideal.real, hv]
  norm_num

/-- From the second normal binade on half a number is a number (R110). -/
theorem exists_real_half (hf : isFinite fs = true) (he : 2 ≤ expo fs) :
    ∃ z, isFinite z = true ∧ Ideal.real z = Ideal.real fs / 2 := by
  obtain ⟨e, he⟩ : ∃ e, expo fs = e + 2 := ⟨expo fs - 2, by omega⟩
  have hmag := mag_eq_expo_frac fs
  rw [isFinite_iff] at hf
  have hfrac := frac_lt fs
  have hz : mag (pack (sign fs) (mag fs - 2 ^ 23)) = mag fs - 2 ^ 23 := mag_pack _ (by omega)
  have hunits : units (pack (sign fs) (mag fs - 2 ^ 23)) = (2 ^ 23 + frac fs) * 2 ^ e :=
    units_eq_mul_pow (by omega) (by omega) (by omega)
  refine ⟨pack (sign fs) (mag fs - 2 ^ 23), (isFinite_iff _).mpr (by omega), ?_⟩
  have hdouble : (units fs : ℝ) = 2 * units (pack (sign fs) (mag fs - 2 ^ 23)) := by
    rw [hunits, units_of_expo_succ (e := e + 1) he, pow_succ]
    push_cast
    ring
  rw [real_eq_signed, real_eq_signed fs, sign_pack _ (by omega), hdouble, ← signed_div_right,
    mul_div_assoc, mul_div_cancel_left₀ _ two_ne_zero]

/-- Half a finite rate is finite, and no number is nearer to the exact half (R111). -/
theorem half_nearest (hf : isFinite fs = true) (hh : IsResult (div? fs two) half) :
    isFinite half = true ∧
      ∀ z, isFinite z = true → |Ideal.real half - Ideal.real fs / 2| ≤ |Ideal.real z - Ideal.real fs / 2| := by
  obtain ⟨r, hr, ⟨hround, -⟩, -⟩ := div?_roundsTo hf (b := two) (by decide) (by decide)
  rw [hr, IsResult_some] at hh
  rw [hh, ← real_two]
  have hsmall : |Ideal.real fs / Ideal.real two| < (2 ^ 25 - 1) * 2 ^ 103 := by
    have hu : (units fs : ℝ) < 2 ^ 23 * 2 ^ 254 := by exact_mod_cast units_lt_of_isFinite hf
    rw [real_two, abs_div, abs_real, abs_two, div_div, div_lt_iff₀ (by positivity)]
    refine hu.trans ?_
    norm_num
  obtain ⟨hfin, hnear⟩ := hround hsmall
  exact ⟨hfin, fun z hz => (hnear z hz).1⟩

/-- A number below half a finite rate: twice the number is below the rate, and conversely where halving is exact. -/
theorem lt_half_finite (htop : isFinite top = true) (hf : isFinite fs = true) (hh : IsResult (div? fs two) half) :
    (lt top half = true → 2 * Ideal.real top < Ideal.real fs) ∧
      (2 ≤ expo fs → 2 * Ideal.real top < Ideal.real fs → lt top half = true) := by
  obtain ⟨hfin, hnear⟩ := half_nearest hf hh
  rw [lt_iff_real htop hfin]
  constructor
  · intro hlt
    by_contra! hle
    have := hnear top htop
    rw [abs_of_nonneg (by linarith), abs_of_nonneg (by linarith)] at this
    linarith
  · intro he hlt
    obtain ⟨z, hz, hreal⟩ := exists_real_half hf he
    have hexact := hnear z hz
    rw [hreal, sub_self, abs_zero] at hexact
    linarith [sub_eq_zero.mp (abs_nonpos_iff.mp hexact)]

/-- The same of every positive number and every positive rate, infinite ones included (R171). -/
theorem lt_half (hn : isNaN top = false) (htop : 0 < Ideal.extended top) (hfs : gt fs posZero = true)
    (hh : IsResult (div? fs two) half) :
    (lt top half = true → 2 * Ideal.extended top < Ideal.extended fs) ∧
      (2 ≤ expo fs → 2 * Ideal.extended top < Ideal.extended fs → lt top half = true) := by
  obtain ⟨-, hnfs⟩ := not_isNaN_of_lt hfs
  have hcoe (x : ℝ) : (2 : EReal) * x = ((2 * x : ℝ) : EReal) := by rw [EReal.coe_mul]; rfl
  obtain ht | ht := isFinite_or_isInf hn
  case inr =>
    have hsign : sign top = false :=
      Bool.eq_false_iff.mpr fun hs => by simp [extended_of_isInf ht, hs] at htop
    have hmul : (2 : EReal) * ⊤ = ⊤ := EReal.mul_top_of_pos two_pos
    simp [extended_of_isInf ht, hsign, not_lt_of_posInf ht hsign, hmul]
  case inl =>
    obtain hf | hf := isFinite_or_isInf hnfs
    case inl =>
      simpa only [extended_of_isFinite ht, extended_of_isFinite hf, hcoe, EReal.coe_lt_coe_iff]
        using lt_half_finite ht hf hh
    case inr =>
      have hsign : sign fs = false := by simpa [gt, lt_inf_right (a := posZero) (by decide) hf] using hfs
      rw [div?_inf_left hf (by decide), IsResult_some, hsign] at hh
      have hlt : lt top half = true := by
        rw [hh, lt_inf_right ht (isInf_inf _)]
        rfl
      rw [extended_of_isFinite ht, extended_of_isInf hf, hsign, hcoe]
      exact ⟨fun _ => EReal.coe_lt_top _, fun _ _ => hlt⟩

end

end Sys2Proof.Machine.F32

namespace Sys2Proof.Machine

theorem IsResult.eq_some {r : Option Word} {v w : Word} (h : IsResult r w) (hr : r = some v) : w = v := by
  rwa [hr, IsResult_some] at h

@[simp] theorem arith32_zero (d : Draw) : (arith32 d).zero = posZero := rfl
@[simp] theorem arith32_two (d : Draw) : (arith32 d).two = F32.two := rfl
@[simp] theorem arith32_ofInt (d : Draw) (n : Int) : (arith32 d).ofInt n = F32.ofInt n := rfl

/-- The guard in terms of the comparisons of words, with the half of the rate as a result of its own (R171). -/
theorem exists_half_guard_iff (t : FilterType) (a b fs : Word) :
    ∃ half, IsResult (F32.div? fs F32.two) half ∧
      (guard t a b fs = true ↔
        F32.gt fs posZero = true ∧ F32.gt a posZero = true ∧ (t.isBand = true → F32.lt a b = true) ∧
          F32.lt (if t.isBand then b else a) half = true) := by
  refine ⟨(arith32 ⟨.cg, 0, 0, 0⟩).div fs F32.two, isResult_div _ _ _, ?_⟩
  rw [← guardOf_arith32 ⟨.cg, 0, 0, 0⟩]
  cases t <;> simp [guardOf, FilterType.isBand, and_assoc]

end Sys2Proof.Machine
end

section
/-! SUPPORT. The raw taps (R179), their normalisation (R177), and their sum in binary32. -/

namespace Sys2Proof.Machine

section

variable {F : Type} {A : ArithAt F} {normEps : F} {h : List F}

theorem rawTaps_getElem? (A : ArithAt F) (eps : F) {l i : Nat} (t : FilterType) (fa fb : F) (hi : i < l) :
    (rawTaps A eps l t fa fb)[i]? =
      some ((A 0 i).mul (idealTap (A 0 i) eps t (tapOffset l i) fa fb) (window (A 0 i) l i)) := by
  rw [rawTaps, List.getElem?_map, List.getElem?_range hi, Option.map_some]

/-- The centre tap is the one at offset 0 (R174). -/
theorem tapOffset_eq_zero_iff {bd : Build} {i : Nat} : tapOffset bd.l i = 0 ↔ i = bd.c := by
  unfold tapOffset Build.c
  omega

theorem natAbs_tapOffset_lt {l i : Nat} (hi : i < l) (hl : l < 2 ^ 24) : (tapOffset l i).natAbs < 2 ^ 24 := by
  unfold tapOffset
  omega

/-- The guard on the sum holds: every tap is divided by it (R177). -/
theorem normalise_of_lt (hlt : (A 1 0).lt normEps ((A 1 0).abs (tapSum A 0 (A 1 0).zero h)) = true) :
    normalise A normEps h = h.mapIdx fun i x => (A 2 i).div x (tapSum A 0 (A 1 0).zero h) :=
  if_pos hlt

/-- The guard on the sum fails: the taps are kept (R177). -/
theorem normalise_of_not_lt (hlt : (A 1 0).lt normEps ((A 1 0).abs (tapSum A 0 (A 1 0).zero h)) = false) :
    normalise A normEps h = h :=
  if_neg (by simp [hlt])

end

/-! ### The sum of the taps in binary32 (R177) -/

section

variable (u : DrawUnit) (n : Nat)

theorem isNaN_tapSum {acc : Word} (hacc : F32.isNaN acc = true) (i : Nat) (h : List Word) :
    F32.isNaN (tapSum (arithAt u n) i acc h) = true := by
  induction h generalizing i acc with
  | nil => exact hacc
  | cons x h ih => exact ih (isNaN_add _ (.inl hacc)) _

/-- The sum of the taps is the ascending rounded one, or some NaN from the first NaN on (R177). -/
theorem isResult_tapSum (i : Nat) (acc : Word) (h : List Word) :
    IsResult (tapSumExact acc h) (tapSum (arithAt u n) i acc h) := by
  induction h generalizing i acc with
  | nil => exact IsResult_some.mpr rfl
  | cons x h ih =>
    have hadd := isResult_add ⟨u, n, 1, i⟩ acc x
    rw [tapSumExact]
    cases hr : F32.add? acc x with
    | none =>
      rw [hr, IsResult_none] at hadd
      exact isNaN_tapSum u n hadd (i + 1) h
    | some r =>
      rw [hr, IsResult_some] at hadd
      rw [Option.bind_some, ← hadd]
      exact ih _ _

end

end Sys2Proof.Machine
end

section
/-! SUPPORT. The taps over the reals (R173 to R177, R188): the formulas, their symmetry, and the normalisation. -/

namespace Sys2Proof.Ideal

open Sys2Proof.Machine

/-! ### The formulas -/

theorem sinc_reals (eps x : ℝ) :
    sinc reals eps x = if |x| < eps then 1 else Real.sin (Real.pi * x) / (Real.pi * x) := by
  simp only [sinc, reals, decide_eq_true_eq]

/-- `Sinc` is even (R175). -/
theorem sinc_reals_neg (eps x : ℝ) : sinc reals eps (-x) = sinc reals eps x := by
  rw [sinc_reals, sinc_reals, abs_neg, mul_neg, Real.sin_neg, neg_div_neg_eq]

theorem lpTerm_reals (eps fc : ℝ) (n : Int) :
    lpTerm reals eps fc n = 2 * fc * sinc reals eps (2 * fc * n) := rfl

theorem lpTerm_reals_neg (eps fc : ℝ) (n : Int) : lpTerm reals eps fc (-n) = lpTerm reals eps fc n := by
  rw [lpTerm_reals, lpTerm_reals, Int.cast_neg, mul_neg, sinc_reals_neg]

theorem idealTap_reals_center (eps : ℝ) (t : FilterType) (fa fb : ℝ) :
    idealTap reals eps t 0 fa fb =
      match t with
      | .lp => 2 * fa
      | .hp => 1 - 2 * fa
      | .bs => 1 - 2 * (fb - fa)
      | .bp => 2 * (fb - fa) := by
  cases t <;> rfl

theorem idealTap_reals_of_ne (eps : ℝ) (t : FilterType) {n : Int} (hn : n ≠ 0) (fa fb : ℝ) :
    idealTap reals eps t n fa fb =
      match t with
      | .lp => lpTerm reals eps fa n
      | .hp => -lpTerm reals eps fa n
      | .bs => lpTerm reals eps fa n - lpTerm reals eps fb n
      | .bp => lpTerm reals eps fb n - lpTerm reals eps fa n := by
  cases t <;> simp only [idealTap, if_neg hn] <;> rfl

/-- The ideal taps are even in the offset (R174). -/
theorem idealTap_reals_neg (eps : ℝ) (t : FilterType) (n : Int) (fa fb : ℝ) :
    idealTap reals eps t (-n) fa fb = idealTap reals eps t n fa fb := by
  obtain rfl | hn := eq_or_ne n 0
  · rw [neg_zero]
  · simp only [idealTap_reals_of_ne _ _ hn, idealTap_reals_of_ne _ _ (neg_ne_zero.mpr hn), lpTerm_reals_neg]

theorem window_reals (l i : Nat) :
    window reals l i = 42 / 100 - 1 / 2 * Real.cos (2 * Real.pi * i / ((l - 1 : Nat) : ℝ)) +
      8 / 100 * Real.cos (4 * Real.pi * i / ((l - 1 : Nat) : ℝ)) := by
  rw [show 4 * Real.pi * i / ((l - 1 : Nat) : ℝ) = 2 * (2 * Real.pi * i / ((l - 1 : Nat) : ℝ)) by ring]
  rfl

/-- The Blackman window is symmetric (R176). -/
theorem window_reals_symm {l i : Nat} (hl : 2 ≤ l) (hi : i < l) :
    window reals l (l - 1 - i) = window reals l i := by
  have hl0 : ((l - 1 : Nat) : ℝ) ≠ 0 := Nat.cast_ne_zero.mpr (by omega)
  have h2 : 2 * Real.pi * (l - 1 - i : Nat) / ((l - 1 : Nat) : ℝ) =
      2 * Real.pi - 2 * Real.pi * i / ((l - 1 : Nat) : ℝ) := by
    rw [Nat.cast_sub (by omega), mul_sub, sub_div, mul_div_cancel_right₀ _ hl0]
  have h4 : 4 * Real.pi * (l - 1 - i : Nat) / ((l - 1 : Nat) : ℝ) =
      (2 : Nat) * (2 * Real.pi) - 4 * Real.pi * i / ((l - 1 : Nat) : ℝ) := by
    rw [Nat.cast_sub (by omega), mul_sub, sub_div, mul_div_cancel_right₀ _ hl0]
    push_cast
    ring
  rw [window_reals, window_reals, h2, h4, Real.cos_two_pi_sub, Real.cos_nat_mul_two_pi_sub]

/-- The Blackman window begins with zero (R176). -/
theorem window_reals_first (l : Nat) : window reals l 0 = 0 := by
  rw [window_reals, Nat.cast_zero, mul_zero, mul_zero, zero_div, Real.cos_zero]
  norm_num

theorem tapOffset_symm {l i : Nat} (hodd : l % 2 = 1) (hi : i < l) : tapOffset l (l - 1 - i) = -tapOffset l i := by
  unfold tapOffset
  omega

/-- Raw tap `i` over the reals (R179). -/
noncomputable def rawTap (eps : ℝ) (l : Nat) (t : FilterType) (fa fb : ℝ) (i : Nat) : ℝ :=
  idealTap reals eps t (tapOffset l i) fa fb * window reals l i

section

variable (eps : ℝ) {l : Nat} (t : FilterType) (fa fb : ℝ)

theorem rawTaps_reals_getElem? {i : Nat} (hi : i < l) :
    (rawTaps realsAt eps l t fa fb)[i]? = some (rawTap eps l t fa fb i) :=
  rawTaps_getElem? realsAt eps t fa fb hi

theorem rawTap_symm (hodd : l % 2 = 1) (hl : 2 ≤ l) {i : Nat} (hi : i < l) :
    rawTap eps l t fa fb (l - 1 - i) = rawTap eps l t fa fb i := by
  rw [rawTap, tapOffset_symm hodd hi, idealTap_reals_neg, window_reals_symm hl hi, rawTap]

theorem rawTap_first : rawTap eps l t fa fb 0 = 0 := by
  rw [rawTap, window_reals_first, mul_zero]

end

/-! ### Normalisation (R177) -/

theorem tapSum_reals (i : Nat) (acc : ℝ) (h : List ℝ) : tapSum realsAt i acc h = acc + h.sum := by
  induction h generalizing i acc with
  | nil => exact (add_zero acc).symm
  | cons x h ih =>
    rw [List.sum_cons, ← add_assoc]
    exact ih _ _

/-- What a raw tap is divided by: the sum, or 1 where the guard on the sum fails. -/
noncomputable def tapDivisor (normEps : ℝ) (h : List ℝ) : ℝ := if normEps < |h.sum| then h.sum else 1

theorem normalise_reals (normEps : ℝ) (h : List ℝ) :
    normalise realsAt normEps h = h.map (· / tapDivisor normEps h) := by
  have hsum : tapSum realsAt 0 (realsAt 1 0).zero h = h.sum := (tapSum_reals 0 0 h).trans (zero_add _)
  have hguard : (realsAt 1 0).lt normEps ((realsAt 1 0).abs h.sum) = decide (normEps < |h.sum|) := rfl
  by_cases hlt : normEps < |h.sum|
  · rw [normalise_of_lt (by rw [hsum, hguard, decide_eq_true hlt]), hsum, tapDivisor, if_pos hlt]
    exact List.mapIdx_eq_iff.mpr fun _ => List.getElem?_map
  · rw [normalise_of_not_lt (by rw [hsum, hguard, decide_eq_false hlt]), tapDivisor, if_neg hlt]
    simp only [div_one, List.map_id']

theorem gen_reals (eps normEps : ℝ) (l : Nat) (t : FilterType) (a b fs : ℝ) :
    gen realsAt eps normEps l t a b fs =
      normalise realsAt normEps (rawTaps realsAt eps l t (a / (fs / 2)) (b / (fs / 2))) := rfl

end Sys2Proof.Ideal
end

section
/-! SUPPORT. Bounds and zeros of binary32 results (R111): the window of a build is finite (R176), and a rate of `+Inf`
gives ideal taps that are zeros (R175, R180, R181). -/

namespace Sys2Proof.Machine.F32

/-! ### Bounds by powers of two -/

/-- A finite number of magnitude at most `2 ^ k`. -/
def Within (k : Nat) (w : Word) : Prop := isFinite w = true ∧ |Ideal.real w| ≤ 2 ^ k

section

variable {a b r : Word} {j k : Nat}

theorem Within.mono (h : Within j a) (hjk : j ≤ k) : Within k a :=
  ⟨h.1, h.2.trans (pow_le_pow_right₀ one_le_two hjk)⟩

/-- The powers of two up to `2 ^ 127` are numbers (R110). -/
theorem exists_real_two_pow (hk : k ≤ 127) : ∃ z, isFinite z = true ∧ Ideal.real z = 2 ^ k := by
  have hm : mag (pack false (2 ^ 23 * (k + 126) + 2 ^ 23)) = 2 ^ 23 * (k + 126) + 2 ^ 23 :=
    mag_pack _ (by omega)
  refine ⟨pack false (2 ^ 23 * (k + 126) + 2 ^ 23), (isFinite_iff _).mpr (by omega), ?_⟩
  have hunits : units (pack false (2 ^ 23 * (k + 126) + 2 ^ 23)) = 2 ^ k * 2 ^ 149 := by
    rw [units_eq_mul_pow hm (by decide) (by omega), pow_add]
    ring
  rw [real_eq_signed, sign_pack _ (by omega), hunits, signed_false, Nat.cast_mul, Nat.cast_pow, Nat.cast_pow,
    Nat.cast_ofNat, mul_div_cancel_right₀ _ (by positivity)]

/-- Rounding keeps a bound that is a power of two (R111). -/
theorem within_of_roundsTo {x : ℝ} (h : Ideal.RoundsTo x r) (hx : |x| ≤ 2 ^ k) (hk : k ≤ 127) : Within k r := by
  have hthr : (2 : ℝ) ^ k < (2 ^ 25 - 1) * 2 ^ 103 :=
    (pow_le_pow_right₀ one_le_two hk).trans_lt (by norm_num)
  obtain ⟨hfin, hnear⟩ := h.1 (hx.trans_lt hthr)
  obtain ⟨z, hz, hreal⟩ := exists_real_two_pow hk
  have hhigh := (hnear z hz).1
  have hlow := (hnear (neg z) (by rwa [isFinite_neg])).1
  obtain ⟨hxl, hxh⟩ := abs_le.mp hx
  rw [hreal, abs_of_nonneg (a := 2 ^ k - x) (by linarith)] at hhigh
  rw [real_neg, hreal, abs_of_nonpos (a := -2 ^ k - x) (by linarith)] at hlow
  exact ⟨hfin, abs_le.mpr ⟨by linarith [(abs_le.mp hlow).1], by linarith [(abs_le.mp hhigh).2]⟩⟩

theorem within_sumOf (ha : Within k a) (hb : Within k b) (hk : k + 1 ≤ 127) :
    ∃ r, sumOf a b = some r ∧ Within (k + 1) r := by
  obtain ⟨r, hr, hround, -⟩ := sumOf_finite ha.1 hb.1
  refine ⟨r, hr, within_of_roundsTo hround ?_ hk⟩
  rw [pow_succ, mul_two]
  exact (abs_add_le _ _).trans (add_le_add ha.2 hb.2)

theorem within_ofNat {n : Nat} (hn : n < 2 ^ 24) : Within 24 (ofNat n) ∧ Ideal.real (ofNat n) = n := by
  obtain ⟨hf, hv⟩ := ofNat_exact hn
  have hreal : Ideal.real (ofNat n) = n := by
    rw [Ideal.real, hv, Int.cast_mul, Int.cast_natCast, Int.cast_pow, Int.cast_ofNat,
      mul_div_cancel_right₀ _ (by positivity)]
  refine ⟨⟨hf, ?_⟩, hreal⟩
  rw [hreal, Nat.abs_cast]
  exact_mod_cast hn.le

theorem within_of_units (hf : isFinite a = true) (h : units a ≤ 2 ^ (k + 149)) : Within k a := by
  refine ⟨hf, ?_⟩
  rw [abs_real, div_le_iff₀ (by positivity), ← pow_add]
  exact_mod_cast h

end

/-! ### Zeros -/

section

variable {a b : Word}

theorem round_zero_of_any (s : Bool) (den : Nat) : round s 0 den = pack s 0 := by
  simp [round, nearestEven]

theorem units_of_isZero (h : isZero a = true) : units a = 0 := units_eq_zero.mpr ((isZero_iff a).mp h)

theorem isZero_neg : isZero (neg a) = isZero a := by simp only [isZero, mag_neg]

/-- A zero times a finite number is a zero. -/
theorem mul?_zero (ha : isFinite a = true) (hb : isFinite b = true) (hz : isZero a = true ∨ isZero b = true) :
    mul? a b = some (pack (sign a != sign b) 0) := by
  have hu : units a * units b = 0 := Nat.mul_eq_zero.mpr (hz.imp units_of_isZero units_of_isZero)
  rw [mul?_of_finite ha hb, hu, round_zero_of_any]

/-- A zero divided by a number that is no zero is a zero. -/
theorem zero_div? (ha : isZero a = true) (hn : isNaN b = false) (hb : isZero b = false) :
    div? a b = some (pack (sign a != sign b) 0) := by
  have hf := isFinite_of_isZero ha
  obtain h | h := isFinite_or_isInf hn
  · rw [div?_of_finite hf h hb, units_of_isZero ha, Nat.mul_zero, round_zero_of_any]
  · exact div?_inf_right hf h

/-- `fabs` clears the sign bit (R114). -/
theorem toNat_abs (a : Word) : (abs a).toNat = mag a := by
  rw [abs, BitVec.toNat_and, mag]
  exact Nat.and_two_pow_sub_one_eq_mod _ 31

theorem mag_abs (a : Word) : mag (abs a) = mag a := by
  rw [mag, toNat_abs, Nat.mod_eq_of_lt (mag_lt a)]

theorem key_abs (a : Word) : key (abs a) = mag a := by
  have hs : sign (abs a) = false := by
    rw [sign_eq, toNat_abs]
    exact decide_eq_false (mag_lt a).not_ge
  rw [key, hs, mag_abs]
  rfl

/-- An absolute value above a threshold that is not negative is that of a number that is no zero. -/
theorem not_isZero_of_lt_abs (he : le posZero a = true) (h : lt a (abs b) = true) :
    isNaN b = false ∧ isZero b = false := by
  simp only [le, lt, Bool.and_eq_true, decide_eq_true_eq, Bool.not_eq_true', key_abs] at he h
  obtain ⟨⟨-, hn⟩, hlt⟩ := h
  have h0 : key posZero = 0 := by decide
  refine ⟨by simpa only [isNaN, mag_abs] using hn, Bool.eq_false_iff.mpr fun hz => ?_⟩
  rw [isZero_iff] at hz
  omega

end

end Sys2Proof.Machine.F32

namespace Sys2Proof.Machine

/-! ### Bounded results of `arith32` -/

section

open F32

variable (d : Draw) {a b : Word} {j k : Nat}

theorem within_mul (ha : Within j a) (hb : Within k b) (hjk : j + k ≤ 127) :
    Within (j + k) ((arith32 d).mul a b) := by
  obtain ⟨r, hr, hround, -⟩ := mul?_roundsTo ha.1 hb.1
  rw [(isResult_mul d a b).eq_some hr]
  refine within_of_roundsTo hround ?_ hjk
  rw [abs_mul, pow_add]
  exact mul_le_mul ha.2 hb.2 (abs_nonneg _) (by positivity)

theorem within_add (ha : Within k a) (hb : Within k b) (hk : k + 1 ≤ 127) :
    Within (k + 1) ((arith32 d).add a b) := by
  obtain ⟨r, hr, hw⟩ := within_sumOf ha hb hk
  rwa [(isResult_add d a b).eq_some
    ((add?_of_numbers (isNaN_of_isFinite ha.1) (isNaN_of_isFinite hb.1)).trans hr)]

theorem within_sub (ha : Within k a) (hb : Within k b) (hk : k + 1 ≤ 127) :
    Within (k + 1) ((arith32 d).sub a b) := by
  have hneg : Within k (neg b) := ⟨by rw [isFinite_neg, hb.1], by rw [real_neg, abs_neg]; exact hb.2⟩
  obtain ⟨r, hr, hw⟩ := within_sumOf ha hneg hk
  rwa [(isResult_sub d a b).eq_some
    ((sub?_of_numbers (isNaN_of_isFinite ha.1) (isNaN_of_isFinite hb.1)).trans hr)]

theorem within_div (ha : Within k a) (hb : isFinite b = true) (h1 : 1 ≤ |Ideal.real b|) (hk : k ≤ 127) :
    Within k ((arith32 d).div a b) := by
  have hz : isZero b = false := by
    refine Bool.eq_false_iff.mpr fun hz => ?_
    rw [real_eq_zero.mpr hz, abs_zero] at h1
    linarith
  obtain ⟨r, hr, hround, -⟩ := div?_roundsTo ha.1 hb hz
  rw [(isResult_div d a b).eq_some hr]
  refine within_of_roundsTo hround ?_ hk
  rw [abs_div]
  exact (div_le_self (abs_nonneg _) h1).trans ha.2

theorem within_cos (ha : isFinite a = true) : Within 0 ((arith32 d).cos a) :=
  (trigResult_of_isFinite (Config.cosBits a) ha).symm.imp_right fun h => h.trans_eq (pow_zero 2).symm

/-- Every place of the window of a build of fewer than `2 ^ 24` taps is a finite number (R176): the angle is at most
`2 ^ 27`, and a cosine of a finite angle is at most 1 (R117). -/
theorem within_window {l i : Nat} (hl : 2 ≤ l) (hl24 : l < 2 ^ 24) (hi : i < l) :
    Within 2 (window (arith32 d) l i) := by
  have htwo : Within 1 two := within_of_units (by decide) (by decide +kernel)
  have hpi : Within 2 pi := within_of_units (by decide) (by decide +kernel)
  have h042 : Within 0 k042 := within_of_units (by decide) (by decide +kernel)
  have h05 : Within 0 k05 := within_of_units (by decide) (by decide +kernel)
  have h008 : Within 0 k008 := within_of_units (by decide) (by decide +kernel)
  obtain ⟨hidx, -⟩ := within_ofNat (hi.trans hl24)
  obtain ⟨⟨hfin, -⟩, hreal⟩ := within_ofNat (n := l - 1) (by omega)
  have hone : 1 ≤ |Ideal.real (F32.ofNat (l - 1))| := by
    rw [hreal, Nat.abs_cast]
    exact_mod_cast (by omega : 1 ≤ l - 1)
  have hth := within_div d (within_mul d (within_mul d htwo hpi (by decide)) hidx (by decide)) hfin hone (by decide)
  have hc1 := within_cos d hth.1
  have hc2 := within_cos d (within_mul d htwo hth (by decide)).1
  exact within_add d (within_sub d h042 (within_mul d h05 hc1 (by decide)) (by decide))
    ((within_mul d h008 hc2 (by decide)).mono (by decide)) (by decide)

end

/-! ### A rate of `+Inf` (R180, R181) -/

section

variable (d : Draw) {a b : Word}

theorem isZero_mul (ha : F32.isFinite a = true) (hb : F32.isFinite b = true)
    (hz : F32.isZero a = true ∨ F32.isZero b = true) : F32.isZero ((arith32 d).mul a b) = true := by
  rw [(isResult_mul d a b).eq_some (F32.mul?_zero ha hb hz)]
  exact F32.isZero_pack_zero _

theorem isZero_div (ha : F32.isZero a = true) (hn : F32.isNaN b = false) (hb : F32.isZero b = false) :
    F32.isZero ((arith32 d).div a b) = true := by
  rw [(isResult_div d a b).eq_some (F32.zero_div? ha hn hb)]
  exact F32.isZero_pack_zero _

/-- A finite cutoff is normalised to a zero (R172). -/
theorem isZero_normCutoff (ha : F32.isFinite a = true) :
    F32.isZero (normCutoff (arith32 d) a 0x7F800000#32) = true := by
  have hhalf := (isResult_div d 0x7F800000#32 F32.two).eq_some (F32.div?_inf_left (by decide) (by decide))
  rw [normCutoff, arith32_two, hhalf, (isResult_div d _ _).eq_some (F32.div?_inf_right ha (by decide))]
  exact F32.isZero_pack_zero _

/-- With a normalised cutoff of zero every term is a zero: `Sinc` is 1 there in every build (R173, R175). -/
theorem isZero_lpTerm (bd : Build) {fc : Word} (hfc : F32.isZero fc = true) {n : Int} (hn : n.natAbs < 2 ^ 24) :
    F32.isZero (lpTerm (arith32 d) bd.sincEps fc n) = true := by
  have ha : F32.isZero ((arith32 d).mul F32.two fc) = true :=
    isZero_mul d (by decide) (F32.isFinite_of_isZero hfc) (.inr hfc)
  have hfa := F32.isFinite_of_isZero ha
  have hsinc := sinc_of_isZero d bd (isZero_mul d hfa (F32.ofInt_exact hn).1 (.inl ha))
  simp only [lpTerm, arith32_two, arith32_ofInt, hsinc]
  exact isZero_mul d hfa (by decide) (.inl ha)

theorem isZero_idealTap_lp (bd : Build) {fa : Word} (fb : Word) (hfa : F32.isZero fa = true) {n : Int}
    (hn : n.natAbs < 2 ^ 24) : F32.isZero (idealTap (arith32 d) bd.sincEps .lp n fa fb) = true := by
  by_cases h0 : n = 0
  · rw [idealTap, if_pos h0, arith32_two]
    exact isZero_mul d (by decide) (F32.isFinite_of_isZero hfa) (.inr hfa)
  · rw [idealTap, if_neg h0]
    exact isZero_lpTerm d bd hfa hn

theorem isZero_idealTap_hp (bd : Build) {fa : Word} (fb : Word) (hfa : F32.isZero fa = true) {n : Int}
    (h0 : n ≠ 0) (hn : n.natAbs < 2 ^ 24) :
    F32.isZero (idealTap (arith32 d) bd.sincEps .hp n fa fb) = true := by
  rw [idealTap, if_neg h0]
  exact F32.isZero_neg.trans (isZero_lpTerm d bd hfa hn)

end

/-- Normalisation keeps a tap that is a zero, whatever the sum is (R177). -/
theorem isZero_normalise (bd : Build) (u : DrawUnit) (n : Nat) {raw : List Word} {i : Nat} {y : Word}
    (hz : ∀ x, raw[i]? = some x → F32.isZero x = true)
    (hy : (normalise (arithAt u n) bd.normEps raw)[i]? = some y) : F32.isZero y = true := by
  cases hlt : F32.lt bd.normEps (F32.abs (tapSum (arithAt u n) 0 posZero raw))
  · rw [normalise_of_not_lt hlt] at hy
    exact hz y hy
  · obtain ⟨hnan, hzero⟩ := F32.not_isZero_of_lt_abs (normEps_nonneg bd) hlt
    rw [normalise_of_lt hlt, List.getElem?_mapIdx] at hy
    obtain ⟨x, hx, rfl⟩ := Option.map_eq_some_iff.mp hy
    exact isZero_div ⟨u, n, 2, i⟩ (hz x hx) hnan hzero

theorem Build.length_bounds {bd : Build} (h : bd.ok = true) : 3 ≤ bd.l ∧ bd.l < 2 ^ 24 := by
  simp [Build.ok] at h
  omega

/-- A generated tap is a zero where the ideal tap is one: the window is finite, and the sum divides a zero to a
zero (R177, R179). -/
theorem isZero_coefficients {bd : Build} (hok : bd.ok = true) (t : FilterType) (a b fs : Word) {i : Nat} {v : Word}
    (hz : (tapOffset bd.l i).natAbs < 2 ^ 24 →
      F32.isZero (idealTap (arithAt .cg 0 0 i) bd.sincEps t (tapOffset bd.l i)
        (normCutoff (arithAt .cg 0 3 0) a fs) (normCutoff (arithAt .cg 0 3 1) b fs)) = true)
    (hv : (coefficients bd t a b fs)[i]? = some v) : F32.isZero v = true := by
  obtain ⟨hl3, hl24⟩ := Build.length_bounds hok
  refine isZero_normalise bd .cg 0 (fun x hx => ?_) hv
  have hi : i < bd.l := (List.getElem?_eq_some_iff.mp hx).1.trans_eq (length_rawTaps _ _ _ _ _ _)
  have hideal := hz (natAbs_tapOffset_lt hi hl24)
  obtain ⟨hwindow, -⟩ := within_window ⟨.cg, 0, 0, i⟩ (by omega) hl24 hi
  rw [rawTaps_getElem? _ _ _ _ _ hi, Option.some_inj] at hx
  rw [← hx]
  exact isZero_mul ⟨.cg, 0, 0, i⟩ (F32.isFinite_of_isZero hideal) hwindow (.inl hideal)

end Sys2Proof.Machine
end

section
/-! PROOFS. The obligations of the family 42_coeff_gen: the setters, the guard, the taps, and the read-backs. -/

namespace Sys2Proof.Machine

/-- Settles O28: a setter writes its own filter only, and `Filter.afterSet` says what. -/
theorem setterDescribesAndGenerates : Obligations.SetterDescribesAndGenerates := by
  intro ft en a b fs s
  obtain ⟨hen, hcutA, hcutB, hfs⟩ := Filter.afterSet_descriptor s.build ft en a (bandEdge ft b) fs (s.filter ft)
  refine ⟨after (setterOf ft en a b fs) s, exec_eq_after _ s, ?_⟩
  rw [filter_after_setterOf]
  refine ⟨hen, hcutA, hfs, fun hft => ?band, fun hft => ?single, fun hg => ?keeps, fun hg => ?commits,
    fun u hu => ?others, sameAnalyzer_setterOf ft en a b fs s, ?rsp, sameControl_after _ s⟩
  case band =>
    have h := isBand_iff.mpr hft
    rw [hcutB, if_pos h, bandEdge_of_isBand h]
  case single => rw [hcutB, isBand_eq_false_iff.mpr hft]; rfl
  case keeps =>
    rw [Filter.afterSet_of_not_generates (generates_bandEdge.not.mpr hg)]
    exact ⟨rfl, rfl, rfl⟩
  case commits =>
    rw [Filter.afterSet_of_generates (generates_bandEdge.mpr hg), coefficients_bandEdge]
    exact ⟨rfl, rfl, rfl⟩
  case others => rw [after_setterOf, State.putFilter_filter_ne s _ hu]
  case rsp => rw [after_setterOf, State.putFilter_rsp]

/-- Settles O29: the comparisons are the order of the extended numbers; no number lies between the exact half of a
rate and its rounded half, and where halving is exact the two are one. -/
theorem guardIsTheOpenIntervalBelowNyquist : Obligations.GuardIsTheOpenIntervalBelowNyquist := by
  intro t a b fs top inside
  obtain ⟨half, hhalf, hguard⟩ := exists_half_guard_iff t a b fs
  simp only [isBand_iff] at hguard
  have htop0 (ha : 0 < Ideal.extended a)
      (hab : t = .bs ∨ t = .bp → Ideal.extended a < Ideal.extended b) : 0 < Ideal.extended top := by
    simp only [top]
    split
    next h => exact ha.trans (hab h)
    next => exact ha
  refine ⟨fun hnan => ?nan, fun hle => ?notPositive, fun ha htop hfs => ⟨fun hg => ?inside, fun he hin => ?converse⟩⟩
  case nan =>
    refine Bool.eq_false_iff.mpr fun hg => ?_
    obtain ⟨hfs, ha, -, hlt⟩ := hguard.mp hg
    obtain h | h | h := hnan
    · simp [(F32.not_isNaN_of_lt ha).2] at h
    · simp [(F32.not_isNaN_of_lt hfs).2] at h
    · exact absurd h (Bool.eq_false_iff.mp (F32.not_isNaN_of_lt hlt).1)
  case notPositive =>
    refine Bool.eq_false_iff.mpr fun hg => ?_
    obtain ⟨hfs, ha, -⟩ := hguard.mp hg
    exact hle.elim (Bool.eq_false_iff.mp · hfs) (Bool.eq_false_iff.mp · ha)
  case inside =>
    obtain ⟨hfs0, ha0, hab, hlt⟩ := hguard.mp hg
    have ha0 := (F32.gt_posZero_iff ha).mp ha0
    have hab (h : t = .bs ∨ t = .bp) : Ideal.extended a < Ideal.extended b :=
      (F32.lt_iff_extended ha (F32.not_isNaN_of_lt (hab h)).2).mp (hab h)
    exact ⟨ha0, hab, (F32.lt_half htop (htop0 ha0 hab) hfs0 hhalf).1 hlt⟩
  case converse =>
    obtain ⟨ha0, hab, hlt⟩ := hin
    have htop0 := htop0 ha0 hab
    have hfs0 := (F32.gt_posZero_iff hfs).mpr ((EReal.mul_pos two_pos htop0).trans hlt)
    refine hguard.mpr ⟨hfs0, (F32.gt_posZero_iff ha).mpr ha0, fun h => ?_,
      (F32.lt_half htop htop0 hfs0 hhalf).2 he hlt⟩
    rw [show top = b from if_pos h] at htop
    exact (F32.lt_iff_extended ha htop).mpr (hab h)

/-- Settles O31: both states end with `coefficients` of the operands and the one build. -/
theorem tapsDependOnOperandsAndBuildOnly : Obligations.TapsDependOnOperandsAndBuildOnly := by
  intro ft a b fs s u s' u' hbuild hguard hs hu
  rw [eq_after hs, eq_after hu, coef_after_setterOf hguard, coef_after_setterOf hguard, hbuild]
  exact ⟨rfl, length_coefficients _ _ _ _ _⟩

/-- Settles O32: a read-back is one response. -/
theorem readBackAnswersTheDescriptor : Obligations.ReadBackAnswersTheDescriptor := by
  intro ft s f flags
  rw [exec_eq_after, after_readBackOf, Filter.readBack_eq, flagsWord_eq]
  rfl

/-- Settles O34: the offset as a real number, then the centre tap or the others. -/
theorem idealTapFormulas : Obligations.IdealTapFormulas := by
  intro eps fa fb l i hi n sinc lowpass w tap
  have hn : ((tapOffset l i : Int) : ℝ) = n := by simp only [tapOffset, Int.cast_sub, Int.cast_natCast, n]
  have htap (t : FilterType) :
      tap t = some (idealTap Ideal.reals eps t (tapOffset l i) fa fb * w) := by
    rw [show w = window Ideal.reals l i from (Ideal.window_reals l i).symm]
    exact Ideal.rawTaps_reals_getElem? eps t fa fb hi
  have hlow (fc : ℝ) : lpTerm Ideal.reals eps fc (tapOffset l i) = lowpass fc := by
    rw [Ideal.lpTerm_reals, Ideal.sinc_reals, hn]
  simp only [htap]
  constructor
  · intro h0
    have hz : tapOffset l i = 0 := by exact_mod_cast hn.trans h0
    simp only [hz, Ideal.idealTap_reals_center, and_self]
  · intro h0
    have hz : tapOffset l i ≠ 0 := fun h => h0 (by rw [← hn, h, Int.cast_zero])
    simp only [Ideal.idealTap_reals_of_ne _ _ hz, hlow, and_self]

/-- Settles O35: every tap is the raw tap over one divisor, the raw taps are symmetric, and the first is zero. -/
theorem idealTapsAreSymmetric : Obligations.IdealTapsAreSymmetric := by
  intro eps normEps a b fs l t hodd hl h
  obtain ⟨d, hd⟩ : ∃ d, h = (rawTaps Ideal.realsAt eps l t (a / (fs / 2)) (b / (fs / 2))).map (· / d) :=
    ⟨_, (Ideal.gen_reals ..).trans (Ideal.normalise_reals _ _)⟩
  have htap {i : Nat} (hi : i < l) : h[i]? = some (Ideal.rawTap eps l t (a / (fs / 2)) (b / (fs / 2)) i / d) := by
    rw [hd, List.getElem?_map, Ideal.rawTaps_reals_getElem? _ _ _ _ hi, Option.map_some]
  have hsymm (i : Nat) (hi : i < l) : h[i]? = h[l - 1 - i]? := by
    rw [htap hi, htap (by omega), Ideal.rawTap_symm _ _ _ _ hodd (by omega) hi]
  have hfirst : h[0]? = some 0 := by
    rw [htap (by omega), Ideal.rawTap_first, zero_div]
  exact ⟨length_gen _ _ _ _ _ _ _ _, hsymm, hfirst, (hsymm 0 (by omega)).symm.trans hfirst⟩

/-- Settles O36: the two branches of the normalisation, over the reals and in binary32. -/
theorem tapsAreNormalisedByTheirSum : Obligations.TapsAreNormalisedByTheirSum := by
  constructor
  case left =>
    intro eps normEps a b fs l t raw h
    have hh : h = raw.map (· / Ideal.tapDivisor normEps raw) := Ideal.normalise_reals normEps raw
    have hgt (hlt : normEps < |raw.sum|) : h = raw.map fun x => x / raw.sum := by
      rw [hh, Ideal.tapDivisor, if_pos hlt]
    refine ⟨hgt, fun hlt hne => ?_, fun hle => ?_⟩
    · simp only [hgt hlt, div_eq_mul_inv, List.sum_map_mul_right, List.map_id', mul_inv_cancel₀ hne]
    · rw [hh, Ideal.tapDivisor, if_neg hle.not_gt]
      simp only [div_one, List.map_id']
  case right =>
    intro bd t a b fs A raw h
    refine ⟨tapSum A 0 posZero raw, isResult_tapSum .cg 0 0 posZero raw, length_normalise A _ raw,
      fun hlt i x hx => ?divided, fun hge => normalise_of_not_lt hge⟩
    have hh : h = raw.mapIdx fun i x => (A 2 i).div x (tapSum A 0 posZero raw) := normalise_of_lt hlt
    refine ⟨(A 2 i).div x (tapSum A 0 posZero raw), ?_, isResult_div _ x _⟩
    rw [hh, List.getElem?_mapIdx, hx, Option.map_some]

/-- Settles O37: the normalised cutoff is a zero, so every ideal tap but the high-pass centre is one. -/
theorem infiniteRateGivesZeroTaps : Obligations.InfiniteRateGivesZeroTaps := by
  intro bd cut hok hcut hpos
  refine ⟨?guard, fun v hv => ?lowpass, fun i v hi hv => ?highpass⟩
  case guard =>
    obtain ⟨half, hhalf, hguard⟩ := exists_half_guard_iff .lp cut posZero 0x7F800000#32
    rw [hguard, hhalf.eq_some (F32.div?_inf_left (by decide) (by decide))]
    exact ⟨by decide, hpos, nofun, F32.lt_inf_right hcut (by decide)⟩
  case lowpass =>
    obtain ⟨i, hv⟩ := List.getElem?_of_mem hv
    exact isZero_coefficients hok .lp _ _ _ (isZero_idealTap_lp _ bd _ (isZero_normCutoff _ hcut)) hv
  case highpass =>
    have hne : tapOffset bd.l i ≠ 0 := tapOffset_eq_zero_iff.not.mpr hi
    exact isZero_coefficients hok .hp _ _ _ (isZero_idealTap_hp _ bd _ (isZero_normCutoff _ hcut) hne) hv

end Sys2Proof.Machine
end

section
/-! SUPPORT. A stage of the cascade (R200): its sum in binary32 and over the reals, what it does, and the cascade of
stages that do not run (R201). -/

namespace Sys2Proof.Machine

/-! ### The FIR sum in binary32 -/

/-- A computation that continues from a result: from the number where there is one, and to a NaN where there is
none (R112). -/
theorem IsResult.bind {r : Option Word} {f : Word → Option Word} {v w : Word} (hv : IsResult r v)
    (hnan : F32.isNaN v = true → F32.isNaN w = true) (hnum : IsResult (f v) w) : IsResult (r.bind f) w := by
  cases r with
  | none => exact hnan hv
  | some a => rwa [Option.bind_some, ← IsResult_some.mp hv]

theorem isNaN_firSum (u : DrawUnit) (n lane i : Nat) {acc : Word} (hacc : F32.isNaN acc = true)
    (coef dly : List Word) : F32.isNaN (firSum (arithAt u n) lane i acc coef dly) = true := by
  induction coef generalizing i acc dly with
  | nil => exact hacc
  | cons c coef ih =>
    cases dly with
    | nil => exact hacc
    | cons d dly => exact ih _ (isNaN_add _ (.inl hacc)) dly

/-- The FIR sum is the ascending rounded one, or some NaN from the first NaN on (R200). -/
theorem isResult_firSum (u : DrawUnit) (n lane i : Nat) (acc : Word) (coef dly : List Word) :
    IsResult (firExact acc coef dly) (firSum (arithAt u n) lane i acc coef dly) := by
  induction coef generalizing i acc dly with
  | nil => exact IsResult_some.mpr rfl
  | cons c coef ih =>
    cases dly with
    | nil => exact IsResult_some.mpr rfl
    | cons d dly =>
      have hprod := isResult_mul ⟨u, n, lane, i⟩ c d
      have hsum := isResult_add ⟨u, n, lane, i⟩ acc ((arith32 ⟨u, n, lane, i⟩).mul c d)
      have hrest {a : Word} (h : F32.isNaN a = true) := isNaN_firSum u n lane (i + 1) h coef dly
      exact hprod.bind (fun h => hrest (isNaN_add _ (.inr h))) (hsum.bind hrest (ih _ _ dly))

/-! ### A stage -/

theorem Filter.runs_iff {f : Filter} : f.runs = true ↔ f.en = true ∧ f.hasc = true := Bool.and_eq_true_iff

theorem Filter.runs_eq_false_iff {f : Filter} : f.runs = false ↔ f.en = false ∨ f.hasc = false :=
  Bool.and_eq_false_iff

/-- Every delay line has the length `L` of the build, at least 1 (R27). -/
def State.FullDelayLines (s : State) : Prop := 1 ≤ s.build.l ∧ ∀ u, (s.filter u).dly.length = s.build.l

section

variable (s : State) (t : FilterType) (x : Word)

theorem State.stage_filter_ne {u : FilterType} (h : u ≠ t) : (s.stage t x).2.filter u = s.filter u := by
  rw [State.stage_filter, if_neg fun hc => h hc.1]

variable {s}

/-- A stage keeps the length of every delay line. -/
theorem State.FullDelayLines.stage (hs : s.FullDelayLines) : (s.stage t x).2.FullDelayLines := by
  obtain ⟨hl, hd⟩ := hs
  rw [State.FullDelayLines, State.stage_build]
  refine ⟨hl, fun u => ?_⟩
  rw [State.stage_filter]
  split
  · exact length_shiftIn x _ (hd t)
  · exact hd u

/-- What a stage does is what R200 says. -/
theorem State.FullDelayLines.stageSpec (hs : s.FullDelayLines) :
    StageSpec t s x (s.stage t x).1 (s.stage t x).2 := by
  obtain ⟨hl, hd⟩ := hs
  have hframe := State.stage_frame s t x
  cases h : (s.filter t).runs with
  | false =>
    have hr : ¬((s.filter t).en = true ∧ (s.filter t).hasc = true) := by simp [← Filter.runs_iff, h]
    rw [StageSpec, if_neg hr, State.stage_not_runs x h]
    exact ⟨rfl, rfl⟩
  | true =>
    obtain ⟨hen, hhasc⟩ := Filter.runs_iff.mp h
    have hout : (s.stage t x).1 = stageOutput t s.fbDraw (s.filter t).coef (x :: (s.filter t).dly.dropLast) := by
      rw [State.stage_runs x h, shiftIn_eq x (hd t) hl]
    have hfilter : (s.stage t x).2.filter t = { s.filter t with dly := x :: (s.filter t).dly.dropLast } := by
      rw [State.stage_filter, if_pos ⟨rfl, h⟩, shiftIn_eq x (hd t) hl]
    rw [StageSpec, if_pos ⟨hen, hhasc⟩, hfilter, hout]
    exact ⟨rfl, isResult_firSum .fb _ _ 0 posZero _ _, rfl, hen, hhasc, rfl, rfl, rfl,
      fun u hu => State.stage_filter_ne s t x hu, hframe.sameAnalyzer, hframe.sameControl, hframe.rsp⟩

end

/-! ### The cascade -/

/-- With no stage that runs the cascade passes its input on and leaves the state (R201). -/
theorem State.cascade_not_runs {s : State} (x : Word) (h : ∀ t, (s.filter t).runs = false) :
    s.cascade x = (x, s) := by
  simp only [State.cascade, State.stage_not_runs _ (h _)]

end Sys2Proof.Machine

namespace Sys2Proof.Ideal

open Sys2Proof.Machine

/-- Over the reals the FIR sum is the sum of the products (R200). -/
theorem firSum_reals (lane i : Nat) (acc : ℝ) (coef dly : List ℝ) :
    firSum realsAt lane i acc coef dly = acc + (List.zipWith (· * ·) coef dly).sum := by
  induction coef generalizing i acc dly with
  | nil => exact (add_zero acc).symm
  | cons c coef ih =>
    cases dly with
    | nil => exact (add_zero acc).symm
    | cons d dly =>
      rw [List.zipWith_cons_cons, List.sum_cons, ← add_assoc]
      exact ih _ _ dly

end Sys2Proof.Ideal
end

section
/-! PROOFS. The obligations of the family 43_fir_cascade: the FIR stage, the cascade, and the reset of the bank. -/

namespace Sys2Proof.Machine

/-- Settles O38: no stage of the cascade runs, and the output is the operand. -/
theorem procWithoutRunningStageIsIdentity : Obligations.ProcWithoutRunningStageIsIdentity := by
  intro x s h
  rw [exec_eq_after, after_fbProc, State.cascade_not_runs x fun t => Filter.runs_eq_false_iff.mpr (h t)]
  rfl

/-- Settles O39: the four stages one after the other, each from the state of the one before, whose delay lines still
have length `L`. -/
theorem procRunsTheCascadeInOrder : Obligations.ProcRunsTheCascadeInOrder := by
  intro x s hl hd
  let bp := s.stage .bp x
  let bs := bp.2.stage .bs bp.1
  let hp := bs.2.stage .hp bs.1
  let lp := hp.2.stage .lp hp.1
  have h0 : s.FullDelayLines := ⟨hl, hd⟩
  have h1 : bp.2.FullDelayLines := h0.stage .bp x
  have h2 : bs.2.FullDelayLines := h1.stage .bs bp.1
  have h3 : hp.2.FullDelayLines := h2.stage .hp bs.1
  exact ⟨bp.1, bs.1, hp.1, lp.1, bp.2, bs.2, hp.2, lp.2, h0.stageSpec .bp x, h1.stageSpec .bs bp.1,
    h2.stageSpec .hp bs.1, h3.stageSpec .lp hp.1, rfl⟩

/-- Settles O43: the sum of the products of two lists over the same indices. -/
theorem idealStageIsTheConvolutionSum : Obligations.IdealStageIsTheConvolutionSum := by
  intro lane l c d
  rw [Ideal.firSum_reals, zero_add, List.zipWith_map, List.zipWith_self]
  rfl

/-- Settles O40: every filter is cleared by `Filter.clearDly`, and the bank alone is written. -/
theorem bankResetClearsAllDelayLines : Obligations.BankResetClearsAllDelayLines := by
  intro s
  exact ⟨after .fbRst s, exec_eq_after _ s, filter_after_fbRst s, SameAnalyzer.refl s, rfl, sameControl_after _ s⟩

end Sys2Proof.Machine
end

section
/-! SUPPORT. Rounding of exact results (R111), the bin frequency (R230, R233, R235), the comparisons in extended
numbers (R113), and the two masks (R231 to R233). -/

namespace Sys2Proof.Machine.F32

/-! ### Rounding of exact and of large results -/

section

variable {r z : Word} {x c : ℝ}

/-- The finite numbers lie below the overflow threshold (R110, R111). -/
theorem abs_real_lt_threshold (hz : isFinite z = true) : |Ideal.real z| < (2 ^ 25 - 1) * 2 ^ 103 := by
  have hmax : units 0x7F7FFFFF#32 = 0xFFFFFF * 2 ^ 253 := by decide +kernel
  have hmag : mag 0x7F7FFFFF#32 = 0x7F7FFFFF := by decide
  rw [isFinite_iff] at hz
  have hle : units z ≤ units 0x7F7FFFFF#32 := units_le_iff.mpr (by omega)
  rw [hmax] at hle
  have hcast : (units z : ℝ) ≤ 0xFFFFFF * 2 ^ 253 := by exact_mod_cast hle
  rw [abs_real, div_lt_iff₀ (by positivity)]
  exact hcast.trans_lt (by norm_num)

/-- An exact result that is a number is not changed by rounding (R111). -/
theorem eq_real_of_roundsTo (h : Ideal.RoundsTo x r) (hz : isFinite z = true) (hx : Ideal.real z = x) :
    isFinite r = true ∧ Ideal.real r = x := by
  obtain ⟨hfin, hnear⟩ := h.1 (hx ▸ abs_real_lt_threshold hz)
  have hdist := (hnear z hz).1
  rw [hx, sub_self, abs_zero] at hdist
  exact ⟨hfin, sub_eq_zero.mp (abs_nonpos_iff.mp hdist)⟩

/-- Rounding a multiple by at least 1 of a number that is no zero gives no zero: the number itself is nearer. -/
theorem not_isZero_of_roundsTo_mul (h : Ideal.RoundsTo (c * Ideal.real z) r) (hc : 1 ≤ c)
    (hz : isFinite z = true) (hz0 : isZero z = false) : isZero r = false := by
  refine Bool.eq_false_iff.mpr fun hr => ?_
  obtain hx | hx := lt_or_ge |c * Ideal.real z| ((2 ^ 25 - 1) * 2 ^ 103)
  · have hnear := ((h.1 hx).2 z hz).1
    have hpos : 0 < |Ideal.real z| := abs_pos.mpr fun h0 => by simp [real_eq_zero.mp h0] at hz0
    have hdist : Ideal.real z - c * Ideal.real z = -((c - 1) * Ideal.real z) := by ring
    rw [real_eq_zero.mpr hr, zero_sub, abs_neg, hdist, abs_neg, abs_mul, abs_mul,
      abs_of_nonneg (zero_le_one.trans hc), abs_of_nonneg (sub_nonneg.mpr hc)] at hnear
    linarith
  · simp [isZero_of_isInf (h.2 hx).1] at hr

end

/-! ### Counts as numbers (R115) -/

section

variable {n : Nat}

theorem sign_ofNat (n : Nat) : sign (ofNat n) = false := sign_round _ _ _

theorem isZero_ofNat_zero : isZero (ofNat 0) = true := by decide

theorem isFinite_ofNat (hn : n < 2 ^ 32) : isFinite (ofNat n) = true := by
  have hle : |(n : ℝ)| ≤ 2 ^ 32 := by
    rw [Nat.abs_cast]
    exact_mod_cast hn.le
  exact (within_of_roundsTo (ofNat_roundsTo n) hle (by decide)).1

/-- A positive count is rounded to at least 1, since 1 is a number. -/
theorem one_le_real_ofNat (h0 : 0 < n) (hn : n < 2 ^ 32) : 1 ≤ Ideal.real (ofNat n) := by
  have h1 : (1 : ℝ) ≤ n := by exact_mod_cast h0
  have hn32 : (n : ℝ) < 2 ^ 32 := by exact_mod_cast hn
  obtain ⟨hone, hreal⟩ := within_ofNat (n := 1) (by decide)
  have hthr : |(n : ℝ)| < (2 ^ 25 - 1) * 2 ^ 103 := by
    rw [Nat.abs_cast]
    exact hn32.trans (by norm_num)
  have hnear := (((ofNat_roundsTo n).1 hthr).2 _ hone.1).1
  rw [hreal, Nat.cast_one, abs_of_nonpos (a := 1 - (n : ℝ)) (by linarith)] at hnear
  linarith [(abs_le.mp hnear).1]

theorem not_isZero_ofNat (h0 : 0 < n) (hn : n < 2 ^ 32) : isZero (ofNat n) = false := by
  refine Bool.eq_false_iff.mpr fun hz => ?_
  linarith [one_le_real_ofNat h0 hn, real_eq_zero.mpr hz]

end

/-! ### Products with a count, and quotients by one (R230) -/

section

variable {a p fs : Word} {k n : Nat}

/-- A positive count times a number keeps its sign, makes a zero of a zero only, and an infinity of an infinity. -/
theorem mul?_ofNat_pos (h0 : 0 < k) (hk : k < 2 ^ 32) (hfs : isNaN fs = false) :
    ∃ p, mul? (ofNat k) fs = some p ∧ sign p = sign fs ∧ (isZero fs = false → isZero p = false) ∧
      (isInf fs = true → isInf p = true) := by
  have hfin := isFinite_ofNat hk
  obtain hf | hi := isFinite_or_isInf hfs
  · obtain ⟨p, hp, hround, hsign⟩ := mul?_roundsTo hfin hf
    rw [sign_ofNat, Bool.false_bne] at hsign
    exact ⟨p, hp, hsign, not_isZero_of_roundsTo_mul hround (one_le_real_ofNat h0 hk) hf,
      fun hi => by simp [isInf_of_isFinite hf] at hi⟩
  · refine ⟨_, mul?_infinite (.inr ⟨hi, isNaN_of_isFinite hfin, not_isZero_ofNat h0 hk⟩), ?_,
      fun _ => isZero_of_isInf (isInf_inf _), fun _ => isInf_inf _⟩
    rw [sign_inf, sign_ofNat, Bool.false_bne]

/-- A number over a positive count keeps its sign, and is the rounded quotient or an infinity. -/
theorem div?_ofNat_pos (h0 : 0 < n) (hn : n < 2 ^ 32) (hp : isNaN p = false) :
    ∃ f, div? p (ofNat n) = some f ∧ sign f = sign p ∧
      (isFinite p = true → Ideal.RoundsTo (Ideal.real p / Ideal.real (ofNat n)) f) ∧
      (isInf p = true → isInf f = true) := by
  have hfin := isFinite_ofNat hn
  obtain hf | hi := isFinite_or_isInf hp
  · obtain ⟨f, hdiv, hround, hsign⟩ := div?_roundsTo hf hfin (not_isZero_ofNat h0 hn)
    rw [sign_ofNat, Bool.bne_false] at hsign
    exact ⟨f, hdiv, hsign, fun _ => hround, fun hi => by simp [isInf_of_isFinite hf] at hi⟩
  · refine ⟨_, div?_inf_left hi hfin, ?_, fun hf => by simp [isInf_of_isFinite hf] at hi, fun _ => isInf_inf _⟩
    rw [sign_inf, sign_ofNat, Bool.bne_false]

/-- A number that is no zero over a zero is an infinity (R111). -/
theorem div?_by_zero (hp : isNaN p = false) (hz : isZero p = false) (ha : isZero a = true) :
    div? p a = some (inf (sign p != sign a)) := by
  obtain hf | hi := isFinite_or_isInf hp
  · rw [div?_zero hf ha, hz]
    rfl
  · exact div?_inf_left hi (isFinite_of_isZero ha)

end

/-! ### Comparisons of extended numbers (R113) -/

theorem lt_iff_below {a b : Word} : lt a b = true ↔ Ideal.Below a b := by
  constructor
  · intro h
    obtain ⟨ha, hb⟩ := not_isNaN_of_lt h
    exact ⟨ha, hb, (lt_iff_extended ha hb).mp h⟩
  · rintro ⟨ha, hb, hlt⟩
    exact (lt_iff_extended ha hb).mpr hlt

theorem le_iff_atMost {a b : Word} : le a b = true ↔ Ideal.AtMost a b := by
  by_cases hn : isNaN a = true ∨ isNaN b = true
  · rw [le_nan hn]
    refine iff_of_false Bool.false_ne_true ?_
    rintro ⟨ha, hb, -⟩
    simp [ha, hb] at hn
  · obtain ⟨ha, hb⟩ := not_or.mp hn
    rw [Bool.not_eq_true] at ha hb
    rw [le_of_numbers ha hb, Bool.not_eq_true', ← Bool.not_eq_true, lt_iff_extended hb ha, not_lt, Ideal.AtMost]
    simp only [ha, hb, true_and]

end Sys2Proof.Machine.F32

namespace Sys2Proof.Machine

/-! ### The bin frequency (R230) -/

section

variable {k nfft : Nat} {fs : Word}

/-- The bin frequency is a number, since no quotient is a NaN word. -/
theorem binFreq_not_nan {f : Word} (h : binFreq k fs nfft = some f) : F32.isNaN f = false := by
  cases hn : F32.isNaN fs
  · rw [binFreq_eq hn] at h
    obtain ⟨p, -, hdiv⟩ := Option.bind_eq_some_iff.mp h
    exact F32.div?_not_nan hdiv
  · rw [binFreq_nan hn] at h
    cases h

/-- At a finite rate the bin frequency is rounded twice, in the product and in the quotient (R230). -/
theorem binFreq_of_isFinite (hk : k < 2 ^ 32) (hn : nfft < 2 ^ 32) (hfs : F32.isFinite fs = true) (h0 : 0 < nfft) :
    ∃ p f, Ideal.RoundsTo (Ideal.real (F32.ofNat k) * Ideal.real fs) p ∧ F32.sign p = F32.sign fs ∧
      binFreq k fs nfft = some f ∧ F32.sign f = F32.sign fs ∧
      (F32.isFinite p = true → Ideal.RoundsTo (Ideal.real p / Ideal.real (F32.ofNat nfft)) f) ∧
      (F32.isInf p = true → F32.isInf f = true) := by
  obtain ⟨p, hp, hround, hsp⟩ := F32.mul?_roundsTo (F32.isFinite_ofNat hk) hfs
  obtain ⟨f, hf, hsf, hdiv⟩ := F32.div?_ofNat_pos h0 hn (F32.mul?_not_nan hp)
  rw [F32.sign_ofNat, Bool.false_bne] at hsp
  rw [binFreq_eq (F32.isNaN_of_isFinite hfs), hp, Option.bind_some]
  exact ⟨p, f, hround, hsp, hf, hsf.trans hsp, hdiv⟩

/-- Where the product and the ratio are numbers and the counts have 24 bits, neither step rounds (R235). -/
theorem binFreq_exact (hfs : F32.isFinite fs = true) (h0 : 0 < nfft) (hk : k < 2 ^ 24) (hn : nfft < 2 ^ 24)
    {p f : Word} (hp : F32.isFinite p = true) (hf : F32.isFinite f = true)
    (hprod : Ideal.real p = k * Ideal.real fs) (hratio : Ideal.real f = Ideal.real p / nfft) :
    ∃ g, binFreq k fs nfft = some g ∧ F32.isFinite g = true ∧ Ideal.real g = k * Ideal.real fs / nfft := by
  obtain ⟨q, g, hq, -, hg, -, hdiv, -⟩ := binFreq_of_isFinite (hk.trans (by decide)) (hn.trans (by decide)) hfs h0
  rw [(F32.within_ofNat hk).2] at hq
  obtain ⟨hqfin, hqreal⟩ := F32.eq_real_of_roundsTo hq hp hprod
  have hround := hdiv hqfin
  rw [(F32.within_ofNat hn).2, hqreal] at hround
  exact ⟨g, hg, F32.eq_real_of_roundsTo hround hf (hratio.trans (by rw [hprod]))⟩

/-- Bin 0 has no frequency at an infinite rate: the product is an invalid operation (R111). -/
theorem binFreq_zero_of_isInf (hfs : F32.isInf fs = true) : binFreq 0 fs nfft = none := by
  rw [binFreq_eq (F32.isNaN_of_isInf hfs),
    F32.mul?_eq_none.mpr (.inr (.inr (.inl ⟨F32.isZero_ofNat_zero, hfs⟩))), Option.bind_none]

/-- At an infinite rate the other bins have that infinity as their frequency. -/
theorem binFreq_pos_of_isInf (h0 : 0 < k) (hk : k < 2 ^ 32) (hn0 : 0 < nfft) (hn : nfft < 2 ^ 32)
    (hfs : F32.isInf fs = true) :
    ∃ f, binFreq k fs nfft = some f ∧ F32.isInf f = true ∧ F32.sign f = F32.sign fs := by
  obtain ⟨p, hp, hsp, -, hinf⟩ := F32.mul?_ofNat_pos h0 hk (F32.isNaN_of_isInf hfs)
  obtain ⟨f, hf, hsf, -, hfinf⟩ := F32.div?_ofNat_pos hn0 hn (F32.mul?_not_nan hp)
  rw [binFreq_eq (F32.isNaN_of_isInf hfs), hp, Option.bind_some]
  exact ⟨f, hf, hfinf (hinf hfs), hsf.trans hsp⟩

/-- For `nfft = 0` a zero product has no frequency: it is divided by a zero (R233). -/
theorem binFreq_nfft_zero_eq_none (hk : k < 2 ^ 32) (hfs : F32.isNaN fs = false)
    (hz : k = 0 ∨ F32.isZero fs = true) : binFreq k fs 0 = none := by
  have hzero : F32.isZero (F32.ofNat k) = true ∨ F32.isZero fs = true :=
    hz.imp_left fun hk0 => by rw [hk0]; exact F32.isZero_ofNat_zero
  obtain hf | hi := F32.isFinite_or_isInf hfs
  · rw [binFreq_eq hfs, F32.mul?_zero (F32.isFinite_ofNat hk) hf hzero, Option.bind_some]
    exact F32.div?_eq_none.mpr (.inr (.inr (.inl ⟨F32.isZero_pack_zero _, F32.isZero_ofNat_zero⟩)))
  · obtain rfl : k = 0 := hz.resolve_right (by simp [F32.isZero_of_isInf hi])
    exact binFreq_zero_of_isInf hi

/-- For `nfft = 0` every other bin has an infinity with the sign of the rate as its frequency (R233). -/
theorem binFreq_nfft_zero (h0 : 0 < k) (hk : k < 2 ^ 32) (hfs : F32.isNaN fs = false)
    (hz : F32.isZero fs = false) :
    ∃ f, binFreq k fs 0 = some f ∧ F32.isInf f = true ∧ F32.sign f = F32.sign fs := by
  obtain ⟨p, hp, hsp, hpz, -⟩ := F32.mul?_ofNat_pos h0 hk hfs
  rw [binFreq_eq hfs, hp, Option.bind_some,
    F32.div?_by_zero (F32.mul?_not_nan hp) (hpz hz) F32.isZero_ofNat_zero]
  refine ⟨_, rfl, F32.isInf_inf _, ?_⟩
  rw [F32.sign_inf, F32.sign_ofNat, Bool.bne_false, hsp]

end

/-! ### The zeroing predicate (R231) -/

section

variable {s : State} {k nfft : Nat} {fs : Word}

/-- No comparison with a NaN frequency holds (R113). -/
theorem State.zeroBin_of_none (h : binFreq k fs nfft = none) : s.zeroBin k fs nfft = false := by
  simp [State.zeroBin, h, Bank.zeroesFreq, zeroesOf, arithNum, compareNum]

/-- On a number the predicate is the comparisons of R231, and these are the order of the extended numbers. -/
theorem Bank.zeroesFreq_num (b : Bank) (f : Word) : b.zeroesFreq (num f) = true ↔
    ((b.get .bp).en = true ∧ (Ideal.Below f (b.get .bp).cutA ∨ Ideal.Below (b.get .bp).cutB f)) ∨
    ((b.get .bs).en = true ∧ Ideal.AtMost (b.get .bs).cutA f ∧ Ideal.AtMost f (b.get .bs).cutB) ∨
    ((b.get .hp).en = true ∧ Ideal.Below f (b.get .hp).cutA) ∨
    ((b.get .lp).en = true ∧ Ideal.Below (b.get .lp).cutA f) := by
  simp only [Bank.zeroesFreq, zeroesOf, lt_num, gt_num, le_num, ge_num, F32.gt, F32.ge, Bool.or_eq_true,
    Bool.and_eq_true, F32.lt_iff_below, F32.le_iff_atMost, or_assoc]

end

/-! ### The two masks (R232, R233) -/

section

variable {fs n nfft : Word} {m : List Word} {s : State} {k : Nat}

/-- A well-formed `SW.MMASK` answers its whole vector, masked. -/
theorem after_swMmask_of_wf (hw : (Instr.swMmask fs n m).wf = true) :
    after (.swMmask fs n m) s = s.respond (s.maskedMags fs m) := by
  rw [after_swMmask, ← length_of_countMatches hw, List.take_length]

theorem maskedMags_of_getElem? {x : Word} (h : m[k]? = some x) :
    (s.maskedMags fs m)[k]? = some (if s.zeroBin k fs s.build.w then posZero else x) := by
  rw [maskedMags_getElem?, h, Option.map_some]

theorem cbuf_after_swCmask {z : Cplx} (h : s.cbuf[k]? = some z) :
    (after (.swCmask nfft fs) s).cbuf[k]? = some (if s.zeroBin k fs nfft.toNat then Cplx.zero else z) := by
  rw [after_swCmask, maskedBins_getElem?, h, Option.map_some]

/-- An element that is no zero shows whether it was masked. -/
theorem some_ite_eq_some_left {α : Type} {p : Prop} [Decidable p] {zero x : α} (hx : x ≠ zero) :
    some (if p then zero else x) = some zero ↔ p := by
  rw [Option.some_inj, ite_eq_left_iff, imp_iff_not hx, not_not]

end

end Sys2Proof.Machine
end

section
/-! PROOFS. The obligations of the family 44_spectral_window: the bin frequency, the zeroing predicate and the two
masks. -/

namespace Sys2Proof.Machine

/-- Settles O45: the frequency for each kind of rate, and for `nfft = 0`. -/
theorem binFrequencyIsTheRoundedRatio : Obligations.BinFrequencyIsTheRoundedRatio := by
  intro k nfft fs hk hn kk nn
  exact ⟨fun hfs => binFreq_nan hfs k nfft,
    binFreq_of_isFinite hk hn,
    fun hfs h0 hk hn p f => binFreq_exact hfs h0 hk hn,
    fun hfs hn0 => ⟨fun h0 => h0 ▸ binFreq_zero_of_isInf hfs, fun h0 => binFreq_pos_of_isInf h0 hk hn0 hn hfs⟩,
    fun hfs => ⟨binFreq_nfft_zero_eq_none hk hfs, fun h0 => binFreq_nfft_zero h0 hk hfs⟩⟩

/-- Settles O46: the predicate on a NaN frequency, and on one that is a number. -/
theorem zeroedBinsAreOutsideTheBands : Obligations.ZeroedBinsAreOutsideTheBands := by
  intro s k nfft fs
  refine ⟨State.zeroBin_of_none, fun f hf => ⟨binFreq_not_nan hf, ?_⟩⟩
  rw [State.zeroBin, hf, ← num_of_number (binFreq_not_nan hf)]
  exact Bank.zeroesFreq_num s.bank f

/-- Settles O47: the response is the masked vector. -/
theorem magnitudeMaskAnswers : Obligations.MagnitudeMaskAnswers := by
  intro fs n m s hw
  refine ⟨s.maskedMags fs m, ?_, ?_, fun k x => maskedMags_of_getElem?⟩
  · rw [exec_eq_after, after_swMmask_of_wf hw]
    rfl
  · rw [length_maskedMags, length_of_countMatches hw]

/-- Settles O48: `CBUF` is the masked buffer, and no other field is written. -/
theorem complexMaskEffects : Obligations.ComplexMaskEffects := by
  intro nfft fs s
  exact ⟨after (.swCmask nfft fs) s, exec_eq_after _ s, length_maskedBins s _ fs, fun k z => cbuf_after_swCmask,
    rfl, rfl, rfl, rfl, rfl, sameControl_after _ s⟩

/-- Settles O49: with `nfft = W` both masks ask the same predicate, and a word and a bin that are no zeros show its
answer. -/
theorem theTwoMasksZeroTheSameBins : Obligations.TheTwoMasksZeroTheSameBins := by
  intro fs n nfft m s t u k x z hw hnfft ht hu hx hz hx0 hz0
  rw [eq_after ht, eq_after hu, after_swMmask_of_wf hw, State.respond_rsp,
    List.getElem?_append_right (Nat.le_add_right _ _), Nat.add_sub_cancel_left, maskedMags_of_getElem? hx,
    cbuf_after_swCmask hz, hnfft, some_ite_eq_some_left hx0, some_ite_eq_some_left hz0]

end Sys2Proof.Machine
end

section
/-! SUPPORT. The response words a command appends (R63), and the pins in fail-stop (R252). -/

namespace Sys2Proof.Machine

/-- No command reads the response stream, so it appends the words it answers when none is waiting (R63). -/
theorem rsp_after (i : Instr) (s : State) :
    (after i s).rsp = s.rsp ++ (after i { s with rsp := [] }).rsp := by
  have hs : s = ({ s with rsp := [] } : State).atPorts s.rsp s.cmdIn := by
    rw [State.atPorts, List.append_nil]
  calc (after i s).rsp
      = (after i (({ s with rsp := [] } : State).atPorts s.rsp s.cmdIn)).rsp := by rw [← hs]
    _ = s.rsp ++ (after i { s with rsp := [] }).rsp := by rw [after_atPorts, State.atPorts]

/-- In fail-stop no word is taken, at any level of `rst` and at any pace (R252). -/
theorem PortState.cmdReady_of_fault {p : PortState} (hf : p.core.fault = true) (depth : Nat) (rst : Bool)
    (pace : Pace) : (p.pins depth rst pace).cmdReady = false := by
  simp [PortState.pins, PortState.cmdReady, hf]

end Sys2Proof.Machine
end

section
/-! PROOFS. The obligations of the family 60_exceptions: every command completes, the fault entry, and the way out of
fail-stop. -/

namespace Sys2Proof.Machine

/-- Settles O16: the next state is `after`, and its new response words do not depend on those before them. -/
theorem everyCommandCompletes : Obligations.EveryCommandCompletes := fun i s =>
  ⟨after i s, (after i { s with rsp := [] }).rsp, exec_eq_after i s, rsp_after i s, sameControl_after i s⟩

/-- Settles O9: the step takes the illegal header, and the state it leaves is in fail-stop. -/
theorem faultEntryIsFailStop : Obligations.FaultEntryIsFailStop := by
  intro s h ws c hb hr hf ha hc ht
  refine ⟨{ s with fault := true, fcode := c.code, fword := h, cmdIn := ws }, ?taken, rfl,
    step_failStop hb hr rfl,
    fun depth pace queue sent => ⟨PortState.cmdReady_of_fault rfl depth false pace, rfl, rfl, rfl, rfl, rfl⟩⟩
  case taken =>
    rw [step_take hb hr hf hc]
    exact accept_illegal_header (s := { s with cmdIn := ws }) ha ht

/-- Settles O10: of the two kinds of step (`step_cases`), taking a word needs `FAULT` clear, so only reset is left. -/
theorem onlyResetLeavesFailStop : Obligations.OnlyResetLeavesFailStop := by
  intro s t hf
  refine ⟨fun hb hr => step_failStop hb hr hf, fun h => ?_⟩
  obtain ⟨-, ⟨hr, rfl⟩ | ⟨-, hclear, -⟩⟩ := step_cases h
  · exact ⟨hr, rfl, rfl, rfl⟩
  · rw [hf] at hclear
    cases hclear

end Sys2Proof.Machine
end

section
/-! SUPPORT. The delay line of a filter (R27): when a setter writes it, and what writes it at all. -/

namespace Sys2Proof.Machine

section

variable {bd : Build} {i : Instr} {u : FilterType} {f g : Filter}

/-- A setter that writes the delay line generates: without that it writes the descriptor alone (R170). -/
theorem Filter.generates_of_afterSet_dly_ne {en : Bool} {a b fs : Word}
    (h : (f.afterSet bd u en a b fs).dly ≠ f.dly) : generates u en a b fs = true := by
  by_contra hg
  rw [Filter.afterSet_of_not_generates hg, Filter.describe_dly] at h
  exact h rfl

/-- The three things that change a delay line (R200, R202, R178), read off what a command can do to a filter. -/
theorem FilterStep.cause_of_dly_ne (h : FilterStep bd i u f g) (hd : g.dly ≠ f.dly) :
    ((∃ x, i = .fbProc x) ∧ f.en = true ∧ f.hasc = true) ∨ i = .fbRst ∨
      ∃ a b fs, i = setterOf u true a b fs ∧ guard u a b fs = true := by
  cases h with
  | keeps => exact absurd rfl hd
  | shifts x y hi hr => exact .inl ⟨⟨x, hi⟩, Filter.runs_iff.mp hr⟩
  | clears hi => exact .inr (.inl hi)
  | sets en a b fs hi =>
    obtain ⟨rfl, hguard⟩ := generates_bandEdge.mp (Filter.generates_of_afterSet_dly_ne hd)
    exact .inr (.inr ⟨a, b, fs, hi, hguard⟩)

end

end Sys2Proof.Machine
end

section
/-! PROOFS. The obligation of the family 70_reset_and_hazards: what can change a delay line. -/

namespace Sys2Proof.Machine

/-- Settles O42: every command does to every filter what `FilterStep` says. -/
theorem delayLinesChangeOnlyByThreeThings : Obligations.DelayLinesChangeOnlyByThreeThings := by
  intro i s t ft h hd
  rw [eq_after h] at hd
  exact (filterStep_after i s ft).cause_of_dly_ne hd

end Sys2Proof.Machine
end
